-- ==== Sys2Proof/Word.lean ====
section
/-!
DEFINITION. The widths of the block's values (spec/00_scope.md R9, R10; spec/30_encoding.md R80): nothing but names for them.
-/

namespace Sys2Proof

/-- A command word or an interface register: 32 bits, bit 0 the least significant (R10, R31). -/
abbrev Word := BitVec 32

/-- One byte of a slot (R9). -/
abbrev Byte := BitVec 8

/-- A slot field of a command word: 4 bits (R80), so slots `B[0]` to `B[15]` can be named (R6). -/
abbrev SlotNo := BitVec 4

/-- The field `n` of a command word: 4 bits (R80). -/
abbrev CountField := BitVec 4

end Sys2Proof
end

