-- ==== Sys2Proof/Syntax.lean ====
section
/-!
DEFINITION. The nineteen commands (spec/30_encoding.md R82, spec/opcode_table.json), one constructor a row, in the table's order.
-/

namespace Sys2Proof

/-- A command with the fields of its word that R82 does not fix at 0. `bd` is the primary or destination slot, `ba` the
source slot, `bk` the key slot, `n` the bit count (or `forceRefresh`), `imm` the byte value (R80). -/
inductive Instr where
  | append    (bd : SlotNo) (n : CountField) (imm : Byte)
  | readbits  (bd : SlotNo) (n : CountField)
  | rdbyte    (bd : SlotNo)
  | wrbyte    (bd : SlotNo) (imm : Byte)
  | clear     (bd : SlotNo)
  | copy      (bd ba : SlotNo)
  | load      (bd : SlotNo)
  | save      (bd : SlotNo)
  | stat      (bd : SlotNo)
  | refresh   (bd : SlotNo)
  | markdirty (bd : SlotNo) (n : CountField)
  | freq      (bd : SlotNo) (imm : Byte)
  | prob      (bd : SlotNo) (imm : Byte)
  | info      (bd : SlotNo) (imm : Byte)
  | byteent   (bd : SlotNo)
  | bitent    (bd : SlotNo)
  | build     (bd ba : SlotNo)
  | encode    (bd ba bk : SlotNo)
  | decode    (bd ba bk : SlotNo)
deriving DecidableEq, Repr

end Sys2Proof
end

