-- ==== Sys2Proof/Decode.lean ====
section
/-!
DEFINITION. The decoder of command words (spec/30_encoding.md R80 to R83) and, after it, the encoder (R80, R82, R95).
-/

namespace Sys2Proof

/-! ### The six fields of format F0 (R80) -/

/-- `op`, bits 31:24. -/
def fieldOp (w : Word) : BitVec 8 := w.extractLsb' 24 8

/-- `bd`, bits 23:20. -/
def fieldBd (w : Word) : SlotNo := w.extractLsb' 20 4

/-- `ba`, bits 19:16. -/
def fieldBa (w : Word) : SlotNo := w.extractLsb' 16 4

/-- `bk`, bits 15:12. -/
def fieldBk (w : Word) : SlotNo := w.extractLsb' 12 4

/-- `n`, bits 11:8. -/
def fieldN (w : Word) : CountField := w.extractLsb' 8 4

/-- `imm`, bits 7:0. -/
def fieldImm (w : Word) : Byte := w.extractLsb' 0 8

/-- Why a word is no command (R83); the block answers either with `IllegalCommand` (R249). -/
inductive DecodeError where
  /-- `op` is not in the table of R82. -/
  | reservedOpcode
  /-- A field that R82 marks `0` for this `op` is not zero. -/
  | reservedField
deriving DecidableEq, Repr

/-- `i`, if the fields that R82 marks `0` are zero. -/
def ifZero (reserved : Bool) (i : Instr) : Except DecodeError Instr :=
  if reserved then .ok i else .error .reservedField

/-- The command a word stands for (R82), or why it stands for none (R83). The opcode is tested before the reserved fields
(spec/60_exceptions.md R252). -/
def decode (w : Word) : Except DecodeError Instr :=
  let bd := fieldBd w
  let ba := fieldBa w
  let bk := fieldBk w
  let n := fieldN w
  let imm := fieldImm w
  match (fieldOp w).toNat with
  | 0x01 => ifZero (ba == 0 && bk == 0) (.append bd n imm)
  | 0x02 => ifZero (ba == 0 && bk == 0 && imm == 0) (.readbits bd n)
  | 0x03 => ifZero (ba == 0 && bk == 0 && n == 0 && imm == 0) (.rdbyte bd)
  | 0x04 => ifZero (ba == 0 && bk == 0 && n == 0) (.wrbyte bd imm)
  | 0x05 => ifZero (ba == 0 && bk == 0 && n == 0 && imm == 0) (.clear bd)
  | 0x06 => ifZero (bk == 0 && n == 0 && imm == 0) (.copy bd ba)
  | 0x07 => ifZero (ba == 0 && bk == 0 && n == 0 && imm == 0) (.load bd)
  | 0x08 => ifZero (ba == 0 && bk == 0 && n == 0 && imm == 0) (.save bd)
  | 0x09 => ifZero (ba == 0 && bk == 0 && n == 0 && imm == 0) (.stat bd)
  | 0x10 => ifZero (ba == 0 && bk == 0 && n == 0 && imm == 0) (.refresh bd)
  | 0x11 => ifZero (ba == 0 && bk == 0 && imm == 0) (.markdirty bd n)
  | 0x12 => ifZero (ba == 0 && bk == 0 && n == 0) (.freq bd imm)
  | 0x13 => ifZero (ba == 0 && bk == 0 && n == 0) (.prob bd imm)
  | 0x14 => ifZero (ba == 0 && bk == 0 && n == 0) (.info bd imm)
  | 0x15 => ifZero (ba == 0 && bk == 0 && n == 0 && imm == 0) (.byteent bd)
  | 0x16 => ifZero (ba == 0 && bk == 0 && n == 0 && imm == 0) (.bitent bd)
  | 0x20 => ifZero (bk == 0 && n == 0 && imm == 0) (.build bd ba)
  | 0x21 => ifZero (n == 0 && imm == 0) (.encode bd ba bk)
  | 0x22 => ifZero (n == 0 && imm == 0) (.decode bd ba bk)
  | _    => .error .reservedOpcode

/-- The instruction the decoder reads from the table's word `w` of `nbits` bits. A command is one word, so there is no
layout in memory: the word goes to `CMD` as it is, its bits above `nbits` zero. -/
def decodeTableWord (nbits w : Nat) : Option Instr :=
  match decode (BitVec.ofNat 32 (w % 2 ^ nbits)) with
  | .ok i => some i
  | .error _ => none

/-! ### The encoder -/

/-- The word with the given fields (R80). -/
def packFields (op : BitVec 8) (bd ba bk : SlotNo) (n : CountField) (imm : Byte) : Word :=
  op ++ bd ++ ba ++ bk ++ n ++ imm

/-- The command's word: its opcode and fields, every field that R82 marks `0` zero (R80, R82, R95). -/
def encode : Instr → Word
  | .append bd n imm   => packFields 0x01 bd 0 0 n imm
  | .readbits bd n     => packFields 0x02 bd 0 0 n 0
  | .rdbyte bd         => packFields 0x03 bd 0 0 0 0
  | .wrbyte bd imm     => packFields 0x04 bd 0 0 0 imm
  | .clear bd          => packFields 0x05 bd 0 0 0 0
  | .copy bd ba        => packFields 0x06 bd ba 0 0 0
  | .load bd           => packFields 0x07 bd 0 0 0 0
  | .save bd           => packFields 0x08 bd 0 0 0 0
  | .stat bd           => packFields 0x09 bd 0 0 0 0
  | .refresh bd        => packFields 0x10 bd 0 0 0 0
  | .markdirty bd n    => packFields 0x11 bd 0 0 n 0
  | .freq bd imm       => packFields 0x12 bd 0 0 0 imm
  | .prob bd imm       => packFields 0x13 bd 0 0 0 imm
  | .info bd imm       => packFields 0x14 bd 0 0 0 imm
  | .byteent bd        => packFields 0x15 bd 0 0 0 0
  | .bitent bd         => packFields 0x16 bd 0 0 0 0
  | .build bd ba       => packFields 0x20 bd ba 0 0 0
  | .encode bd ba bk   => packFields 0x21 bd ba bk 0 0
  | .decode bd ba bk   => packFields 0x22 bd ba bk 0 0

end Sys2Proof
end

