-- ==== Sys2Proof/Machine/Arith.lean ====
section
/-!
DEFINITION. The arithmetic helpers of spec/00_scope.md R13 and the bit-field insert of spec/40_bitbuffer.md R120, on naturals and bytes.
-/

namespace Sys2Proof.Machine

/-- `low(v, n)`, the low `n` bits of `v` (R13). -/
def low (v n : Nat) : Nat := v % 2 ^ n

/-- The search of `clog2`: the first of `n, n+1, …` whose power of two reaches `x`, at most `fuel` numbers on. -/
def clog2From (x : Nat) : (fuel n : Nat) → Nat
  | 0, n => n
  | fuel + 1, n => if x ≤ 2 ^ n then n else clog2From x fuel (n + 1)

/-- `clog2(x)`, the least `n` with `2^n ≥ x` (R13). -/
def clog2 (x : Nat) : Nat := clog2From x x 0

/-- `popcount(v)`, the number of 1 bits of a byte (R13). -/
def popcount (v : Byte) : Nat := (List.range 8).countP fun i => v.getLsbD i

/-- `cnt(f)`: a header count field, 0 read as 256 (R13, spec/30_encoding.md R88). -/
def cnt (f : Byte) : Nat := if f = 0 then 256 else f.toNat

/-- Bits `lo + n - 1` down to `lo` of `b` replaced by the low `n` bits of `u`, the other bits as they were (R120). -/
def insertField (b : Byte) (lo n u : Nat) : Byte :=
  BitVec.ofNat 8 (b.toNat / 2 ^ (lo + n) * 2 ^ (lo + n) + low u n * 2 ^ lo + b.toNat % 2 ^ lo)

/-- `f` applied to the last entry of a list; nothing where there is none. -/
def onLast (f : Byte → Byte) (bytes : List Byte) : List Byte :=
  match bytes.getLast? with
  | some b => bytes.dropLast ++ [f b]
  | none => bytes

end Sys2Proof.Machine
end

