-- ==== Sys2Proof/Config.lean ====
section
/-!
DEFINITION. What an implementation of the block fixes (spec/00_scope.md R6 to R8) and the free values.
-/

namespace Sys2Proof

/-- The two numeric parameters (R6, R7): the number of slots `NBUF` and the capacity of one slot in bytes, `CAP`. -/
structure Config where
  nbuf : Nat
  cap  : Nat
deriving DecidableEq, Repr

/-- The range of the parameters: `4 ≤ NBUF ≤ 16` (R6) and `1 ≤ CAP ≤ 2^29 - 1` (R7). -/
abbrev Config.Valid (c : Config) : Prop :=
  4 ≤ c.nbuf ∧ c.nbuf ≤ 16 ∧ 1 ≤ c.cap ∧ c.cap ≤ 2 ^ 29 - 1

/-- The configuration `State.reset` stands for: the largest of each range.
DESIGN CHOICE, unsafe (log entry 2): the spec leaves both open; statements are made for every configuration. -/
def Config.largest : Config := { nbuf := 16, cap := 2 ^ 29 - 1 }

/-- One summand of an exact real: `(weightNum / weightDen) · log2 (argNum / argDen)`. -/
structure LogTerm where
  weightNum : Int
  weightDen : Nat
  argNum    : Nat
  argDen    : Nat
deriving DecidableEq, Repr

/-- An exact real result (R8, R37), written as the finite sum of its terms: the shape of the formulas of R155, R156 and
R157. The empty sum is 0. Two different sums can be one real (log entry 4). -/
structure ExactReal where
  terms : List LogTerm
deriving DecidableEq, Repr

/-- The real number 0. -/
def ExactReal.zero : ExactReal := { terms := [] }

/-- The open parameter `REALFMT` (R8, D18): the bits by which `RESF` shows an exact real to the host. Nothing is known of
it. Log entry 4 (safe: every encoding is allowed). -/
opaque Config.realFmt : ExactReal → List Bool

/-- FREE VALUE. The bytes `LOAD` finds on `DIN` where the host supplied none (R131: "The host must supply `c` bytes").
Nothing is known of them. Log entry 5 (safe). -/
opaque Config.dinFree : Nat → Byte

end Sys2Proof
end

