-- ==== Sys2Proof/Machine/State.lean ====
section
/-!
DEFINITION. The state of the block (spec/10_state.md R20 to R43) as plain data, its reset value, and the reasons a step can
stop. Operations over it stand in Machine/Ops.lean and the files after it.
-/

namespace Sys2Proof.Machine

/-- The byte space of one slot (R22, spec/20_memory.md R50): its addresses are 0 to `len - 1` without a hole, so the byte at
address `a` is the list's entry `a`, and two equal memories are equal lists. An address at or above `len` holds nothing.
Log entry 7. -/
abbrev Memory := List Byte

/-- One buffer slot `B[s]` (R21). Its length `len` is the length of `bytes`. -/
structure Slot where
  /-- `B[s].bytes` (R22). -/
  bytes : Memory
  /-- `B[s].nfb`, the number of occupied bits of the last byte; 0 when it is full or there is none (R23). -/
  nfb : BitVec 3
  /-- `B[s].dirty` (R26). -/
  dirty : Bool
  /-- `B[s].freq[v]` for `v` from 0 to 255, in that order (R27). -/
  freq : List Word
  /-- `B[s].total` (R27). -/
  total : Word
deriving DecidableEq, Repr

/-- A slot "created empty", as reset leaves it (R30, R43). `freq` and `total` are unspecified there; 0 is the model's.
DESIGN CHOICE, unsafe (log entry 3). -/
def Slot.createdEmpty : Slot :=
  { bytes := [], nfb := 0, dirty := true, freq := List.replicate 256 0, total := 0 }

/-- The nine failure kinds (spec/60_exceptions.md R241), in the order of their codes. -/
inductive FailureKind where
  | outOfRange
  | staleStatistics
  | invalidKey
  | unknownCodeword
  | undefinedStatistic
  | unknownSymbol
  | capacityExceeded
  | illegalCommand
  | badOperand
deriving DecidableEq, Repr

/-- A failure as `raise F(info)` names it (R253): its kind and the value for `EINFO`. It ends a command, not the machine. -/
structure Failure where
  kind : FailureKind
  info : Word
deriving DecidableEq, Repr

/-- The nine interface registers, numbers 0 to 8 in this order (R31). -/
inductive Reg where
  | cmd | arg | tfnum | tfden | status | einfo | res | res2 | resf
deriving DecidableEq, Repr

/-- What the host can do to the block, each between two commands (R38, R62, R93, spec/70_reset_and_hazards.md R280).
Log entry 1. -/
inductive HostAction where
  /-- `WR reg, value`; a write of `CMD` is a command. -/
  | write (r : Reg) (v : Word)
  /-- `RD reg`. -/
  | read (r : Reg)
  /-- `DIN b0 b1 ...`: bytes put on the stream `DIN`. -/
  | supply (bytes : List Byte)
  /-- The external reset (R280). -/
  | reset
deriving DecidableEq, Repr

/-- What a read of a register returns: a 32-bit value, or, of `RESF`, the bits `REALFMT` gives (R31, R37). -/
inductive RegValue where
  | word (v : Word)
  | real (bits : List Bool)
deriving DecidableEq, Repr

/-- One register read and what it returned. -/
structure Reply where
  reg   : Reg
  value : RegValue
deriving DecidableEq, Repr

/-- The whole state: the slots and the interface registers (R20), the parameter `CAP`, and the model's own fields for the
host's side (`host`, `din`, `freeCount`, `dout`, `replies`), which are not state of the block. -/
structure State where
  /-- The slots `B[0]` to `B[NBUF-1]`; `NBUF` is the number of them (R6, R21). Log entry 2. -/
  slots : List Slot
  /-- `CAP` (R7). No step changes it. Log entry 2. -/
  cap : Nat
  /-- Register 1 (R32). -/
  arg : Word
  /-- Register 2 (R33). -/
  tfnum : Word
  /-- Register 3 (R33). -/
  tfden : Word
  /-- Register 4, `err` in bits 7:0 (R34). -/
  status : Word
  /-- Register 5 (R35). -/
  einfo : Word
  /-- Register 6 (R36). -/
  res : Word
  /-- Register 7 (R36). -/
  res2 : Word
  /-- Register 8, the exact real (R37). Log entry 4. -/
  resf : ExactReal
  /-- The host's coming actions, the next one first. Log entry 1. -/
  host : List HostAction
  /-- The bytes on `DIN` not yet taken, the next one first (R131). Log entry 5. -/
  din : List Byte
  /-- How many free bytes `LOAD` has taken so far. Log entry 5. -/
  freeCount : Nat
  /-- The bytes sent on `DOUT`, the first one first (R132). Log entry 6. -/
  dout : List Byte
  /-- What the host's reads returned, the first one first. Log entry 6. -/
  replies : List Reply
deriving DecidableEq, Repr

/-- Why the machine stops with a fault: never. Every command ends in success or in a failure that is reported in `STATUS`
and leaves the block ready for the next command (R240: "none is fatal, none is undefined, none stops the block"), so no
meaning raises a fault and the type has no constructor. Safe: nothing is hidden behind one. -/
inductive Fault where
deriving DecidableEq, Repr

/-- Why a step has no meaning. -/
inductive Refusal where
  /-- Raised by an arm of `exec` for a command without a meaning, of which there is none left. Safe: nothing can be proved
  of what such a command does. -/
  | notModelled (mnemonic : String)
deriving DecidableEq, Repr

/-- The outcome of a command or of a step. -/
abbrev Result := Host.Outcome State Fault Refusal

/-- The state after reset of a block with the given parameters (R43, R280). `RESF` is unspecified there; the real 0 is the
model's: DESIGN CHOICE, unsafe (log entry 3). -/
def State.resetFor (c : Config) : State :=
  { slots := List.replicate c.nbuf Slot.createdEmpty
    cap := c.cap
    arg := 0
    tfnum := 4
    tfden := 5
    status := 0
    einfo := 0
    res := 0
    res2 := 0
    resf := ExactReal.zero
    host := []
    din := []
    freeCount := 0
    dout := []
    replies := [] }

/-- The machine right after reset, with the largest configuration (log entry 2) and nothing on the host's side. -/
def State.reset : State := State.resetFor Config.largest

end Sys2Proof.Machine
end

