-- ==== Sys2Proof/Machine/Ops.lean ====
section
/-!
DEFINITION. The named operations every command is written in: reaching a slot, byte and bit access to it
(spec/20_memory.md R50 to R59, spec/40_bitbuffer.md R120 to R123), the end of a command in success or failure
(spec/60_exceptions.md R240 to R253), and the streams (R131, R132).
-/

namespace Sys2Proof.Machine

/-! ### Failures -/

/-- The code of a failure kind (R241). -/
def FailureKind.code : FailureKind → BitVec 8
  | .outOfRange         => 1
  | .staleStatistics    => 2
  | .invalidKey         => 3
  | .unknownCodeword    => 4
  | .undefinedStatistic => 5
  | .unknownSymbol      => 6
  | .capacityExceeded   => 7
  | .illegalCommand     => 8
  | .badOperand         => 9

/-- `OutOfRange(index)` (R242). -/
def outOfRange (index : Nat) : Failure := { kind := .outOfRange, info := BitVec.ofNat 32 index }

/-- `StaleStatistics(slot)` (R243). -/
def staleStatistics (b : SlotNo) : Failure := { kind := .staleStatistics, info := b.setWidth 32 }

/-- `InvalidKey(check)` (R244). -/
def invalidKey (check : Nat) : Failure := { kind := .invalidKey, info := BitVec.ofNat 32 check }

/-- `UnknownCodeword(p)` (R245). -/
def unknownCodeword (p : Nat) : Failure := { kind := .unknownCodeword, info := BitVec.ofNat 32 p }

/-- `UndefinedStatistic(slot)` (R246). -/
def undefinedStatistic (b : SlotNo) : Failure := { kind := .undefinedStatistic, info := b.setWidth 32 }

/-- `UnknownSymbol(i)` (R247). -/
def unknownSymbol (i : Nat) : Failure := { kind := .unknownSymbol, info := BitVec.ofNat 32 i }

/-- `CapacityExceeded(slot)` (R248). -/
def capacityExceeded (b : SlotNo) : Failure := { kind := .capacityExceeded, info := b.setWidth 32 }

/-- `IllegalCommand(word)` (R249). -/
def illegalCommand (w : Word) : Failure := { kind := .illegalCommand, info := w }

/-- `BadOperand(word)` (R250); the word of a decoded command is its encoding. -/
def badOperand (i : Instr) : Failure := { kind := .badOperand, info := encode i }

/-- Failure entry, `raise F(info)` (R253): `STATUS.err` and `EINFO` are written, everything else stands as the command left
it. Nothing is saved and control goes nowhere. -/
def State.raise (s : State) (f : Failure) : State :=
  { s with status := f.kind.code.setWidth 32, einfo := f.info }

/-- The other end of a command (R14, R34, R35): `STATUS.err` is 0, `EINFO` unchanged. No instruction returns from a failure
(R254); the next command's own end overwrites `STATUS.err`. -/
def State.succeed (s : State) : State := { s with status := 0 }

/-- The command ends in failure. -/
def State.fail (s : State) (f : Failure) : Result := .next (s.raise f)

/-- The command ends in success. -/
def State.done (s : State) : Result := .next s.succeed

/-- The command ends, in the failure if there is one. -/
def State.finish (s : State) : Option Failure → Result
  | none => s.done
  | some f => s.fail f

/-- The operand checks of a command (R252 (2)): it goes on where they hold, and fails with `BadOperand` where not. -/
def checked (ok : Bool) (i : Instr) (s : State) (body : Result) : Result :=
  if ok then body else s.fail (badOperand i)

/-! ### Slots -/

/-- `NBUF` (R6). -/
def State.nbuf (s : State) : Nat := s.slots.length

/-- `B[b]`. Every command has tested the slot number before it reads the slot. -/
def State.slot (s : State) (b : SlotNo) : Slot := s.slots.getD b.toNat Slot.createdEmpty

/-- `B[b] <- x`. -/
def State.setSlot (s : State) (b : SlotNo) (x : Slot) : State := { s with slots := s.slots.set b.toNat x }

/-! ### The byte space of a slot (R50, R58) -/

/-- `MemRead`: the byte at an address, none where the address does not exist. -/
def memRead (m : Memory) (a : Nat) : Option Byte := m[a]?

/-- `MemWrite`: an existing byte replaced; an address that does not exist is not made. -/
def memWrite (m : Memory) (a : Nat) (v : Byte) : Memory := m.set a v

/-- The byte of slot `b` at address `a`. -/
def State.readByte (s : State) (b : SlotNo) (a : Nat) : Option Byte := memRead (s.slot b).bytes a

/-- A memory as pairs of address and byte. -/
def Memory.cells (m : Memory) : List Host.Cell := m.zipIdx.map fun p => (p.2, p.1)

/-- The form of a slot's memory (R21): at most `cap` bytes. -/
def Memory.wf (cap : Nat) (m : Memory) : Bool := decide (m.length ≤ cap)

/-! ### The bit space of a slot -/

/-- `B[s].len` (R21). -/
def Slot.len (x : Slot) : Nat := x.bytes.length

/-- `bitLen(s)` (R24). -/
def Slot.bitLen (x : Slot) : Nat :=
  if x.nfb = 0 then 8 * x.len else 8 * (x.len - 1) + x.nfb.toNat

/-- The stream bit `i` (R11): bit `7 - (i mod 8)` of byte `i div 8`. -/
def Slot.bitAt (x : Slot) (i : Nat) : Bool := (x.bytes.getD (i / 8) 0).getLsbD (7 - i % 8)

/-- The `n` stream bits from `f` on as a number, the first the most significant (R53): the loop of R121. -/
def Slot.fieldAt (x : Slot) (f : Nat) : (n : Nat) → Nat
  | 0 => 0
  | n + 1 => 2 * x.fieldAt f n + (x.bitAt (f + n)).toNat

/-- `ReadBits(s, f, n)` (R121). -/
def Slot.readBits (x : Slot) (f n : Nat) : Except Failure Nat :=
  if f + n > x.bitLen then .error (outOfRange f) else .ok (x.fieldAt f n)

/-- `ReadWide(s, f, w)` (R123). -/
def Slot.readWide (x : Slot) (f w : Nat) : Except Failure Nat :=
  if f + w > x.bitLen then .error (outOfRange f)
  else if w > 8 then do
    let high ← x.readBits f (w - 8)
    let rest ← x.readBits (f + w - 8) 8
    return high * 256 + rest
  else x.readBits f w

/-- How an append ends: `done x`, or `full x` where it would pass `CAP` (R248), `x` the slot as it stands then. -/
inductive Appended where
  | done (x : Slot)
  | full (x : Slot)
deriving DecidableEq, Repr

/-- `AppendBits(s, v, n)` (R120). A failing append changes nothing. -/
def Slot.appendBits (cap : Nat) (x : Slot) (v n : Nat) : Appended :=
  let nfb := x.nfb.toNat
  let need := if nfb = 0 ∨ n > 8 - nfb then 1 else 0
  if x.len + need > cap then .full x
  else
    let u := low v n
    let bytes := if nfb = 0 then x.bytes ++ [0] else x.bytes
    let room := 8 - nfb
    if n ≤ room then
      .done { x with
        bytes := onLast (fun b => insertField b (room - n) n u) bytes
        nfb := BitVec.ofNat 3 ((nfb + n) % 8)
        dirty := true }
    else
      .done { x with
        bytes := onLast (fun b => insertField b 0 room (u / 2 ^ (n - room))) bytes
          ++ [insertField 0 (8 - (n - room)) (n - room) (low u (n - room))]
        nfb := BitVec.ofNat 3 (n - room)
        dirty := true }

/-- `AppendWide(s, v, w)` (R122): where the second piece does not fit, the first stays. -/
def Slot.appendWide (cap : Nat) (x : Slot) (v w : Nat) : Appended :=
  if w = 0 then .done x
  else if w > 8 then
    match x.appendBits cap (low v w / 256) (w - 8) with
    | .done y => y.appendBits cap (low v 8) 8
    | .full y => .full y
  else x.appendBits cap v w

/-- The fields (value, width) appended one after the other, up to the first that does not fit (R248). -/
def Slot.appendFields (cap : Nat) (x : Slot) : List (Nat × Nat) → Appended
  | [] => .done x
  | (v, w) :: rest =>
    match x.appendWide cap v w with
    | .done y => y.appendFields cap rest
    | .full y => .full y

/-! ### The streams -/

/-- Byte `k` of `DIN` from here on: what the host supplied, and a free value beyond it (R131; log entry 5). -/
def State.dinByte (s : State) (k : Nat) : Byte :=
  match s.din[k]? with
  | some b => b
  | none => Config.dinFree (s.freeCount + (k - s.din.length))

/-- The next `c` bytes of `DIN` (R131). -/
def State.dinBytes (s : State) (c : Nat) : List Byte := (List.range c).map s.dinByte

/-- `c` bytes are taken from `DIN`. -/
def State.dropDin (s : State) (c : Nat) : State :=
  { s with din := s.din.drop c, freeCount := s.freeCount + (c - s.din.length) }

/-- Bytes are sent on `DOUT` (R132). -/
def State.emit (s : State) (bytes : List Byte) : State := { s with dout := s.dout ++ bytes }

end Sys2Proof.Machine
end

