-- ==== Sys2Proof/Machine/Flags.lean ====
section
/-!
DEFINITION. The only flag, `dirty` (spec/10_state.md R26): what sets it, what clears it, what tests it, and how `STAT` shows it.
-/

namespace Sys2Proof.Machine

/-- The flag set, as `MARKDIRTY` does first (spec/41_statistics.md R152). -/
def Slot.markDirty (x : Slot) : Slot := { x with dirty := true }

/-- A slot emptied, cursor 0, dirty: `CLEAR` and the clearing of a destination (R129, R170, R202, R203). `freq` and `total`
are not written; they cannot be observed while the flag is set (log entry 8). -/
def Slot.cleared (x : Slot) : Slot := { x with bytes := [], nfb := 0, dirty := true }

/-- `B[s].freq[v]` for all 256 `v`, counted over the full byte sequence (spec/41_statistics.md R150). -/
def countAll (bytes : List Byte) : List Word :=
  (List.range 256).map fun v => BitVec.ofNat 32 (bytes.count (BitVec.ofNat 8 v))

/-- `Refresh(s)` (R150): the only way the flag is cleared. -/
def Slot.refresh (x : Slot) : Slot :=
  { x with freq := countAll x.bytes, total := BitVec.ofNat 32 x.len, dirty := false }

/-- The command goes on if the statistics of slot `b` are fresh (spec/41_statistics.md R159). -/
def ifFresh (b : SlotNo) (s : State) (body : Result) : Result :=
  if (s.slot b).dirty then s.fail (staleStatistics b) else body

/-- The command goes on if the statistic it needs of slot `b` is defined (R159, R246). -/
def ifDefined (defined : Bool) (b : SlotNo) (s : State) (body : Result) : Result :=
  if defined then body else s.fail (undefinedStatistic b)

/-- `dirty ‖ nfb`, zero-extended: bit 3 the flag, bits 2:0 the cursor (spec/40_bitbuffer.md R133). -/
def Slot.flagWord (x : Slot) : Word := (BitVec.ofBool x.dirty ++ x.nfb).setWidth 32

end Sys2Proof.Machine
end

