-- ==== Sys2Proof/Machine/Operands.lean ====
section
/-!
DEFINITION. The operand forms of the commands and their domains (spec/30_encoding.md R81 to R84, spec/60_exceptions.md R250, R252),
and the operands that come from registers.
-/

namespace Sys2Proof.Machine

/-- A slot number of a used field is below `NBUF`. -/
def State.hasSlot (s : State) (b : SlotNo) : Bool := decide (b.toNat < s.nbuf)

/-- `APPEND`: a slot, and 1 to 8 bits. -/
def appendOperands (s : State) (bd : SlotNo) (n : CountField) : Bool :=
  s.hasSlot bd && decide (1 ≤ n.toNat ∧ n.toNat ≤ 8)

/-- `READBITS`: a slot, and 0 to 8 bits. -/
def readOperands (s : State) (bd : SlotNo) (n : CountField) : Bool :=
  s.hasSlot bd && decide (n.toNat ≤ 8)

/-- `MARKDIRTY`: a slot, and `forceRefresh` 0 or 1. -/
def markOperands (s : State) (bd : SlotNo) (n : CountField) : Bool :=
  s.hasSlot bd && decide (n.toNat ≤ 1)

/-- `COPY`: two different slots (R67). -/
def copyOperands (s : State) (bd ba : SlotNo) : Bool :=
  s.hasSlot bd && s.hasSlot ba && decide (bd ≠ ba)

/-- The target fraction `TFNUM / TFDEN` lies in (0,1) (R33). -/
def State.targetInRange (s : State) : Bool := decide (0 < s.tfnum.toNat ∧ s.tfnum.toNat < s.tfden.toNat)

/-- `BUILD`: two different slots and a target fraction in (0,1) (R170). -/
def buildOperands (s : State) (bd ba : SlotNo) : Bool :=
  s.hasSlot bd && s.hasSlot ba && decide (bd ≠ ba) && s.targetInRange

/-- `ENCODE`, `DECODE`: three slots, the destination neither of the sources; `ba = bk` is allowed (R67). -/
def codecOperands (s : State) (bd ba bk : SlotNo) : Bool :=
  s.hasSlot bd && s.hasSlot ba && s.hasSlot bk && decide (bd ≠ ba) && decide (bd ≠ bk)

/-- `ARG` as an index or a count, unsigned and unscaled (R84 (c)). -/
def State.argNat (s : State) : Nat := s.arg.toNat

end Sys2Proof.Machine
end

