-- ==== Sys2Proof/Machine/BitBuffer.lean ====
section
/-!
DEFINITION. The BitBuffer commands (spec/40_bitbuffer.md R125 to R133).
-/

namespace Sys2Proof.Machine

/-- `APPEND Bd, #value, n` (R125). -/
def execAppend (bd : SlotNo) (n : CountField) (imm : Byte) (s : State) : Result :=
  checked (appendOperands s bd n) (.append bd n imm) s <|
    match (s.slot bd).appendBits s.cap imm.toNat n.toNat with
    | .done x => (s.setSlot bd x).done
    | .full _ => s.fail (capacityExceeded bd)

/-- `READBITS Bd, n` (R126); `ARG + n` is computed without wrap-around. -/
def execReadbits (bd : SlotNo) (n : CountField) (s : State) : Result :=
  checked (readOperands s bd n) (.readbits bd n) s <|
    match (s.slot bd).readBits s.argNat n.toNat with
    | .ok r => ({ s with res := BitVec.ofNat 32 r } : State).done
    | .error f => s.fail f

/-- `RDBYTE Bd` (R127). -/
def execRdbyte (bd : SlotNo) (s : State) : Result :=
  checked (s.hasSlot bd) (.rdbyte bd) s <|
    match memRead (s.slot bd).bytes s.argNat with
    | some v => ({ s with res := v.setWidth 32 } : State).done
    | none => s.fail (outOfRange s.argNat)

/-- `WRBYTE Bd, #value` (R128): the flag, the statistics, the length and the cursor stay. -/
def execWrbyte (bd : SlotNo) (imm : Byte) (s : State) : Result :=
  checked (s.hasSlot bd) (.wrbyte bd imm) s <|
    if s.argNat ≥ (s.slot bd).len then s.fail (outOfRange s.argNat)
    else (s.setSlot bd { s.slot bd with bytes := memWrite (s.slot bd).bytes s.argNat imm }).done

/-- `CLEAR Bd` (R129). -/
def execClear (bd : SlotNo) (s : State) : Result :=
  checked (s.hasSlot bd) (.clear bd) s <| (s.setSlot bd (s.slot bd).cleared).done

/-- `COPY Bd, Ba` (R130): bytes and cursor, dirty; the statistics are not copied. -/
def execCopy (bd ba : SlotNo) (s : State) : Result :=
  checked (copyOperands s bd ba) (.copy bd ba) s <|
    (s.setSlot bd { s.slot bd with bytes := (s.slot ba).bytes, nfb := (s.slot ba).nfb, dirty := true }).done

/-- `LOAD Bd` (R131): `ARG` bytes of `DIN`. -/
def execLoad (bd : SlotNo) (s : State) : Result :=
  checked (s.hasSlot bd) (.load bd) s <|
    if s.argNat > s.cap then s.fail (capacityExceeded bd)
    else ((s.setSlot bd { s.slot bd with bytes := s.dinBytes s.argNat, nfb := 0, dirty := true }).dropDin s.argNat).done

/-- `SAVE Bd` (R132): all bytes go to `DOUT`, the cursor does not. -/
def execSave (bd : SlotNo) (s : State) : Result :=
  checked (s.hasSlot bd) (.save bd) s <| (s.emit (s.slot bd).bytes).done

/-- `STAT Bd` (R133). -/
def execStat (bd : SlotNo) (s : State) : Result :=
  checked (s.hasSlot bd) (.stat bd) s <|
    ({ s with res := BitVec.ofNat 32 (s.slot bd).len, res2 := (s.slot bd).flagWord } : State).done

end Sys2Proof.Machine
end

