-- ==== Sys2Proof/Machine/Statistics.lean ====
section
/-!
DEFINITION. The statistics commands (spec/41_statistics.md R150 to R159) and the exact reals of R155, R156 and R157.
-/

namespace Sys2Proof.Machine

/-- `B[s].freq[v]` as a number. -/
def Slot.freqOf (x : Slot) (v : Byte) : Nat := (x.freq.getD v.toNat 0).toNat

/-- The 256 byte values in rising order. -/
def allBytes : List Byte := (List.range 256).map (BitVec.ofNat 8)

/-- The term `q · log2 q` of the rational `q = num / den`, negated: what both entropies sum. -/
def entropyTerm (num den : Nat) : LogTerm :=
  { weightNum := -(num : Int), weightDen := den, argNum := num, argDen := den }

/-- `log2 total - log2 freq` (R155). -/
def informationContent (freq total : Nat) : ExactReal :=
  { terms :=
      [{ weightNum := 1, weightDen := 1, argNum := total, argDen := 1 },
       { weightNum := -1, weightDen := 1, argNum := freq, argDen := 1 }] }

/-- `- Σ (freq[v]/total) · log2 (freq[v]/total)` over the `v` with `freq[v] > 0` (R156). -/
def byteEntropy (x : Slot) : ExactReal :=
  { terms := (allBytes.filter fun v => decide (0 < x.freqOf v)).map fun v => entropyTerm (x.freqOf v) x.total.toNat }

/-- `Σ freq[v] · popcount(v)`, the set bits of all counted bytes (R157). -/
def Slot.ones (x : Slot) : Nat := (allBytes.map fun v => x.freqOf v * popcount v).sum

/-- `-q · log2 q - (1-q) · log2 (1-q)` with `q = ones / bits`, and 0 where `q` is 0 or 1 (R157). -/
def binaryEntropy (ones bits : Nat) : ExactReal :=
  if ones = 0 ∨ ones = bits then ExactReal.zero
  else { terms := [entropyTerm ones bits, entropyTerm (bits - ones) bits] }

/-- `REFRESH Bd` (R151). -/
def execRefresh (bd : SlotNo) (s : State) : Result :=
  checked (s.hasSlot bd) (.refresh bd) s <| (s.setSlot bd (s.slot bd).refresh).done

/-- `MARKDIRTY Bd, f` (R152): mark, and recompute at once where `f = 1`. -/
def execMarkdirty (bd : SlotNo) (n : CountField) (s : State) : Result :=
  checked (markOperands s bd n) (.markdirty bd n) s <|
    (s.setSlot bd (if n = 1 then (s.slot bd).markDirty.refresh else (s.slot bd).markDirty)).done

/-- `FREQ Bd, #v` (R153). -/
def execFreq (bd : SlotNo) (imm : Byte) (s : State) : Result :=
  checked (s.hasSlot bd) (.freq bd imm) s <|
    ifFresh bd s <|
      ({ s with res := BitVec.ofNat 32 ((s.slot bd).freqOf imm) } : State).done

/-- `PROB Bd, #v` (R154): numerator and denominator of the exact rational. -/
def execProb (bd : SlotNo) (imm : Byte) (s : State) : Result :=
  checked (s.hasSlot bd) (.prob bd imm) s <|
    ifFresh bd s <|
      ifDefined ((s.slot bd).total != 0) bd s <|
        ({ s with res := BitVec.ofNat 32 ((s.slot bd).freqOf imm), res2 := (s.slot bd).total } : State).done

/-- `INFO Bd, #v` (R155). -/
def execInfo (bd : SlotNo) (imm : Byte) (s : State) : Result :=
  checked (s.hasSlot bd) (.info bd imm) s <|
    ifFresh bd s <|
      ifDefined ((s.slot bd).total != 0 && (s.slot bd).freqOf imm != 0) bd s <|
        ({ s with resf := informationContent ((s.slot bd).freqOf imm) (s.slot bd).total.toNat } : State).done

/-- `BYTEENT Bd` (R156). -/
def execByteent (bd : SlotNo) (s : State) : Result :=
  checked (s.hasSlot bd) (.byteent bd) s <|
    ifFresh bd s <|
      ifDefined ((s.slot bd).total != 0) bd s <|
        ({ s with resf := byteEntropy (s.slot bd) } : State).done

/-- `BITENT Bd` (R157): total bits are `8 · total`. -/
def execBitent (bd : SlotNo) (s : State) : Result :=
  checked (s.hasSlot bd) (.bitent bd) s <|
    ifFresh bd s <|
      ifDefined ((s.slot bd).total != 0) bd s <|
        ({ s with resf := binaryEntropy (s.slot bd).ones (8 * (s.slot bd).total.toNat) } : State).done

end Sys2Proof.Machine
end

