-- ==== Sys2Proof/Machine/Builder.lean ====
section
/-!
DEFINITION. The command BUILD: the eight steps of the CodebookBuilder (spec/42_codebook_builder.md R170 to R179).
-/

namespace Sys2Proof.Machine

/-- A byte value with its frequency, an entry of the ordering (R171). -/
structure Symbol where
  value : Byte
  freq  : Nat
deriving DecidableEq, Repr

/-- What steps 1 to 7 find (R179). -/
structure Assignment where
  /-- The ordering (R171). -/
  ord : List Symbol
  /-- `M`, the number of byte values covered. -/
  m : Nat
  /-- `K`, the number of short entries. -/
  k : Nat
  /-- `bitsShort`. -/
  bs : Nat
  /-- `bitsLong`, 0 where there is no long tier. -/
  bl : Nat
deriving DecidableEq, Repr

/-- `a` stands before `b` in the ordering: higher frequency, or the same and the lower byte value (R171). -/
def Symbol.before (a b : Symbol) : Bool :=
  decide (a.freq > b.freq ∨ (a.freq = b.freq ∧ a.value.toNat < b.value.toNat))

/-- `a` put in front of the first entry it stands before. -/
def insertSymbol (a : Symbol) : List Symbol → List Symbol
  | [] => [a]
  | b :: rest => if a.before b then a :: b :: rest else b :: insertSymbol a rest

/-- The symbols in the order of R171. -/
def sortSymbols : List Symbol → List Symbol
  | [] => []
  | a :: rest => insertSymbol a (sortSymbols rest)

/-- Step 1 (R171): the byte values with nonzero frequency, ordered. -/
def ordering (x : Slot) : List Symbol :=
  sortSymbols <| (allBytes.map fun v => { value := v, freq := x.freqOf v : Symbol }).filter fun a => decide (0 < a.freq)

/-- Step 2 (R172): how many entries are walked until the cumulative count reaches the target, `cum · TFDEN ≥ TFNUM · total`.
`cum` is what has been accumulated so far. -/
def walk (tfnum tfden total : Nat) : (cum : Nat) → List Symbol → Nat
  | _, [] => 0
  | cum, a :: rest =>
    if (cum + a.freq) * tfden ≥ tfnum * total then 1 else walk tfnum tfden total (cum + a.freq) rest + 1

/-- Step 3 (R173): `bitsShort`. -/
def shortWidth (k2 : Nat) : Nat := max 2 (clog2 (k2 + 1))

/-- Steps 4 and 5 (R174, R175): the short tier padded, and one left-over value folded in. -/
def shortCount (m bs : Nat) : Nat :=
  let k4 := min m (2 ^ bs - 1)
  if m - k4 = 1 then m else k4

/-- Step 6 (R176): `bitsLong` for `r` long entries. -/
def longWidth (bs r : Nat) : Nat := if r > 0 then bs + clog2 r else 0

/-- `Assign` (R179), steps 1 to 7, from the statistics of a slot and the target fraction. -/
def assign (x : Slot) (tfnum tfden : Nat) : Assignment :=
  let ord := ordering x
  let m := ord.length
  let bs := shortWidth (walk tfnum tfden x.total.toNat 0 ord)
  let k := shortCount m bs
  { ord := ord, m := m, k := k, bs := bs, bl := longWidth bs (m - k) }

/-- The fields of the short entries: byte value, then codeword, counted from `i` (R86, R178). -/
def shortEntryFields (bs : Nat) : (i : Nat) → List Symbol → List (Nat × Nat)
  | _, [] => []
  | i, a :: rest => (a.value.toNat, 8) :: (i, bs) :: shortEntryFields bs (i + 1) rest

/-- The fields of the long entries: byte value, escape pattern, then index, counted from `j` (R86, R178). -/
def longEntryFields (bs bl : Nat) : (j : Nat) → List Symbol → List (Nat × Nat)
  | _, [] => []
  | j, a :: rest => (a.value.toNat, 8) :: (2 ^ bs - 1, bs) :: (j, bl - bs) :: longEntryFields bs bl (j + 1) rest

/-- The fields of a key, header first (R85, R86, R88). -/
def Assignment.keyFields (a : Assignment) : List (Nat × Nat) :=
  [(low a.m 8, 8), (low a.k 8, 8), (a.bs, 8), (a.bl, 8)]
    ++ shortEntryFields a.bs 0 (a.ord.take a.k)
    ++ longEntryFields a.bs a.bl 0 (a.ord.drop a.k)

/-- Step 8, `Serialize` (R178). -/
def serialize (cap : Nat) (x : Slot) (a : Assignment) : Appended := x.appendFields cap a.keyFields

/-- `BUILD Bd, Ba` (R170). -/
def execBuild (bd ba : SlotNo) (s : State) : Result :=
  checked (buildOperands s bd ba) (.build bd ba) s <|
    ifFresh ba s <|
      ifDefined ((s.slot ba).total != 0) ba s <|
        match serialize s.cap (s.slot bd).cleared (assign (s.slot ba) s.tfnum.toNat s.tfden.toNat) with
        | .done x => (s.setSlot bd x).done
        | .full x => (s.setSlot bd x).fail (capacityExceeded bd)

end Sys2Proof.Machine
end

