-- ==== Sys2Proof/Machine/Codec.lean ====
section
/-!
DEFINITION. The codec: the key parser, ENCODE and DECODE (spec/43_codec.md R200 to R205).
-/

namespace Sys2Proof.Machine

/-- A codebook entry: byte value, codeword, codeword bit-length (spec/10_state.md R41). -/
structure CodeEntry where
  value  : Byte
  code   : Nat
  length : Nat
deriving DecidableEq, Repr

/-- The four header values of a key (spec/30_encoding.md R85). -/
structure KeyHeader where
  m  : Nat
  k  : Nat
  bs : Nat
  bl : Nat
deriving DecidableEq, Repr

/-- A parsed codebook: the header and the entries in the key's order. Both maps of R201 are look-ups in the entries, in
which no byte value and no (codeword, length) pair stands twice. -/
structure Codebook where
  header  : KeyHeader
  entries : List CodeEntry
deriving DecidableEq, Repr

/-- The escape pattern `2^bs - 1` (R41). -/
def KeyHeader.esc (h : KeyHeader) : Nat := 2 ^ h.bs - 1

/-- Where the entries of a key end (spec/30_encoding.md R87). -/
def KeyHeader.keyBits (h : KeyHeader) : Nat := 32 + h.k * (8 + h.bs) + (h.m - h.k) * (8 + h.bl)

/-- `ENC[v]` (R201). -/
def Codebook.enc (c : Codebook) (v : Byte) : Option CodeEntry := c.entries.find? fun e => e.value == v

/-- `DEC(code, length)` (R201). -/
def Codebook.dec (c : Codebook) (code length : Nat) : Option Byte :=
  (c.entries.find? fun e => e.code == code && e.length == length).map (·.value)

/-- Header byte `a` of a key slot that has at least four bytes. -/
def Slot.headerByte (x : Slot) (a : Nat) : Byte := (memRead x.bytes a).getD 0

/-- The header fields of a key slot (R200). -/
def Slot.keyHeader (x : Slot) : KeyHeader :=
  { m := cnt (x.headerByte 0), k := cnt (x.headerByte 1)
    bs := (x.headerByte 2).toNat, bl := (x.headerByte 3).toNat }

/-- `ParseKey`, part 1 (R200): checks 1 to 6. -/
def parseHeader (x : Slot) : Except Failure KeyHeader :=
  let h := x.keyHeader
  if x.len < 4 then .error (invalidKey 1)
  else if h.bs = 0 ∨ h.bs > 16 then .error (invalidKey 2)
  else if h.bl ≠ 0 ∧ (h.bl ≤ h.bs ∨ h.bl > 16) then .error (invalidKey 3)
  else if h.k > h.m then .error (invalidKey 4)
  else if h.m > h.k ∧ h.bl = 0 then .error (invalidKey 5)
  else if h.keyBits > x.bitLen then .error (invalidKey 6)
  else .ok h

/-- Entry `e` of a key, at bit `q` (R201): short where `e < K`, long otherwise; checks 7 and 8. -/
def parseEntry (x : Slot) (h : KeyHeader) (e q : Nat) : Except Failure CodeEntry := do
  let v ← x.readBits q 8
  if e < h.k then
    let c ← x.readWide (q + 8) h.bs
    if c = h.esc ∧ h.bl ≠ 0 then .error (invalidKey 7)
    else return { value := BitVec.ofNat 8 v, code := c, length := h.bs }
  else
    let c ← x.readWide (q + 8) h.bl
    if c / 2 ^ (h.bl - h.bs) ≠ h.esc then .error (invalidKey 8)
    else return { value := BitVec.ofNat 8 v, code := c, length := h.bl }

/-- Two entries that cannot stand in one codebook: one byte value, or one (codeword, length) pair (R201, check 9). -/
def CodeEntry.clash (a b : CodeEntry) : Bool :=
  a.value == b.value || (a.code == b.code && a.length == b.length)

/-- `ParseKey`, part 2 (R201): `count` entries from entry `e` at bit `q` on, after the entries `found`. -/
def parseEntries (x : Slot) (h : KeyHeader) :
    (count e q : Nat) → (found : List CodeEntry) → Except Failure (List CodeEntry)
  | 0, _, _, found => .ok found
  | count + 1, e, q, found =>
    match parseEntry x h e q with
    | .error f => .error f
    | .ok a =>
      if found.any a.clash then .error (invalidKey 9)
      else parseEntries x h count (e + 1) (q + 8 + a.length) (found ++ [a])

/-- `ParseKey(k)` (R200, R201). -/
def parseKey (x : Slot) : Except Failure Codebook :=
  match parseHeader x with
  | .error f => .error f
  | .ok h =>
    match parseEntries x h h.m 0 32 [] with
    | .error f => .error f
    | .ok entries => .ok { header := h, entries := entries }

/-- The loop of `ENCODE` (R202) from input byte `i` on, into the destination `x` of number `bd`: the destination as it stands
at the end, and the failure that ended the loop, if one did. -/
def encodeLoop (cap : Nat) (book : Codebook) (bd : SlotNo) :
    (i : Nat) → (input : List Byte) → (x : Slot) → Slot × Option Failure
  | _, [], x => (x, none)
  | i, v :: rest, x =>
    match book.enc v with
    | none => (x, some (unknownSymbol i))
    | some e =>
      match x.appendWide cap e.code e.length with
      | .full y => (y, some (capacityExceeded bd))
      | .done y => encodeLoop cap book bd (i + 1) rest y

/-- The codeword at bit `p` of the input (R203, R205): its value and its length. -/
def nextCodeword (h : KeyHeader) (input : Slot) (p : Nat) : Except Failure (Nat × Nat) := do
  let c ← input.readWide p h.bs
  if c = h.esc ∧ h.bl ≠ 0 then
    if p + h.bl > input.bitLen then .error (outOfRange p)
    else
      let index ← input.readWide (p + h.bs) (h.bl - h.bs)
      return (c * 2 ^ (h.bl - h.bs) + index, h.bl)
  else return (c, h.bs)

/-- The loop of `DECODE` (R203, R204) from bit `p` on, at most `fuel` turns. Every turn moves `p` by at least one bit, so
`bitLen` turns are enough. -/
def decodeLoop (cap : Nat) (book : Codebook) (bd : SlotNo) (input : Slot) :
    (fuel p : Nat) → (x : Slot) → Slot × Option Failure
  | 0, _, x => (x, none)
  | fuel + 1, p, x =>
    if p + book.header.bs ≤ input.bitLen then
      match nextCodeword book.header input p with
      | .error f => (x, some f)
      | .ok (c, l) =>
        match book.dec c l with
        | none => (x, some (unknownCodeword p))
        | some v =>
          match x.appendBits cap v.toNat 8 with
          | .full y => (y, some (capacityExceeded bd))
          | .done y => decodeLoop cap book bd input fuel (p + l) y
    else (x, none)

/-- `ENCODE Bd, Ba, Bk` (R202): on success the destination is refreshed. -/
def execEncode (bd ba bk : SlotNo) (s : State) : Result :=
  checked (codecOperands s bd ba bk) (.encode bd ba bk) s <|
    match parseKey (s.slot bk) with
    | .error f => s.fail f
    | .ok book =>
      match encodeLoop s.cap book bd 0 (s.slot ba).bytes (s.slot bd).cleared with
      | (x, none) => (s.setSlot bd x.refresh).done
      | (x, some f) => (s.setSlot bd x).fail f

/-- `DECODE Bd, Ba, Bk` (R203): the destination ends dirty, success or not. -/
def execDecode (bd ba bk : SlotNo) (s : State) : Result :=
  checked (codecOperands s bd ba bk) (.decode bd ba bk) s <|
    match parseKey (s.slot bk) with
    | .error f => s.fail f
    | .ok book =>
      match decodeLoop s.cap book bd (s.slot ba) (s.slot ba).bitLen 0 (s.slot bd).cleared with
      | (x, none) => (s.setSlot bd x).done
      | (x, some f) => (s.setSlot bd x).fail f

end Sys2Proof.Machine
end

