-- ==== Sys2Proof/Machine/Dispatch.lean ====
section
/-!
DEFINITION. One arm per command: each calls its meaning.
-/

namespace Sys2Proof.Machine

def exec (i : Instr) (s : State) : Host.Outcome State Fault Refusal :=
  match i with
  -- spec/40_bitbuffer.md
  | .append bd n imm => Sys2Proof.Machine.execAppend bd n imm s
  | .readbits bd n => Sys2Proof.Machine.execReadbits bd n s
  | .rdbyte bd => Sys2Proof.Machine.execRdbyte bd s
  | .wrbyte bd imm => Sys2Proof.Machine.execWrbyte bd imm s
  | .clear bd => Sys2Proof.Machine.execClear bd s
  | .copy bd ba => Sys2Proof.Machine.execCopy bd ba s
  | .load bd => Sys2Proof.Machine.execLoad bd s
  | .save bd => Sys2Proof.Machine.execSave bd s
  | .stat bd => Sys2Proof.Machine.execStat bd s
  -- spec/41_statistics.md
  | .refresh bd => Sys2Proof.Machine.execRefresh bd s
  | .markdirty bd n => Sys2Proof.Machine.execMarkdirty bd n s
  | .freq bd imm => Sys2Proof.Machine.execFreq bd imm s
  | .prob bd imm => Sys2Proof.Machine.execProb bd imm s
  | .info bd imm => Sys2Proof.Machine.execInfo bd imm s
  | .byteent bd => Sys2Proof.Machine.execByteent bd s
  | .bitent bd => Sys2Proof.Machine.execBitent bd s
  -- spec/42_codebook_builder.md
  | .build bd ba => Sys2Proof.Machine.execBuild bd ba s
  -- spec/43_codec.md
  | .encode bd ba bk => Sys2Proof.Machine.execEncode bd ba bk s
  | .decode bd ba bk => Sys2Proof.Machine.execDecode bd ba bk s

end Sys2Proof.Machine
end

