-- ==== Sys2Proof/Machine/Port.lean ====
section
/-!
DEFINITION. The host's side of the block: the command port and the other interface registers (spec/10_state.md R31 to R38), the
stream `DIN`, reset (spec/70_reset_and_hazards.md R280), and the taking of the host's next action.
-/

namespace Sys2Proof.Machine

/-- A write of `w` to `CMD` (R38): decode and run to completion, or fail with `IllegalCommand` (spec/30_encoding.md R83). -/
def runCommand (w : Word) (s : State) : Result :=
  match decode w with
  | .ok i => exec i s
  | .error _ => s.fail (illegalCommand w)

/-- A write of an interface register other than `CMD` (R31): the read-only ones ignore it. -/
def State.writeReg (s : State) (r : Reg) (v : Word) : State :=
  match r with
  | .arg    => { s with arg := v }
  | .tfnum  => { s with tfnum := v }
  | .tfden  => { s with tfden := v }
  | .cmd    => s
  | .status => s
  | .einfo  => s
  | .res    => s
  | .res2   => s
  | .resf   => s

/-- What a read of an interface register returns (R31); `CMD` reads as 0, `RESF` as `REALFMT` encodes it. -/
def State.readReg (s : State) (r : Reg) : RegValue :=
  match r with
  | .cmd    => .word 0
  | .arg    => .word s.arg
  | .tfnum  => .word s.tfnum
  | .tfden  => .word s.tfden
  | .status => .word s.status
  | .einfo  => .word s.einfo
  | .res    => .word s.res
  | .res2   => .word s.res2
  | .resf   => .real (Config.realFmt s.resf)

/-- The external reset (R280): the block as R43 says, its parameters kept; the host's side is not the block's (log entry 9). -/
def State.applyReset (s : State) : State :=
  { State.resetFor { nbuf := s.nbuf, cap := s.cap } with
    host := s.host, din := s.din, freeCount := s.freeCount, dout := s.dout, replies := s.replies }

/-- One host action done to the block. -/
def performAction (a : HostAction) (s : State) : Result :=
  match a with
  | .write .cmd w => runCommand w s
  | .write r v    => .next (s.writeReg r v)
  | .read r       => .next { s with replies := s.replies ++ [{ reg := r, value := s.readReg r }] }
  | .supply bytes => .next { s with din := s.din ++ bytes }
  | .reset        => .next s.applyReset

/-- The host's next action is taken and done; while the host does nothing the block waits (log entry 1). -/
def takeAction (s : State) : Result :=
  match s.host with
  | [] => .next s
  | a :: rest => performAction a { s with host := rest }

/-- `s` with a write of `w` to `CMD` as the host's next action. -/
def State.offerCommand (s : State) (w : Word) : State := { s with host := .write .cmd w :: s.host }

end Sys2Proof.Machine
end

