-- ==== Sys2Proof/Machine/Step.lean ====
section
/-!
DEFINITION. One step of the machine: the host's next action (log entry 1).
-/

namespace Sys2Proof.Machine

/-- One step: one command, or one other action of the host, to completion (spec/10_state.md R38, spec/20_memory.md R62). -/
def step (s : State) : Host.Outcome State Fault Refusal := takeAction s

/-- `s` with the table's word `w` of `nbits` bits where `step` takes its next instruction: written to `CMD` by the host's next
action. -/
def State.withFetchWord (s : State) (nbits w : Nat) : State := s.offerCommand (BitVec.ofNat 32 (w % 2 ^ nbits))

end Sys2Proof.Machine
end

