-- ==== Sys2Proof/WellFormed.lean ====
section
/-!
DEFINITION. Which commands have all the fields of their word inside their domain (spec/30_encoding.md R82, R83;
spec/60_exceptions.md R250). A command that is not well formed is legal: it runs, and fails with `BadOperand`. The target
fraction of `BUILD` stands in registers and is no part of this.
-/

namespace Sys2Proof

/-- A slot number is below `NBUF` (R82). -/
def slotInRange (nbuf : Nat) (b : SlotNo) : Bool := decide (b.toNat < nbuf)

/-- `APPEND` takes 1 to 8 bits (R82, "Precondition: `0 < bitCount ≤ 8`"). -/
def appendCountInRange (n : CountField) : Bool := decide (1 ≤ n.toNat ∧ n.toNat ≤ 8)

/-- `READBITS` takes 0 to 8 bits (R82). -/
def readCountInRange (n : CountField) : Bool := decide (n.toNat ≤ 8)

/-- `forceRefresh` is 0 or 1 (R82). -/
def forceInRange (n : CountField) : Bool := decide (n.toNat ≤ 1)

/-- Every used field of the command is inside its domain (R83, R250), for a block of `nbuf` slots. -/
def Instr.wellFormed (nbuf : Nat) : Instr → Bool
  | .append bd n _    => slotInRange nbuf bd && appendCountInRange n
  | .readbits bd n    => slotInRange nbuf bd && readCountInRange n
  | .rdbyte bd        => slotInRange nbuf bd
  | .wrbyte bd _      => slotInRange nbuf bd
  | .clear bd         => slotInRange nbuf bd
  | .copy bd ba       => slotInRange nbuf bd && slotInRange nbuf ba && decide (bd ≠ ba)
  | .load bd          => slotInRange nbuf bd
  | .save bd          => slotInRange nbuf bd
  | .stat bd          => slotInRange nbuf bd
  | .refresh bd       => slotInRange nbuf bd
  | .markdirty bd n   => slotInRange nbuf bd && forceInRange n
  | .freq bd _        => slotInRange nbuf bd
  | .prob bd _        => slotInRange nbuf bd
  | .info bd _        => slotInRange nbuf bd
  | .byteent bd       => slotInRange nbuf bd
  | .bitent bd        => slotInRange nbuf bd
  | .build bd ba      => slotInRange nbuf bd && slotInRange nbuf ba && decide (bd ≠ ba)
  | .encode bd ba bk  =>
    slotInRange nbuf bd && slotInRange nbuf ba && slotInRange nbuf bk && decide (bd ≠ ba) && decide (bd ≠ bk)
  | .decode bd ba bk  =>
    slotInRange nbuf bd && slotInRange nbuf ba && slotInRange nbuf bk && decide (bd ≠ ba) && decide (bd ≠ bk)

end Sys2Proof
end

