-- ==== Sys2Proof/Safety.lean ====
section
/-!
DEFINITION. The terms the statements use: the invariant of the machine, what a slot's bits and statistics mean, the opcode
table as masks, which slot a command writes, which failures it can end in, and the real number an exact real stands for. The
machine does not depend on this file. No step is unsafe by itself: every command ends (spec/60_exceptions.md R240); a run is
safe when its states satisfy the invariant.
-/

namespace Sys2Proof

/-! ### The opcode table (spec/opcode_table.json) -/

/-- One row of the table: a word belongs to it when it agrees with `value` on the bits of `mask`. -/
structure OpcodeRow where
  value : Word
  mask  : Word
deriving DecidableEq, Repr

/-- The word belongs to the row. -/
abbrev OpcodeRow.Matches (r : OpcodeRow) (w : Word) : Prop := w &&& r.mask = r.value

/-- The row of each command: the table's `match` and `mask`. -/
def opcodeRow : Instr → OpcodeRow
  | .append ..    => ⟨0x01000000, 0xFF0FF000⟩
  | .readbits ..  => ⟨0x02000000, 0xFF0FF0FF⟩
  | .rdbyte ..    => ⟨0x03000000, 0xFF0FFFFF⟩
  | .wrbyte ..    => ⟨0x04000000, 0xFF0FFF00⟩
  | .clear ..     => ⟨0x05000000, 0xFF0FFFFF⟩
  | .copy ..      => ⟨0x06000000, 0xFF00FFFF⟩
  | .load ..      => ⟨0x07000000, 0xFF0FFFFF⟩
  | .save ..      => ⟨0x08000000, 0xFF0FFFFF⟩
  | .stat ..      => ⟨0x09000000, 0xFF0FFFFF⟩
  | .refresh ..   => ⟨0x10000000, 0xFF0FFFFF⟩
  | .markdirty .. => ⟨0x11000000, 0xFF0FF0FF⟩
  | .freq ..      => ⟨0x12000000, 0xFF0FFF00⟩
  | .prob ..      => ⟨0x13000000, 0xFF0FFF00⟩
  | .info ..      => ⟨0x14000000, 0xFF0FFF00⟩
  | .byteent ..   => ⟨0x15000000, 0xFF0FFFFF⟩
  | .bitent ..    => ⟨0x16000000, 0xFF0FFFFF⟩
  | .build ..     => ⟨0x20000000, 0xFF00FFFF⟩
  | .encode ..    => ⟨0x21000000, 0xFF000FFF⟩
  | .decode ..    => ⟨0x22000000, 0xFF000FFF⟩

/-- The nineteen rows, in the table's order. -/
def opcodeRows : List OpcodeRow :=
  [opcodeRow (.append 0 0 0), opcodeRow (.readbits 0 0), opcodeRow (.rdbyte 0), opcodeRow (.wrbyte 0 0),
   opcodeRow (.clear 0), opcodeRow (.copy 0 0), opcodeRow (.load 0), opcodeRow (.save 0), opcodeRow (.stat 0),
   opcodeRow (.refresh 0), opcodeRow (.markdirty 0 0), opcodeRow (.freq 0 0), opcodeRow (.prob 0 0),
   opcodeRow (.info 0 0), opcodeRow (.byteent 0), opcodeRow (.bitent 0), opcodeRow (.build 0 0),
   opcodeRow (.encode 0 0 0), opcodeRow (.decode 0 0 0)]

/-- A word of no row: a reserved `op`, or a field that must be zero is not (spec/30_encoding.md R83). -/
abbrev IllegalWord (w : Word) : Prop := ∀ r ∈ opcodeRows, ¬ r.Matches w

/-! ### The commands as syntax -/

/-- The slot a command writes (spec/20_memory.md R51, R67), if it writes one. -/
def Instr.destination : Instr → Option SlotNo
  | .append bd _ _   => some bd
  | .readbits _ _    => none
  | .rdbyte _        => none
  | .wrbyte bd _     => some bd
  | .clear bd        => some bd
  | .copy bd _       => some bd
  | .load bd         => some bd
  | .save _          => none
  | .stat _          => none
  | .refresh bd      => some bd
  | .markdirty bd _  => some bd
  | .freq _ _        => none
  | .prob _ _        => none
  | .info _ _        => none
  | .byteent _       => none
  | .bitent _        => none
  | .build bd _      => some bd
  | .encode bd _ _   => some bd
  | .decode bd _ _   => some bd

/-- The commands that leave a partly written destination when they fail late (spec/60_exceptions.md R253). -/
def Instr.leavesPartialResult : Instr → Bool
  | .build ..  => true
  | .encode .. => true
  | .decode .. => true
  | .append .. | .readbits .. | .rdbyte .. | .wrbyte .. | .clear .. | .copy .. | .load .. | .save .. | .stat ..
  | .refresh .. | .markdirty .. | .freq .. | .prob .. | .info .. | .byteent .. | .bitent .. => false

/-- The outcomes of a command that has been decoded: 0, `BadOperand`, and the codes that the table of
spec/60_exceptions.md R241 lets it raise. -/
def Instr.outcomes : Instr → List Nat
  | .append ..    => [0, 9, 7]
  | .readbits ..  => [0, 9, 1]
  | .rdbyte ..    => [0, 9, 1]
  | .wrbyte ..    => [0, 9, 1]
  | .clear ..     => [0, 9]
  | .copy ..      => [0, 9]
  | .load ..      => [0, 9, 7]
  | .save ..      => [0, 9]
  | .stat ..      => [0, 9]
  | .refresh ..   => [0, 9]
  | .markdirty .. => [0, 9]
  | .freq ..      => [0, 9, 2]
  | .prob ..      => [0, 9, 2, 5]
  | .info ..      => [0, 9, 2, 5]
  | .byteent ..   => [0, 9, 2, 5]
  | .bitent ..    => [0, 9, 2, 5]
  | .build ..     => [0, 9, 2, 5, 7]
  | .encode ..    => [0, 9, 3, 6, 7]
  | .decode ..    => [0, 9, 3, 1, 4, 7]

/-- The commands that refresh slot `k` (spec/10_state.md R26, R27): `REFRESH`, `MARKDIRTY` with `forceRefresh = 1`, and
`ENCODE` into it. -/
def Instr.refreshes (k : SlotNo) : Instr → Prop
  | .refresh bd     => bd = k
  | .markdirty bd n => bd = k ∧ n = 1
  | .encode bd _ _  => bd = k
  | .append .. | .readbits .. | .rdbyte .. | .wrbyte .. | .clear .. | .copy .. | .load .. | .save .. | .stat ..
  | .freq .. | .prob .. | .info .. | .byteent .. | .bitent .. | .build .. | .decode .. => False

/-- The commands that read and write only result registers: the queries of spec/20_memory.md R57. -/
def Instr.isQuery : Instr → Bool
  | .readbits .. | .rdbyte .. | .stat .. | .freq .. | .prob .. | .info .. | .byteent .. | .bitent .. => true
  | .append .. | .wrbyte .. | .clear .. | .copy .. | .load .. | .save .. | .refresh .. | .markdirty ..
  | .build .. | .encode .. | .decode .. => false

/-- The queries that write `RES` when they succeed (spec/10_state.md R36). -/
def Instr.writesRes : Instr → Bool
  | .readbits .. | .rdbyte .. | .stat .. | .freq .. | .prob .. => true
  | .append .. | .wrbyte .. | .clear .. | .copy .. | .load .. | .save .. | .refresh .. | .markdirty ..
  | .info .. | .byteent .. | .bitent .. | .build .. | .encode .. | .decode .. => false

/-- The queries that write `RES2` when they succeed (spec/10_state.md R36). -/
def Instr.writesRes2 : Instr → Bool
  | .stat .. | .prob .. => true
  | .append .. | .readbits .. | .rdbyte .. | .wrbyte .. | .clear .. | .copy .. | .load .. | .save .. | .refresh ..
  | .markdirty .. | .freq .. | .info .. | .byteent .. | .bitent .. | .build .. | .encode .. | .decode .. => false

/-- The queries that write `RESF` when they succeed (spec/10_state.md R37). -/
def Instr.writesResf : Instr → Bool
  | .info .. | .byteent .. | .bitent .. => true
  | .append .. | .readbits .. | .rdbyte .. | .wrbyte .. | .clear .. | .copy .. | .load .. | .save .. | .stat ..
  | .refresh .. | .markdirty .. | .freq .. | .prob .. | .build .. | .encode .. | .decode .. => false

namespace Machine

/-! ### What a slot holds -/

/-- The data of a slot, bit by bit from stream bit 0 on (spec/10_state.md R24). -/
def Slot.dataBits (x : Slot) : List Bool := (List.range x.bitLen).map x.bitAt

/-- The low `w` bits of `v`, most significant first (spec/20_memory.md R53). -/
def fieldBits (v w : Nat) : List Bool := (List.range w).map fun j => v.testBit (w - 1 - j)

/-- The bit appends a field makes (spec/40_bitbuffer.md R122): none for no bits, one up to eight, two above. -/
def piecesOf (f : Nat × Nat) : List (Nat × Nat) :=
  if f.2 = 0 then [] else if f.2 ≤ 8 then [f] else [(f.1 % 2 ^ f.2 / 256, f.2 - 8), (f.1 % 256, 8)]

/-- The bit appends the fields make, one after the other. -/
def pieces (fields : List (Nat × Nat)) : List (Nat × Nat) := fields.flatMap piecesOf

/-- The fields laid out one after the other. -/
def fieldsBits (fields : List (Nat × Nat)) : List Bool := fields.flatMap fun f => fieldBits f.1 f.2

/-- The pad bits are zero (spec/10_state.md R25); bits beyond the last byte read as zero in `bitAt`. -/
def Slot.PadZero (x : Slot) : Prop := ∀ i, x.bitLen ≤ i → x.bitAt i = false

/-- The cursor agrees with the bytes (spec/10_state.md R23): `nfb ≠ 0` implies `len ≥ 1`. -/
abbrev Slot.CursorOk (x : Slot) : Prop := x.nfb ≠ 0 → x.bytes ≠ []

/-- The sum of the 256 counters. -/
def Slot.freqSum (x : Slot) : Nat := (allBytes.map x.freqOf).sum

/-- The statistics are fresh and describe the bytes as they are now (spec/10_state.md R27, spec/43_codec.md R206). -/
def Slot.StatsDescribe (x : Slot) : Prop :=
  x.dirty = false ∧ x.total.toNat = x.len ∧ ∀ v, x.freqOf v = x.bytes.count v

/-- What every slot of a running block satisfies (R21, R23, R27): at most `cap` bytes, the cursor agreeing with them, 256
counters, and fresh statistics that add up to a total within the capacity. -/
abbrev Slot.Wf (cap : Nat) (x : Slot) : Prop :=
  x.bytes.length ≤ cap ∧ x.CursorOk ∧ x.freq.length = 256 ∧
    (x.dirty = false → x.freqSum = x.total.toNat ∧ x.total.toNat ≤ cap)

/-- The invariant of the machine: the parameters in range (spec/00_scope.md R6, R7), every slot well formed, and `STATUS`
one of the ten outcomes of spec/60_exceptions.md R241 with bits 31:8 zero (R34). -/
abbrev State.Inv (s : State) : Prop :=
  Config.Valid { nbuf := s.nbuf, cap := s.cap } ∧ s.status.toNat ≤ 9 ∧ ∀ x ∈ s.slots, x.Wf s.cap

/-! ### Frames -/

/-- All slots but `bd` are as before, in every byte and every other field, and there are as many of them. -/
def OtherSlotsKept (s t : State) (bd : SlotNo) : Prop :=
  t.nbuf = s.nbuf ∧ ∀ k, k ≠ bd → t.slot k = s.slot k ∧ ∀ a, t.readByte k a = s.readByte k a

/-- Every slot is as before, in every byte and every other field. -/
def SlotsKept (s t : State) : Prop :=
  t.slots = s.slots ∧ ∀ k a, t.readByte k a = s.readByte k a

/-! ### What cannot be observed -/

/-- A slot with its statistics put out of sight where they are stale (spec/10_state.md R27). -/
def Slot.forgetStale (x : Slot) : Slot := if x.dirty then { x with freq := [], total := 0 } else x

/-- A state with every stale statistic put out of sight (spec/70_reset_and_hazards.md R281). -/
def State.forgetStale (s : State) : State := { s with slots := s.slots.map Slot.forgetStale }

/-! ### Codewords -/

/-- The bits of an entry's codeword. -/
def CodeEntry.bits (e : CodeEntry) : List Bool := fieldBits e.code e.length

/-- The codewords of the bytes that have an entry, one after the other (spec/30_encoding.md R92). -/
def Codebook.codeBits (c : Codebook) (input : List Byte) : List Bool :=
  input.flatMap fun v => match c.enc v with
    | some e => e.bits
    | none => []

/-- Every byte has an entry. -/
def Codebook.Covers (c : Codebook) (input : List Byte) : Prop := ∀ v ∈ input, c.enc v ≠ none

/-- The codebook of an assignment (spec/42_codebook_builder.md R177, R179): entry `i` is the `i`-th value of the ordering, with
codeword `i` of `bs` bits where `i < K`, and the escape pattern followed by `i - K` in `bl` bits otherwise. -/
def Assignment.codebook (a : Assignment) : Codebook :=
  { header := { m := a.m, k := a.k, bs := a.bs, bl := a.bl }
    entries := a.ord.mapIdx fun i y =>
      if i < a.k then { value := y.value, code := i, length := a.bs }
      else { value := y.value, code := (2 ^ a.bs - 1) * 2 ^ (a.bl - a.bs) + (i - a.k), length := a.bl } }

/-- The codebook invariants of spec/10_state.md R42, for the codebook of a key: no byte value and no (codeword, length) pair
twice; every entry short or long; long codewords begin with the escape pattern; no short one is the escape where there is a
long tier. -/
structure Codebook.Sound (c : Codebook) : Prop where
  values_distinct : (c.entries.map (·.value)).Nodup
  codewords_distinct : (c.entries.map fun e => (e.code, e.length)).Nodup
  short_or_long : ∀ e ∈ c.entries, e.length = c.header.bs ∨ (c.header.bl ≠ 0 ∧ e.length = c.header.bl)
  fits : ∀ e ∈ c.entries, e.code < 2 ^ e.length ∧ 1 ≤ e.length ∧ e.length ≤ 16
  long_has_escape : ∀ e ∈ c.entries, e.length = c.header.bl →
    e.code / 2 ^ (c.header.bl - c.header.bs) = c.header.esc
  short_not_escape : c.header.bl ≠ 0 → ∀ e ∈ c.entries, e.length = c.header.bs → e.code ≠ c.header.esc

/-! ### The entries of a key (spec/30_encoding.md R85, R86) -/

/-- The bit at which entry `e` of a key starts: `K` short entries from bit 32 on, then the long ones. -/
def KeyHeader.entryBit (h : KeyHeader) (e : Nat) : Nat :=
  if e ≤ h.k then 32 + e * (8 + h.bs) else 32 + h.k * (8 + h.bs) + (e - h.k) * (8 + h.bl)

/-- The codeword width of entry `e`. -/
def KeyHeader.entryWidth (h : KeyHeader) (e : Nat) : Nat := if e < h.k then h.bs else h.bl

/-- Entry `e` of a key as it stands in the slot: its byte value, then its codeword. -/
def Slot.keyEntry (x : Slot) (h : KeyHeader) (e : Nat) : CodeEntry :=
  { value := BitVec.ofNat 8 (x.fieldAt (h.entryBit e) 8)
    code := x.fieldAt (h.entryBit e + 8) (h.entryWidth e)
    length := h.entryWidth e }

/-- The header passes checks 1 to 6 (spec/43_codec.md R200), the header being that of the slot. -/
structure Slot.HeaderPasses (x : Slot) (h : KeyHeader) : Prop where
  bytes : ∃ b0 b1 b2 b3 rest, x.bytes = b0 :: b1 :: b2 :: b3 :: rest ∧
    h.m = (if b0 = 0 then 256 else b0.toNat) ∧ h.k = (if b1 = 0 then 256 else b1.toNat) ∧
    h.bs = b2.toNat ∧ h.bl = b3.toNat
  short_width : 1 ≤ h.bs ∧ h.bs ≤ 16
  long_width : h.bl = 0 ∨ h.bs < h.bl ∧ h.bl ≤ 16
  counts : h.k ≤ h.m ∧ (h.k = h.m ∨ h.bl ≠ 0)
  room : 32 + h.k * (8 + h.bs) + (h.m - h.k) * (8 + h.bl) ≤ x.bitLen

/-- Check 7 fails at entry `e`: a short codeword is the escape pattern and there is a long tier (R201). -/
abbrev Slot.EscapeAsShort (x : Slot) (h : KeyHeader) (e : Nat) : Prop :=
  e < h.k ∧ (x.keyEntry h e).code = 2 ^ h.bs - 1 ∧ h.bl ≠ 0

/-- Check 8 fails at entry `e`: a long codeword does not begin with the escape pattern (R201). -/
abbrev Slot.LongWithoutEscape (x : Slot) (h : KeyHeader) (e : Nat) : Prop :=
  h.k ≤ e ∧ (x.keyEntry h e).code / 2 ^ (h.bl - h.bs) ≠ 2 ^ h.bs - 1

/-- Check 9 fails at entry `e`: an entry before it has its byte value, or its codeword and length (R201). -/
abbrev Slot.DuplicateEntry (x : Slot) (h : KeyHeader) (e : Nat) : Prop :=
  ∃ j, j < e ∧ ((x.keyEntry h j).value = (x.keyEntry h e).value ∨
    ((x.keyEntry h j).code = (x.keyEntry h e).code ∧ (x.keyEntry h j).length = (x.keyEntry h e).length))

/-- Entry `e` passes checks 7, 8 and 9 (R201). -/
abbrev Slot.EntryPasses (x : Slot) (h : KeyHeader) (e : Nat) : Prop :=
  ¬ x.EscapeAsShort h e ∧ ¬ x.LongWithoutEscape h e ∧ ¬ x.DuplicateEntry h e

/-! ### Real numbers -/

/-- The real number of one term. -/
noncomputable def termReal (t : LogTerm) : ℝ :=
  (t.weightNum : ℝ) / (t.weightDen : ℝ) * Real.logb 2 ((t.argNum : ℝ) / (t.argDen : ℝ))

/-- The real number an exact real stands for (spec/00_scope.md R8). -/
noncomputable def realOf (x : ExactReal) : ℝ := (x.terms.map termReal).sum

end Machine

end Sys2Proof
end

