-- ==== Sys2Proof/Certificates/Slice0/Obligations.lean ====
section
/-!
DEFINITION. The statements about the model, for the provers. Each docstring names the rule of spec/ it comes from.
-/

open Sys2Proof Sys2Proof.Machine

/-! ### Encodings (spec/30_encoding.md) -/

/-- Decoding the encoding of a command gives the command back, with every field at every value (R80, R82). -/
def Obligations.DecodeOfEncode : Prop := ∀ i : Instr, decode (encode i) = .ok i

/-- A word that decodes is the encoding of what it decodes to: no bit of it is dropped (R80, R83). -/
def Obligations.EncodeOfDecode : Prop := ∀ (w : Word) (i : Instr), decode w = .ok i → encode i = w

/-- A word decodes exactly if it belongs to a row of the opcode table, to the command of the only row it belongs to
(R82, R83). -/
def Obligations.DecoderAcceptsExactlyTheTable : Prop :=
  ∀ w : Word,
    ((∃ i, decode w = .ok i) ↔ ∃ r ∈ opcodeRows, r.Matches w) ∧
    ∀ i, decode w = .ok i → ∀ r ∈ opcodeRows, r.Matches w ↔ r = opcodeRow i

/-- The eight worked command encodings of R95, in both directions. -/
def Obligations.WorkedEncodings : Prop :=
  ∀ p ∈ ([(.append 2 3 0x05, 0x01200305), (.readbits 2 2, 0x02200200), (.refresh 0, 0x10000000),
      (.build 1 0, 0x20100000), (.encode 2 0 1, 0x21201000), (.decode 3 2 1, 0x22321000),
      (.markdirty 0 1, 0x11000100), (.freq 0 0x41, 0x12000041)] : List (Instr × Word)),
    encode p.1 = p.2 ∧ decode p.2 = .ok p.1

/-! ### The step, the command port and the other registers (spec/10_state.md) -/

/-- A step runs the command that the host's next write to `CMD` encodes, on the state without that action (R38). The host's
list of actions is the model's (log entry 1). -/
def Obligations.StepRunsDecodedCommand : Prop :=
  ∀ (s : State) (w : Word) (i : Instr), decode w = .ok i →
    (∀ rest, s.host = .write .cmd w :: rest → step s = exec i { s with host := rest }) ∧
    step (s.withFetchWord 32 w.toNat) = exec i s

/-- An illegal word fails with `IllegalCommand`, `EINFO` the word, and changes nothing else; no other word does (R249). -/
def Obligations.IllegalWordFails : Prop :=
  ∀ (s : State) (w : Word) (rest : List HostAction), s.host = .write .cmd w :: rest →
    (IllegalWord w → step s = .next { s with host := rest, status := 8, einfo := w }) ∧
    (¬ IllegalWord w → ∀ t, step s = .next t → t.status ≠ 8)

/-- Host writes of `ARG`, `TFNUM`, `TFDEN` write that register, of a read-only register nothing; a read returns the
register, and 0 of `CMD`, and writes no state of the block (R31, R34). How the host's actions and replies stand in the state
is the model's (log entries 1, 4, 6). -/
def Obligations.RegisterPort : Prop :=
  ∀ (s : State) (v : Word) (rest : List HostAction),
    (s.host = .write .arg v :: rest → step s = .next { s with host := rest, arg := v }) ∧
    (s.host = .write .tfnum v :: rest → step s = .next { s with host := rest, tfnum := v }) ∧
    (s.host = .write .tfden v :: rest → step s = .next { s with host := rest, tfden := v }) ∧
    (∀ r ∈ [Reg.status, .einfo, .res, .res2, .resf], s.host = .write r v :: rest →
      step s = .next { s with host := rest }) ∧
    ∀ p ∈ [(Reg.cmd, RegValue.word 0), (.arg, .word s.arg), (.tfnum, .word s.tfnum), (.tfden, .word s.tfden),
        (.status, .word s.status), (.einfo, .word s.einfo), (.res, .word s.res), (.res2, .word s.res2),
        (.resf, .real (Config.realFmt s.resf))],
      s.host = .read p.1 :: rest →
        step s = .next { s with host := rest, replies := s.replies ++ [{ reg := p.1, value := p.2 }] }

/-- With nothing to do the block stays as it is; bytes the host supplies come last on `DIN`; the external reset gives the
values of R43 and keeps the parameters (R280). Waiting, the stream and the host's side under reset are the model's
(log entries 1, 5, 9). -/
def Obligations.HostSideSteps : Prop :=
  ∀ (s : State) (bytes : List Byte) (rest : List HostAction),
    (s.host = [] → step s = .next s) ∧
    (s.host = .supply bytes :: rest → step s = .next { s with host := rest, din := s.din ++ bytes }) ∧
    (s.host = .reset :: rest → ∃ t, step s = .next t ∧
      t.nbuf = s.nbuf ∧ t.cap = s.cap ∧
      (∀ x ∈ t.slots, x.bytes = [] ∧ x.nfb = 0 ∧ x.dirty = true) ∧
      t.arg = 0 ∧ t.tfnum = 4 ∧ t.tfden = 5 ∧ t.status = 0 ∧ t.einfo = 0 ∧ t.res = 0 ∧ t.res2 = 0 ∧
      t.host = rest ∧ t.din = s.din ∧ t.dout = s.dout ∧ t.replies = s.replies)

/-- The reset values of R43, for every number of slots; `freq`, `total` and `RESF` are unspecified and not stated. -/
def Obligations.ResetTable : Prop :=
  (∀ c : Config, c.Valid →
    (State.resetFor c).nbuf = c.nbuf ∧ (State.resetFor c).cap = c.cap ∧
    (∀ x ∈ (State.resetFor c).slots, x.len = 0 ∧ x.bytes = [] ∧ x.nfb = 0 ∧ x.dirty = true) ∧
    (State.resetFor c).arg = 0 ∧ (State.resetFor c).tfnum = 4 ∧ (State.resetFor c).tfden = 5 ∧
    (State.resetFor c).status = 0 ∧ (State.resetFor c).einfo = 0 ∧
    (State.resetFor c).res = 0 ∧ (State.resetFor c).res2 = 0) ∧
  ∃ c : Config, c.Valid ∧ State.reset = State.resetFor c

/-! ### The whole machine -/

/-- The invariant holds after reset, for every configuration in range. -/
def Obligations.InvHoldsAtReset : Prop :=
  (∀ c : Config, c.Valid → (State.resetFor c).Inv) ∧ State.reset.Inv

/-- Every step keeps the invariant: parameters in range, every slot within its capacity with its cursor agreeing with its
bytes, fresh statistics adding up, `STATUS` one of the ten codes (R6, R7, R21, R23, R27, R34). -/
def Obligations.StepKeepsInv : Prop := ∀ s t : State, s.Inv → step s = .next t → t.Inv

/-- No step stops the machine (R240: "none is fatal, none is undefined, none stops the block"). -/
def Obligations.StepAlwaysAnswers : Prop := ∀ s : State, ∃ t, step s = .next t

/-- The statistics of a dirty slot cannot be observed: two states that differ only in them take steps to states that differ
only in them (R27, R281). -/
def Obligations.StaleStatisticsUnobservable : Prop :=
  ∀ s t : State, s.forgetStale = t.forgetStale →
    ∃ s' t', step s = .next s' ∧ step t = .next t' ∧ s'.forgetStale = t'.forgetStale

/-- A command changes no slot but its destination (R51, R67: sources are read-only, one slot is never reached from
another). -/
def Obligations.OnlyDestinationChanges : Prop :=
  ∀ (i : Instr) (s t : State), exec i s = .next t →
    t.nbuf = s.nbuf ∧
    ∀ k, i.destination ≠ some k → t.slot k = s.slot k ∧ ∀ a, t.readByte k a = s.readByte k a

/-- No command writes `ARG`, `TFNUM`, `TFDEN` (R32, R33) or the parameters; the host's actions and replies are not touched;
only `LOAD` takes from `DIN`, only `SAVE` sends on `DOUT` (R81). -/
def Obligations.OperandRegistersKept : Prop :=
  ∀ (i : Instr) (s t : State), exec i s = .next t →
    t.arg = s.arg ∧ t.tfnum = s.tfnum ∧ t.tfden = s.tfden ∧ t.cap = s.cap ∧
    t.host = s.host ∧ t.replies = s.replies ∧
    ((∀ b, i ≠ .load b) → t.din = s.din) ∧ ((∀ b, i ≠ .save b) → t.dout = s.dout)

/-- A failing command writes `STATUS` and `EINFO` and at most its destination slot, and that one only where R253 says so: never
for a command that leaves no partial result, and not with codes 2, 3, 5 and 9. -/
def Obligations.FailureKeepsEverythingElse : Prop :=
  ∀ (i : Instr) (s t : State), exec i s = .next t → t.status ≠ 0 →
    t = { s with slots := t.slots, status := t.status, einfo := t.einfo } ∧
    (t.slots = s.slots ∨ ∃ k, i.destination = some k ∧ t.slots = s.slots.set k.toNat (t.slot k)) ∧
    (∀ k, i.destination ≠ some k → t.slot k = s.slot k ∧ ∀ a, t.readByte k a = s.readByte k a) ∧
    (i.leavesPartialResult = false ∨ t.status ∈ ([2, 3, 5, 9] : List Word) → t.slots = s.slots)

/-- A successful command leaves `EINFO` unchanged (R35). -/
def Obligations.SuccessKeepsEinfo : Prop :=
  ∀ (i : Instr) (s t : State), exec i s = .next t → t.status = 0 → t.einfo = s.einfo

/-- Every command ends in success, `BadOperand`, or a failure that the table of R241 lets it raise. -/
def Obligations.OutcomeCodes : Prop :=
  ∀ (i : Instr) (s t : State), exec i s = .next t → t.status.toNat ∈ i.outcomes

/-- `BadOperand` is raised exactly when a used field is outside its domain or, for `BUILD`, the target fraction is not in
(0,1); `EINFO` is the command word and nothing else changes (R250). -/
def Obligations.BadOperandExactly : Prop :=
  ∀ (i : Instr) (s : State),
    (i.wellFormed s.nbuf = false ∨
        (∃ bd ba, i = .build bd ba) ∧ (s.tfnum = 0 ∨ s.tfden.toNat ≤ s.tfnum.toNat) →
      exec i s = .next { s with status := 9, einfo := encode i }) ∧
    (∀ t, exec i s = .next t → t.status = 9 →
      i.wellFormed s.nbuf = false ∨ (∃ bd ba, i = .build bd ba) ∧ (s.tfnum = 0 ∨ s.tfden.toNat ≤ s.tfnum.toNat))

/-- `StaleStatistics` is raised by the five queries and by `BUILD` when the flag of the slot read is set, `EINFO` the slot
number, and nothing else changes (R243). -/
def Obligations.StaleStatisticsFails : Prop :=
  ∀ (s : State) (b : SlotNo), b.toNat < s.nbuf → (s.slot b).dirty = true →
    (∀ v, ∀ i ∈ [Instr.freq b v, .prob b v, .info b v, .byteent b, .bitent b],
      exec i s = .next { s with status := 2, einfo := b.setWidth 32 }) ∧
    (∀ bd : SlotNo, bd.toNat < s.nbuf → bd ≠ b → 0 < s.tfnum.toNat → s.tfnum.toNat < s.tfden.toNat →
      exec (.build bd b) s = .next { s with status := 2, einfo := b.setWidth 32 })

/-- `UndefinedStatistic` is raised, after the freshness test, by `PROB`, `BYTEENT`, `BITENT` and `BUILD` when `total` is 0 and
by `INFO` when `total` or the counter is 0; `EINFO` is the slot number and nothing else changes (R246). -/
def Obligations.UndefinedStatisticFails : Prop :=
  ∀ (s : State) (b : SlotNo), b.toNat < s.nbuf →
    ((s.slot b).dirty = false → (s.slot b).total = 0 → ∀ v, ∀ i ∈ [Instr.prob b v, .byteent b, .bitent b],
      exec i s = .next { s with status := 5, einfo := b.setWidth 32 }) ∧
    (∀ v : Byte, (s.slot b).dirty = false → (s.slot b).total = 0 ∨ (s.slot b).freqOf v = 0 →
      exec (.info b v) s = .next { s with status := 5, einfo := b.setWidth 32 }) ∧
    (∀ bd : SlotNo, (s.slot b).dirty = false → (s.slot b).total = 0 → bd.toNat < s.nbuf → bd ≠ b →
      0 < s.tfnum.toNat → s.tfnum.toNat < s.tfden.toNat →
      exec (.build bd b) s = .next { s with status := 5, einfo := b.setWidth 32 }) ∧
    ((s.slot b).dirty = true → ∀ v bd, ∀ i ∈ [Instr.prob b v, .byteent b, .bitent b, .info b v, .build bd b],
      ∀ t, exec i s = .next t → t.status ≠ 5)

/-- `READBITS` beyond the occupied bits, `RDBYTE` and `WRBYTE` at or beyond the length, fail with `OutOfRange`, `EINFO = ARG`,
and nothing else changes (R58, R242 (a), (b)). -/
def Obligations.OutOfRangeAccessFails : Prop :=
  ∀ (s : State) (b : SlotNo), b.toNat < s.nbuf →
    (∀ n : CountField, n.toNat ≤ 8 → (s.slot b).bitLen < s.arg.toNat + n.toNat →
      exec (.readbits b n) s = .next { s with status := 1, einfo := s.arg }) ∧
    ((s.slot b).bytes.length ≤ s.arg.toNat →
      exec (.rdbyte b) s = .next { s with status := 1, einfo := s.arg } ∧
      ∀ v, exec (.wrbyte b v) s = .next { s with status := 1, einfo := s.arg })

/-- `APPEND` whose field needs more than `CAP` bytes, and `LOAD` of more than `CAP` bytes, fail with `CapacityExceeded`,
`EINFO` the slot number, and nothing else changes (R120, R131, R248). -/
def Obligations.CapacityStopsAppendAndLoad : Prop :=
  ∀ (s : State) (b : SlotNo), b.toNat < s.nbuf →
    (∀ (n : CountField) (v : Byte), 1 ≤ n.toNat → n.toNat ≤ 8 → (s.slot b).CursorOk →
      s.cap < ((s.slot b).bitLen + n.toNat + 7) / 8 →
      exec (.append b n v) s = .next { s with status := 7, einfo := b.setWidth 32 }) ∧
    (s.cap < s.arg.toNat → exec (.load b) s = .next { s with status := 7, einfo := b.setWidth 32 })

/-- Only a refresh clears the flag or writes the counters of a slot (R26, R27): `REFRESH`, `MARKDIRTY` with 1, and a
successful `ENCODE` into it. -/
def Obligations.StatisticsWrittenOnlyByRefresh : Prop :=
  ∀ (i : Instr) (s t : State) (k : SlotNo), exec i s = .next t →
    ¬ (i.refreshes k ∧ t.status = 0) →
    ((s.slot k).dirty = true → (t.slot k).dirty = true) ∧
    (t.slot k).freq = (s.slot k).freq ∧ (t.slot k).total = (s.slot k).total

/-- `RES`, `RES2` and `RESF` are written only by the successful queries that R36 and R37 name. -/
def Obligations.ResultRegistersOnlyByQueries : Prop :=
  ∀ (i : Instr) (s t : State), exec i s = .next t →
    (i.writesRes = false ∨ t.status ≠ 0 → t.res = s.res) ∧
    (i.writesRes2 = false ∨ t.status ≠ 0 → t.res2 = s.res2) ∧
    (i.writesResf = false ∨ t.status ≠ 0 → t.resf = s.resf)

/-- A query repeated gives the same state again, and so does `WRBYTE` (R57). -/
def Obligations.RepeatedAccessIsIdempotent : Prop :=
  ∀ (i : Instr) (s t : State), i.isQuery = true ∨ (∃ b v, i = .wrbyte b v) → exec i s = .next t → exec i t = .next t

/-! ### BitBuffer commands (spec/40_bitbuffer.md) -/

/-- `APPEND` of a field that fits grows the slot by `n` bits at its end: those bits are the low `n` bits of the value, most
significant first, every other bit is as before, the flag is set, and nothing else changes (R120, R125). -/
def Obligations.AppendPlacesField : Prop :=
  ∀ (s : State) (bd : SlotNo) (n : CountField) (imm : Byte),
    bd.toNat < s.nbuf → 1 ≤ n.toNat → n.toNat ≤ 8 → (s.slot bd).CursorOk →
    ((s.slot bd).bitLen + n.toNat + 7) / 8 ≤ s.cap →
    ∃ t, exec (.append bd n imm) s = .next t ∧
      t = { s with slots := s.slots.set bd.toNat (t.slot bd), status := 0 } ∧ OtherSlotsKept s t bd ∧
      (t.slot bd).dirty = true ∧ (t.slot bd).freq = (s.slot bd).freq ∧ (t.slot bd).total = (s.slot bd).total ∧
      (t.slot bd).bitLen = (s.slot bd).bitLen + n.toNat ∧
      (t.slot bd).bytes.length = ((s.slot bd).bitLen + n.toNat + 7) / 8 ∧ (t.slot bd).CursorOk ∧
      (t.slot bd).fieldAt (s.slot bd).bitLen n.toNat = imm.toNat % 2 ^ n.toNat ∧
      (∀ i, i < (s.slot bd).bitLen ∨ (s.slot bd).bitLen + n.toNat ≤ i → (t.slot bd).bitAt i = (s.slot bd).bitAt i) ∧
      ∀ a, 8 * a + 8 ≤ (s.slot bd).bitLen → t.readByte bd a = s.readByte bd a

/-- The two-write form of the append is the recursive one: where the field exceeds the room of the last byte, appending it is
appending its top bits, which fill the byte, and then the rest as a second call (R120). -/
def Obligations.AppendIsTwoCalls : Prop :=
  ∀ (cap v n : Nat) (x y : Slot), 1 ≤ n → n ≤ 8 → x.nfb ≠ 0 → 8 - x.nfb.toNat < n → x.CursorOk →
    x.appendBits cap v n = .done y →
    ∃ z, x.appendBits cap (v % 2 ^ n / 2 ^ (n - (8 - x.nfb.toNat))) (8 - x.nfb.toNat) = .done z ∧
      z.nfb = 0 ∧ z.appendBits cap v (n - (8 - x.nfb.toNat)) = .done y

/-- Bit-pack/unpack inverse law (R124): after a sequence of appends to an empty slot that all succeed, of fields of 1 to 16
bits, the length, the cursor and the pad bits are as the total width says, and reading at the same boundaries gives every
field back, by `ReadBits` where it has at most 8 bits and by `ReadWide` always. -/
def Obligations.BitPackInverse : Prop :=
  ∀ (cap : Nat) (fields : List (Nat × Nat)) (x y : Slot),
    x.bytes = [] → x.nfb = 0 → (∀ f ∈ fields, 1 ≤ f.2 ∧ f.2 ≤ 16) → x.appendFields cap fields = .done y →
    y.bitLen = (fields.map (·.2)).sum ∧
    y.bytes.length = ((fields.map (·.2)).sum + 7) / 8 ∧
    y.nfb.toNat = (fields.map (·.2)).sum % 8 ∧ y.PadZero ∧
    ∀ (before after : List (Nat × Nat)) (v n : Nat), fields = before ++ (v, n) :: after →
      y.readWide ((before.map (·.2)).sum) n = .ok (v % 2 ^ n) ∧
      (n ≤ 8 → y.readBits ((before.map (·.2)).sum) n = .ok (v % 2 ^ n))

/-- `READBITS` inside the occupied bits: `RES` holds the `n` bits from `ARG` on, right-justified, the first the most
significant; nothing else changes (R53, R121, R126). -/
def Obligations.ReadbitsReturnsField : Prop :=
  ∀ (s : State) (bd : SlotNo) (n : CountField), bd.toNat < s.nbuf → n.toNat ≤ 8 →
    s.arg.toNat + n.toNat ≤ (s.slot bd).bitLen →
    ∃ t, exec (.readbits bd n) s = .next t ∧ t = { s with res := t.res, status := 0 } ∧ SlotsKept s t ∧
      t.res.toNat < 2 ^ n.toNat ∧
      ∀ j, j < n.toNat → t.res.getLsbD (n.toNat - 1 - j) = (s.slot bd).bitAt (s.arg.toNat + j)

/-- `RDBYTE` inside the length: `RES` is the byte at `ARG`, zero-extended; nothing else changes (R127). -/
def Obligations.RdbyteReturnsByte : Prop :=
  ∀ (s : State) (bd : SlotNo) (v : Byte), bd.toNat < s.nbuf → s.readByte bd s.arg.toNat = some v →
    ∃ t, exec (.rdbyte bd) s = .next t ∧ t = { s with res := v.setWidth 32, status := 0 } ∧ SlotsKept s t

/-- `WRBYTE` inside the length replaces the byte at `ARG` and nothing else: not the flag, the statistics, the length, the
cursor, nor any other byte (R128, R283). -/
def Obligations.WrbyteReplacesOneByte : Prop :=
  ∀ (s : State) (bd : SlotNo) (imm : Byte), bd.toNat < s.nbuf → s.arg.toNat < (s.slot bd).bytes.length →
    ∃ t, exec (.wrbyte bd imm) s = .next t ∧
      t = { s with slots := s.slots.set bd.toNat { s.slot bd with bytes := (t.slot bd).bytes }, status := 0 } ∧
      (t.slot bd).bytes.length = (s.slot bd).bytes.length ∧
      t.readByte bd s.arg.toNat = some imm ∧
      (∀ a, a ≠ s.arg.toNat → t.readByte bd a = s.readByte bd a) ∧ OtherSlotsKept s t bd

/-- `CLEAR` empties the slot, with cursor 0 and the flag set (R129). That the counters stand as they did is the model's
choice, which no command can observe (R27, log entry 8). -/
def Obligations.ClearEmptiesSlot : Prop :=
  ∀ (s : State) (bd : SlotNo), bd.toNat < s.nbuf →
    ∃ t, exec (.clear bd) s = .next t ∧
      t = { s with slots := s.slots.set bd.toNat { s.slot bd with bytes := [], nfb := 0, dirty := true }, status := 0 } ∧
      (∀ a, t.readByte bd a = none) ∧ OtherSlotsKept s t bd

/-- `COPY` gives the destination the bytes and the cursor of the source and the flag set, whatever the flag of the source
(R130). That its counters stand as they did is the model's choice, which no command can observe (R27, log entry 8). -/
def Obligations.CopyDuplicatesContent : Prop :=
  ∀ (s : State) (bd ba : SlotNo), bd.toNat < s.nbuf → ba.toNat < s.nbuf → bd ≠ ba →
    ∃ t, exec (.copy bd ba) s = .next t ∧
      t = { s with
        slots := s.slots.set bd.toNat
          { s.slot bd with bytes := (s.slot ba).bytes, nfb := (s.slot ba).nfb, dirty := true }
        status := 0 } ∧
      (∀ a, t.readByte bd a = s.readByte ba a) ∧ (t.slot bd).bitLen = (s.slot ba).bitLen ∧ OtherSlotsKept s t bd

/-- `LOAD` within the capacity replaces the content by the next `ARG` bytes of `DIN`, with cursor 0 and the flag set, and
takes them from the stream (R131). What stands for bytes the host did not supply is free and not stated (log entry 5); the
counters as in `CLEAR` (log entry 8). -/
def Obligations.LoadTakesDin : Prop :=
  ∀ (s : State) (bd : SlotNo), bd.toNat < s.nbuf → s.arg.toNat ≤ s.cap →
    ∃ t, exec (.load bd) s = .next t ∧
      t = { s with
        slots := s.slots.set bd.toNat { s.slot bd with bytes := (t.slot bd).bytes, nfb := 0, dirty := true }
        din := s.din.drop s.arg.toNat
        freeCount := t.freeCount
        status := 0 } ∧
      (t.slot bd).bytes.length = s.arg.toNat ∧
      (∀ a, a < s.arg.toNat → a < s.din.length → t.readByte bd a = s.din[a]?) ∧
      (s.arg.toNat ≤ s.din.length → (t.slot bd).bytes = s.din.take s.arg.toNat) ∧ OtherSlotsKept s t bd

/-- `SAVE` sends all bytes of the slot, in order, on `DOUT` and changes no state of the block (R132). -/
def Obligations.SaveSendsBytes : Prop :=
  ∀ (s : State) (bd : SlotNo), bd.toNat < s.nbuf →
    ∃ t, exec (.save bd) s = .next t ∧ t = { s with dout := s.dout ++ (s.slot bd).bytes, status := 0 } ∧ SlotsKept s t

/-- `STAT` returns the length in `RES` and, in `RES2`, the cursor in bits 2:0, the flag in bit 3 and zeros above (R36,
R133). -/
def Obligations.StatReports : Prop :=
  ∀ (s : State) (bd : SlotNo), bd.toNat < s.nbuf →
    ∃ t, exec (.stat bd) s = .next t ∧ t = { s with res := t.res, res2 := t.res2, status := 0 } ∧ SlotsKept s t ∧
      t.res.toNat = (s.slot bd).bytes.length % 2 ^ 32 ∧
      t.res2.extractLsb' 0 3 = (s.slot bd).nfb ∧ t.res2.getLsbD 3 = (s.slot bd).dirty ∧ t.res2.toNat < 16

/-! ### Statistics commands (spec/41_statistics.md) -/

/-- `REFRESH` counts every byte of the slot, sets `total` to the length, clears the flag, and changes nothing else (R150,
R151). -/
def Obligations.RefreshCountsBytes : Prop :=
  ∀ (s : State) (bd : SlotNo), bd.toNat < s.nbuf → (s.slot bd).bytes.length < 2 ^ 32 →
    ∃ t, exec (.refresh bd) s = .next t ∧
      t = { s with
        slots := s.slots.set bd.toNat
          { s.slot bd with freq := (t.slot bd).freq, total := (t.slot bd).total, dirty := false }
        status := 0 } ∧
      (t.slot bd).freq.length = 256 ∧ (t.slot bd).StatsDescribe ∧ (t.slot bd).freqSum = (s.slot bd).bytes.length ∧
      (∀ a, t.readByte bd a = s.readByte bd a) ∧ OtherSlotsKept s t bd

/-- `MARKDIRTY` with 0 sets the flag and changes nothing else; with 1 it ends as `REFRESH` does (R152). -/
def Obligations.MarkdirtyForms : Prop :=
  ∀ (s : State) (bd : SlotNo), bd.toNat < s.nbuf →
    (∃ t, exec (.markdirty bd 0) s = .next t ∧
      t = { s with slots := s.slots.set bd.toNat { s.slot bd with dirty := true }, status := 0 } ∧
      (∀ a, t.readByte bd a = s.readByte bd a) ∧ OtherSlotsKept s t bd) ∧
    ∃ t, exec (.markdirty bd 1) s = .next t ∧ exec (.refresh bd) s = .next t

/-- Normalisation law (R158): after a refresh of a non-empty slot the probabilities of the 256 byte values sum to 1
exactly, because the counters add up to the total, which is the length. -/
def Obligations.ProbabilitiesSumToOne : Prop :=
  ∀ (s t : State) (bd : SlotNo), bd.toNat < s.nbuf → (s.slot bd).bytes ≠ [] → (s.slot bd).bytes.length < 2 ^ 32 →
    exec (.refresh bd) s = .next t →
    (t.slot bd).freqSum = (t.slot bd).total.toNat ∧ (t.slot bd).total.toNat = (t.slot bd).bytes.length ∧
    (allBytes.map fun v => ((t.slot bd).freqOf v : ℚ) / ((t.slot bd).total.toNat : ℚ)).sum = 1

/-- `FREQ` of a fresh slot returns the counter of the byte value and changes nothing else (R153). -/
def Obligations.FreqReturnsCounter : Prop :=
  ∀ (s : State) (bd : SlotNo) (v : Byte), bd.toNat < s.nbuf → (s.slot bd).dirty = false →
    ∃ t, exec (.freq bd v) s = .next t ∧ t = { s with res := (s.slot bd).freq.getD v.toNat 0, status := 0 } ∧
      SlotsKept s t

/-- `PROB` of a fresh slot with a total returns the counter and the total and changes nothing else (R154). -/
def Obligations.ProbReturnsQuotient : Prop :=
  ∀ (s : State) (bd : SlotNo) (v : Byte), bd.toNat < s.nbuf → (s.slot bd).dirty = false → (s.slot bd).total ≠ 0 →
    ∃ t, exec (.prob bd v) s = .next t ∧
      t = { s with res := (s.slot bd).freq.getD v.toNat 0, res2 := (s.slot bd).total, status := 0 } ∧ SlotsKept s t

/-- `INFO` gives the real number `-log2 (freq/total)`, which is not negative, and changes nothing else (R155). -/
def Obligations.InfoIsMinusLog : Prop :=
  ∀ (s : State) (bd : SlotNo) (v : Byte), bd.toNat < s.nbuf → (s.slot bd).dirty = false →
    (s.slot bd).total ≠ 0 → (s.slot bd).freqOf v ≠ 0 →
    ∃ t, exec (.info bd v) s = .next t ∧ t = { s with resf := t.resf, status := 0 } ∧ SlotsKept s t ∧
      realOf t.resf = -Real.logb 2 (((s.slot bd).freqOf v : ℝ) / ((s.slot bd).total.toNat : ℝ)) ∧
      ((s.slot bd).freqOf v ≤ (s.slot bd).total.toNat → 0 ≤ realOf t.resf)

/-- `BYTEENT` gives the byte entropy of R156, which lies between 0 and 8 where the counters add up to the total, and changes
nothing else. -/
def Obligations.ByteEntropyValue : Prop :=
  ∀ (s : State) (bd : SlotNo), bd.toNat < s.nbuf → (s.slot bd).dirty = false → (s.slot bd).total ≠ 0 →
    ∃ t, exec (.byteent bd) s = .next t ∧ t = { s with resf := t.resf, status := 0 } ∧ SlotsKept s t ∧
      realOf t.resf = -((allBytes.filter fun v => decide (0 < (s.slot bd).freqOf v)).map fun v =>
        ((s.slot bd).freqOf v : ℝ) / ((s.slot bd).total.toNat : ℝ) *
          Real.logb 2 (((s.slot bd).freqOf v : ℝ) / ((s.slot bd).total.toNat : ℝ))).sum ∧
      ((s.slot bd).freqSum = (s.slot bd).total.toNat → 0 ≤ realOf t.resf ∧ realOf t.resf ≤ 8)

/-- `BITENT` gives the binary entropy of `q = ones / (8 · total)`, `ones` the set bits of all counted bytes, 0 where `q` is 0
or 1; it lies between 0 and 1 where the counters add up to the total; nothing else changes (R157). -/
def Obligations.BitEntropyValue : Prop :=
  ∀ (s : State) (bd : SlotNo) (q : ℝ), bd.toNat < s.nbuf → (s.slot bd).dirty = false → (s.slot bd).total ≠ 0 →
    (s.slot bd).freqSum = (s.slot bd).total.toNat →
    q = ((allBytes.map fun v => (s.slot bd).freqOf v * popcount v).sum : ℝ) / (8 * ((s.slot bd).total.toNat : ℝ)) →
    ∃ t, exec (.bitent bd) s = .next t ∧ t = { s with resf := t.resf, status := 0 } ∧ SlotsKept s t ∧
      (q = 0 ∨ q = 1 → realOf t.resf = 0) ∧
      (q ≠ 0 → q ≠ 1 → realOf t.resf = -(q * Real.logb 2 q) - (1 - q) * Real.logb 2 (1 - q)) ∧
      0 ≤ realOf t.resf ∧ realOf t.resf ≤ 1

/-! ### The builder (spec/42_codebook_builder.md) -/

/-- The ordering (R171): every byte value with nonzero frequency once, with its frequency, by falling frequency and then
rising byte value; at least one where something was counted, at most 256. -/
def Obligations.OrderingIsSorted : Prop :=
  ∀ x : Slot,
    (ordering x).Pairwise (fun a b => a.freq > b.freq ∨ (a.freq = b.freq ∧ a.value.toNat < b.value.toNat)) ∧
    (∀ a : Symbol, a ∈ ordering x ↔ a.freq = x.freqOf a.value ∧ 0 < a.freq) ∧
    ((ordering x).map (·.value)).Nodup ∧
    (1 ≤ x.freqSum → 1 ≤ (ordering x).length) ∧ (ordering x).length ≤ 256

/-- The walk (R172) takes the least number of entries, at least one, whose cumulative frequency reaches the target. -/
def Obligations.WalkStopsAtTarget : Prop :=
  ∀ (x : Slot) (num den : Nat), 0 < num → num < den → 1 ≤ x.total.toNat → x.freqSum = x.total.toNat →
    1 ≤ walk num den x.total.toNat 0 (ordering x) ∧
    walk num den x.total.toNat 0 (ordering x) ≤ (ordering x).length ∧
    num * x.total.toNat ≤
      (((ordering x).take (walk num den x.total.toNat 0 (ordering x))).map (·.freq)).sum * den ∧
    ∀ k, k < walk num den x.total.toNat 0 (ordering x) →
      (((ordering x).take k).map (·.freq)).sum * den < num * x.total.toNat

/-- The bounds of R180 (a) to (f) and (i) on every result of `Assign`, and the minimality of `bitsShort` (R173). -/
def Obligations.AssignmentBounds : Prop :=
  ∀ (x : Slot) (num den : Nat) (a : Assignment), 0 < num → num < den → 1 ≤ x.total.toNat → x.freqSum = x.total.toNat →
    a = assign x num den →
    1 ≤ a.k ∧ a.k ≤ a.m ∧ a.m ≤ 256 ∧ a.m = (ordering x).length ∧
    2 ≤ a.bs ∧ a.bs ≤ 9 ∧ (a.bs = 9 → a.m = 256 ∧ walk num den x.total.toNat 0 (ordering x) = 256) ∧
    walk num den x.total.toNat 0 (ordering x) < 2 ^ a.bs ∧
    (∀ b, 2 ≤ b → walk num den x.total.toNat 0 (ordering x) < 2 ^ b → a.bs ≤ b) ∧
    (a.m - a.k = 0 ∨ 2 ≤ a.m - a.k ∧ a.m - a.k ≤ 253) ∧
    (a.bl = 0 ∨ 3 ≤ a.bl ∧ a.bl ≤ 15 ∧ a.bs + 1 ≤ a.bl ∧ a.bl ≤ a.bs + 8) ∧
    (a.bl = 0 ↔ a.m ≤ 2 ^ a.bs) ∧ (a.bl = 0 → a.k = a.m) ∧ (a.bl ≠ 0 → a.k = 2 ^ a.bs - 1) ∧
    (a.bl ≠ 0 → a.m - a.k ≤ 2 ^ (a.bl - a.bs) ∧ 2 ^ (a.bl - a.bs) < 2 * (a.m - a.k)) ∧
    32 + a.k * (8 + a.bs) + (a.m - a.k) * (8 + a.bl) ≤ 5160

/-- `BUILD` from fresh statistics, with room for the key, writes the key of the assignment in the layout of R85 to R87:
the four header bytes, the short entries, the long entries, zero pad bits; the flag of the key slot is set and nothing else
changes (R170, R178); that its counters stand as they did is the model's choice (log entry 8). -/
def Obligations.BuildWritesKey : Prop :=
  ∀ (s : State) (bd ba : SlotNo) (a : Assignment),
    bd.toNat < s.nbuf → ba.toNat < s.nbuf → bd ≠ ba → 0 < s.tfnum.toNat → s.tfnum.toNat < s.tfden.toNat →
    (s.slot ba).dirty = false → 1 ≤ (s.slot ba).total.toNat → (s.slot ba).freqSum = (s.slot ba).total.toNat →
    a = assign (s.slot ba) s.tfnum.toNat s.tfden.toNat →
    32 + a.k * (8 + a.bs) + (a.m - a.k) * (8 + a.bl) ≤ 8 * s.cap →
    ∃ t, exec (.build bd ba) s = .next t ∧
      t = { s with slots := s.slots.set bd.toNat (t.slot bd), status := 0 } ∧ OtherSlotsKept s t bd ∧
      (t.slot bd).dirty = true ∧ (t.slot bd).PadZero ∧
      (t.slot bd).freq = (s.slot bd).freq ∧ (t.slot bd).total = (s.slot bd).total ∧
      t.readByte bd 0 = some (BitVec.ofNat 8 a.m) ∧ t.readByte bd 1 = some (BitVec.ofNat 8 a.k) ∧
      t.readByte bd 2 = some (BitVec.ofNat 8 a.bs) ∧ t.readByte bd 3 = some (BitVec.ofNat 8 a.bl) ∧
      (t.slot bd).bitLen = 32 + a.k * (8 + a.bs) + (a.m - a.k) * (8 + a.bl) ∧
      (∀ i y, i < a.k → a.ord[i]? = some y →
        (t.slot bd).fieldAt (32 + i * (8 + a.bs)) 8 = y.value.toNat ∧
        (t.slot bd).fieldAt (32 + i * (8 + a.bs) + 8) a.bs = i) ∧
      ∀ j y, j < a.m - a.k → a.ord[a.k + j]? = some y →
        (t.slot bd).fieldAt (32 + a.k * (8 + a.bs) + j * (8 + a.bl)) 8 = y.value.toNat ∧
        (t.slot bd).fieldAt (32 + a.k * (8 + a.bs) + j * (8 + a.bl) + 8) a.bs = 2 ^ a.bs - 1 ∧
        (t.slot bd).fieldAt (32 + a.k * (8 + a.bs) + j * (8 + a.bl) + 8 + a.bs) (a.bl - a.bs) = j

/-- A key that `BUILD` wrote passes all nine checks and parses to the codebook of its assignment, which has an entry for a
byte value exactly if its frequency is nonzero (R177, R180 (g), R201). -/
def Obligations.BuiltKeyParses : Prop :=
  ∀ (s t : State) (bd ba : SlotNo) (a : Assignment),
    bd.toNat < s.nbuf → ba.toNat < s.nbuf → bd ≠ ba →
    1 ≤ (s.slot ba).total.toNat → (s.slot ba).freqSum = (s.slot ba).total.toNat →
    a = assign (s.slot ba) s.tfnum.toNat s.tfden.toNat →
    exec (.build bd ba) s = .next t → t.status = 0 →
    parseKey (t.slot bd) = .ok a.codebook ∧ ∀ v, a.codebook.enc v ≠ none ↔ 0 < (s.slot ba).freqOf v

/-! ### The codec (spec/43_codec.md) -/

/-- A key that the parser accepts is a codebook: the invariants of R42 hold, the header is in range, the entries are as many
as the header says, the first `K` of them short, and the two maps are inverse to each other (R41, R200, R201). -/
def Obligations.AcceptedKeysAreSound : Prop :=
  ∀ (x : Slot) (book : Codebook), parseKey x = .ok book →
    book.Sound ∧ book.entries.length = book.header.m ∧
    1 ≤ book.header.k ∧ book.header.k ≤ book.header.m ∧ book.header.m ≤ 256 ∧
    1 ≤ book.header.bs ∧ book.header.bs ≤ 16 ∧
    (book.header.bl = 0 ∧ book.header.k = book.header.m ∨ book.header.bs < book.header.bl ∧ book.header.bl ≤ 16) ∧
    (∀ i e, book.entries[i]? = some e → e.length = if i < book.header.k then book.header.bs else book.header.bl) ∧
    ∀ v c l, book.dec c l = some v ↔ ∃ e, book.enc v = some e ∧ e.code = c ∧ e.length = l

/-- The six header checks of the key parser, each where the ones before it pass (R200), and what an accepted key's header
says, a count field of 0 read as 256 (R88). -/
def Obligations.KeyHeaderChecks : Prop :=
  (∀ x : Slot, x.bytes.length < 4 → parseKey x = .error { kind := .invalidKey, info := 1 }) ∧
  ∀ (x : Slot) (b0 b1 b2 b3 : Byte) (rest : List Byte) (m k bs bl : Nat), x.bytes = b0 :: b1 :: b2 :: b3 :: rest →
    m = (if b0 = 0 then 256 else b0.toNat) → k = (if b1 = 0 then 256 else b1.toNat) → bs = b2.toNat → bl = b3.toNat →
    (bs = 0 ∨ 16 < bs → parseKey x = .error { kind := .invalidKey, info := 2 }) ∧
    (1 ≤ bs → bs ≤ 16 → bl ≠ 0 → bl ≤ bs ∨ 16 < bl → parseKey x = .error { kind := .invalidKey, info := 3 }) ∧
    (1 ≤ bs → bs ≤ 16 → bl = 0 ∨ bs < bl ∧ bl ≤ 16 →
      (m < k → parseKey x = .error { kind := .invalidKey, info := 4 }) ∧
      (k < m → bl = 0 → parseKey x = .error { kind := .invalidKey, info := 5 }) ∧
      (k ≤ m → (k = m ∨ bl ≠ 0) → x.bitLen < 32 + k * (8 + bs) + (m - k) * (8 + bl) →
        parseKey x = .error { kind := .invalidKey, info := 6 })) ∧
    ∀ book, parseKey x = .ok book → book.header = { m := m, k := k, bs := bs, bl := bl }

/-- A key that the parser refuses is refused with `InvalidKey` and the number of a check, 1 to 9, never otherwise; `ENCODE`
and `DECODE` then fail with it and change nothing else (R202, R203, R244). -/
def Obligations.InvalidKeyRefused : Prop :=
  ∀ (s : State) (bd ba bk : SlotNo) (f : Failure),
    bd.toNat < s.nbuf → ba.toNat < s.nbuf → bk.toNat < s.nbuf → bd ≠ ba → bd ≠ bk →
    parseKey (s.slot bk) = .error f →
    f.kind = .invalidKey ∧ 1 ≤ f.info.toNat ∧ f.info.toNat ≤ 9 ∧
    exec (.encode bd ba bk) s = .next { s with status := 3, einfo := f.info } ∧
    exec (.decode bd ba bk) s = .next { s with status := 3, einfo := f.info }

/-- `ENCODE` with a key that covers the input, with room for the output, writes the codewords of the input bytes one after the
other, zero pad bits after them, and refreshes the destination; nothing else changes (R92, R202). -/
def Obligations.EncodeConcatenatesCodewords : Prop :=
  ∀ (s : State) (bd ba bk : SlotNo) (book : Codebook),
    bd.toNat < s.nbuf → ba.toNat < s.nbuf → bk.toNat < s.nbuf → bd ≠ ba → bd ≠ bk →
    parseKey (s.slot bk) = .ok book → book.Covers (s.slot ba).bytes →
    (book.codeBits (s.slot ba).bytes).length ≤ 8 * s.cap → s.cap < 2 ^ 32 →
    ∃ t, exec (.encode bd ba bk) s = .next t ∧
      t = { s with slots := s.slots.set bd.toNat (t.slot bd), status := 0 } ∧ OtherSlotsKept s t bd ∧
      (t.slot bd).dataBits = book.codeBits (s.slot ba).bytes ∧ (t.slot bd).PadZero ∧
      (t.slot bd).bytes.length = ((book.codeBits (s.slot ba).bytes).length + 7) / 8 ∧ (t.slot bd).StatsDescribe

/-- `ENCODE` at the first input byte that has no entry fails with `UnknownSymbol`, `EINFO` its index; the destination holds the
codewords before it, dirty and not refreshed; nothing else changes (R202, R247). That its counters stand as they did is the
model's choice, which no command can observe (R27, log entry 8). -/
def Obligations.EncodeUnknownSymbol : Prop :=
  ∀ (s : State) (bd ba bk : SlotNo) (book : Codebook) (before after : List Byte) (v : Byte),
    bd.toNat < s.nbuf → ba.toNat < s.nbuf → bk.toNat < s.nbuf → bd ≠ ba → bd ≠ bk →
    parseKey (s.slot bk) = .ok book → (s.slot ba).bytes = before ++ v :: after →
    book.Covers before → book.enc v = none → (book.codeBits before).length ≤ 8 * s.cap →
    ∃ t, exec (.encode bd ba bk) s = .next t ∧
      t = { s with slots := s.slots.set bd.toNat (t.slot bd), status := 6, einfo := BitVec.ofNat 32 before.length } ∧
      OtherSlotsKept s t bd ∧ (t.slot bd).dataBits = book.codeBits before ∧ (t.slot bd).dirty = true ∧
      (t.slot bd).freq = (s.slot bd).freq ∧ (t.slot bd).total = (s.slot bd).total

/-- `DECODE` of the codewords of some bytes, followed by fewer than `bitsShort` bits, gives those bytes, with any key the parser
accepts: the code is prefix-free and the bits left over are dropped (R91, R203, R204, R205). That the counters of the
destination stand as they did is the model's choice, which no command can observe (R27, log entry 8). -/
def Obligations.DecodeInvertsCodewords : Prop :=
  ∀ (s : State) (bd ba bk : SlotNo) (book : Codebook) (output : List Byte) (tail : List Bool),
    bd.toNat < s.nbuf → ba.toNat < s.nbuf → bk.toNat < s.nbuf → bd ≠ ba → bd ≠ bk →
    parseKey (s.slot bk) = .ok book → book.Covers output →
    (s.slot ba).dataBits = book.codeBits output ++ tail → tail.length < book.header.bs → output.length ≤ s.cap →
    ∃ t, exec (.decode bd ba bk) s = .next t ∧
      t = { s with
        slots := s.slots.set bd.toNat { s.slot bd with bytes := output, nfb := 0, dirty := true }
        status := 0 } ∧
      (∀ a, t.readByte bd a = output[a]?) ∧ OtherSlotsKept s t bd

/-- `DECODE` at the first codeword that cannot be decoded: `OutOfRange` where the escape is there and fewer than `bitsLong` bits
are left, `UnknownCodeword` where the (codeword, length) pair has no entry; `EINFO` is the bit where the codeword starts, the
destination holds the bytes before it, dirty (R203, R205, R242 (c), R245). That its counters stand as they did is the model's
choice, which no command can observe (R27, log entry 8). -/
def Obligations.DecodeStopsAtBadCodeword : Prop :=
  ∀ (s : State) (bd ba bk : SlotNo) (book : Codebook) (output : List Byte) (rest : List Bool) (p : Nat),
    bd.toNat < s.nbuf → ba.toNat < s.nbuf → bk.toNat < s.nbuf → bd ≠ ba → bd ≠ bk →
    parseKey (s.slot bk) = .ok book → book.Covers output →
    (s.slot ba).dataBits = book.codeBits output ++ rest → p = (book.codeBits output).length →
    book.header.bs ≤ rest.length → output.length ≤ s.cap →
    ((s.slot ba).fieldAt p book.header.bs = book.header.esc → book.header.bl ≠ 0 → rest.length < book.header.bl →
      exec (.decode bd ba bk) s = .next { s with
        slots := s.slots.set bd.toNat { s.slot bd with bytes := output, nfb := 0, dirty := true }
        status := 1
        einfo := BitVec.ofNat 32 p }) ∧
    ((s.slot ba).fieldAt p book.header.bs ≠ book.header.esc ∨ book.header.bl = 0 →
      book.dec ((s.slot ba).fieldAt p book.header.bs) book.header.bs = none →
      exec (.decode bd ba bk) s = .next { s with
        slots := s.slots.set bd.toNat { s.slot bd with bytes := output, nfb := 0, dirty := true }
        status := 4
        einfo := BitVec.ofNat 32 p }) ∧
    ((s.slot ba).fieldAt p book.header.bs = book.header.esc → book.header.bl ≠ 0 → book.header.bl ≤ rest.length →
      book.dec ((s.slot ba).fieldAt p book.header.bl) book.header.bl = none →
      exec (.decode bd ba bk) s = .next { s with
        slots := s.slots.set bd.toNat { s.slot bd with bytes := output, nfb := 0, dirty := true }
        status := 4
        einfo := BitVec.ofNat 32 p })

/-- `BUILD`, `ENCODE` and `DECODE` raise `CapacityExceeded` exactly where an append does not fit the destination, `EINFO` its slot
number; the destination, dirty, keeps everything appended before that append and nothing of it, and nothing else changes (R120,
R122, R248, R253). `BUILD`: where the key has more bits than the slot; all bit appends of the key before the first one that does
not fit stand. `ENCODE`: at the first codeword that does not fit, every input byte up to it having an entry; the codewords before
it stand, and its upper part where it has more than eight bits and that part fits. `DECODE`: where one more byte is decoded than
the slot holds; the first `CAP` bytes stand. -/
def Obligations.CapacityKeepsWhatWasAppended : Prop :=
  ∀ (s : State) (bd ba bk : SlotNo),
    (∀ a : Assignment, bd.toNat < s.nbuf → ba.toNat < s.nbuf → bd ≠ ba →
      0 < s.tfnum.toNat → s.tfnum.toNat < s.tfden.toNat → (s.slot ba).dirty = false → (s.slot ba).total ≠ 0 →
      a = assign (s.slot ba) s.tfnum.toNat s.tfden.toNat →
      8 * s.cap < 32 + a.k * (8 + a.bs) + (a.m - a.k) * (8 + a.bl) →
      ∃ t before v n after, exec (.build bd ba) s = .next t ∧
        t = { s with slots := s.slots.set bd.toNat (t.slot bd), status := 7, einfo := bd.setWidth 32 } ∧
        OtherSlotsKept s t bd ∧ (t.slot bd).dirty = true ∧ (t.slot bd).PadZero ∧
        pieces a.keyFields = before ++ (v, n) :: after ∧ (t.slot bd).dataBits = fieldsBits before ∧
        (fieldsBits before).length ≤ 8 * s.cap ∧ 8 * s.cap < (fieldsBits before).length + n) ∧
    (∀ (book : Codebook) (before after : List Byte) (v : Byte) (e : CodeEntry),
      bd.toNat < s.nbuf → ba.toNat < s.nbuf → bk.toNat < s.nbuf → bd ≠ ba → bd ≠ bk →
      parseKey (s.slot bk) = .ok book → (s.slot ba).bytes = before ++ v :: after → book.Covers before →
      book.enc v = some e → (book.codeBits before).length ≤ 8 * s.cap →
      8 * s.cap < (book.codeBits before).length + e.length →
      ∃ t, exec (.encode bd ba bk) s = .next t ∧
        t = { s with slots := s.slots.set bd.toNat (t.slot bd), status := 7, einfo := bd.setWidth 32 } ∧
        OtherSlotsKept s t bd ∧ (t.slot bd).dirty = true ∧ (t.slot bd).PadZero ∧
        (t.slot bd).dataBits =
          if 8 < e.length ∧ (book.codeBits before).length + (e.length - 8) ≤ 8 * s.cap then
            book.codeBits before ++ e.bits.take (e.length - 8)
          else book.codeBits before) ∧
    (∀ (book : Codebook) (output : List Byte) (v : Byte) (rest : List Bool),
      bd.toNat < s.nbuf → ba.toNat < s.nbuf → bk.toNat < s.nbuf → bd ≠ ba → bd ≠ bk →
      parseKey (s.slot bk) = .ok book → book.Covers (output ++ [v]) →
      (s.slot ba).dataBits = book.codeBits (output ++ [v]) ++ rest → output.length = s.cap →
      ∃ t, exec (.decode bd ba bk) s = .next t ∧
        t = { s with slots := s.slots.set bd.toNat (t.slot bd), status := 7, einfo := bd.setWidth 32 } ∧
        OtherSlotsKept s t bd ∧ (t.slot bd).dirty = true ∧ (t.slot bd).nfb = 0 ∧ (t.slot bd).bytes = output) ∧
    ∀ t : State, t.status = 7 →
      (exec (.build bd ba) s = .next t →
        ∃ a, a = assign (s.slot ba) s.tfnum.toNat s.tfden.toNat ∧
          8 * s.cap < 32 + a.k * (8 + a.bs) + (a.m - a.k) * (8 + a.bl)) ∧
      (exec (.encode bd ba bk) s = .next t →
        ∃ book before v after e, parseKey (s.slot bk) = .ok book ∧ (s.slot ba).bytes = before ++ v :: after ∧
          book.Covers before ∧ book.enc v = some e ∧ (book.codeBits before).length ≤ 8 * s.cap ∧
          8 * s.cap < (book.codeBits before).length + e.length) ∧
      (exec (.decode bd ba bk) s = .next t →
        ∃ book output v rest, parseKey (s.slot bk) = .ok book ∧ book.Covers (output ++ [v]) ∧
          (s.slot ba).dataBits = book.codeBits (output ++ [v]) ++ rest ∧ output.length = s.cap)

/-- Round-trip law (R206): `BUILD`, `ENCODE`, `DECODE` in four distinct slots, from a non-empty slot whose fresh statistics
describe its bytes, with any target fraction in (0,1) and enough capacity, all succeed and give the bytes back. -/
def Obligations.RoundTrip : Prop :=
  ∀ (s : State) (a k e r : SlotNo),
    a.toNat < s.nbuf → k.toNat < s.nbuf → e.toNat < s.nbuf → r.toNat < s.nbuf →
    [a, k, e, r].Nodup → 1 ≤ (s.slot a).bytes.length → (s.slot a).StatsDescribe →
    0 < s.tfnum.toNat → s.tfnum.toNat < s.tfden.toNat →
    645 ≤ s.cap → 2 * (s.slot a).bytes.length ≤ s.cap →
    ∃ t u v, exec (.build k a) s = .next t ∧ t.status = 0 ∧
      exec (.encode e a k) t = .next u ∧ u.status = 0 ∧
      exec (.decode r e k) u = .next v ∧ v.status = 0 ∧
      (v.slot r).bytes = (s.slot a).bytes ∧ (v.slot r).nfb = 0

/-- The three entry checks of the key parser on a key whose header passes (R201): with all entries before it passing, an entry
fails check 7, check 8, or, passing those, check 9, with the number of that check; and a key all of whose entries pass is
accepted, whoever wrote it, as the codebook of its entries as they stand, whatever their order, with `bitsShort` from 1 on. -/
def Obligations.KeyEntryChecks : Prop :=
  ∀ (x : Slot) (h : KeyHeader), x.HeaderPasses h →
    (∀ e, e < h.m → (∀ j, j < e → x.EntryPasses h j) →
      (x.EscapeAsShort h e → parseKey x = .error { kind := .invalidKey, info := 7 }) ∧
      (x.LongWithoutEscape h e → parseKey x = .error { kind := .invalidKey, info := 8 }) ∧
      (¬ x.EscapeAsShort h e → ¬ x.LongWithoutEscape h e → x.DuplicateEntry h e →
        parseKey x = .error { kind := .invalidKey, info := 9 })) ∧
    ((∀ e, e < h.m → x.EntryPasses h e) →
      parseKey x = .ok { header := h, entries := (List.range h.m).map (x.keyEntry h) })
end

