-- ==== Sys2Proof/Laws/Bits.lean ====
section
/-!
SUPPORT. Reading bits: what the stream bits, the fields and the two read primitives give (spec/40_bitbuffer.md R121, R123), and the
bits of the bit-field insert (R120).
-/

namespace Sys2Proof.Machine

/-- A stream bit beyond the last byte reads as zero. -/
theorem Slot.bitAt_of_len_le (x : Slot) (i : Nat) (h : 8 * x.len ≤ i) : x.bitAt i = false := by
  have : x.bytes.length ≤ i / 8 := by simp only [Slot.len] at h; omega
  simp [Slot.bitAt, List.getElem?_eq_none this]

/-- The occupied bits lie in the bytes (R24). -/
theorem Slot.bitLen_le (x : Slot) : x.bitLen ≤ 8 * x.len ∨ x.bytes = [] := by
  have := x.nfb.isLt
  by_cases hb : x.bytes = []
  · exact .inr hb
  · have : x.bytes.length ≠ 0 := by simpa using hb
    refine .inl ?_
    simp only [Slot.bitLen, Slot.len]
    split <;> omega

/-- The bit length from the length, cursor included, where the cursor agrees with the bytes (R24). -/
theorem Slot.bitLen_add (x : Slot) (h : x.CursorOk) :
    (x.nfb = 0 → x.bitLen = 8 * x.len) ∧
    (x.nfb ≠ 0 → x.bitLen + 8 = 8 * x.len + x.nfb.toNat ∧ 1 ≤ x.len ∧ 1 ≤ x.nfb.toNat) := by
  refine ⟨fun h0 => by simp [Slot.bitLen, h0], fun h0 => ?_⟩
  have h1 : x.bytes.length ≠ 0 := by simpa using h h0
  have h2 : x.nfb.toNat ≠ 0 := fun e => h0 (BitVec.eq_of_toNat_eq (by simpa using e))
  simp only [Slot.bitLen, Slot.len, if_neg h0]
  omega

/-- A field is below its power of two. -/
theorem Slot.fieldAt_lt (x : Slot) (f n : Nat) : x.fieldAt f n < 2 ^ n := by
  induction n with
  | zero => simp [Slot.fieldAt]
  | succ n ih =>
    have : (x.bitAt (f + n)).toNat ≤ 1 := Bool.toNat_le _
    simp only [Slot.fieldAt, pow_succ]
    omega

/-- A field cut in two. -/
theorem Slot.fieldAt_add (x : Slot) (f m n : Nat) :
    x.fieldAt f (m + n) = x.fieldAt f m * 2 ^ n + x.fieldAt (f + m) n := by
  induction n with
  | zero => simp [Slot.fieldAt]
  | succ n ih =>
    rw [← Nat.add_assoc, Slot.fieldAt, Slot.fieldAt, ih, pow_succ, Nat.add_assoc f m n]
    ring

/-- The bits of a field are the stream bits, the first the most significant (R53). -/
theorem Slot.fieldAt_testBit (x : Slot) (f n j : Nat) (h : j < n) :
    (x.fieldAt f n).testBit (n - 1 - j) = x.bitAt (f + j) := by
  induction n with
  | zero => omega
  | succ n ih =>
    rw [Slot.fieldAt]
    by_cases hj : j = n
    · subst hj
      have : j + 1 - 1 - j = 0 := by omega
      rw [this, Nat.testBit_zero]
      cases x.bitAt (f + j) <;> simp
    · have hd : (2 * x.fieldAt f n + (x.bitAt (f + n)).toNat) / 2 = x.fieldAt f n := by
        have := Bool.toNat_le (x.bitAt (f + n))
        omega
      rw [show n + 1 - 1 - j = (n - 1 - j) + 1 by omega, Nat.testBit_succ, hd, ih (by omega)]

/-- A number is the field whose bits are its bits. -/
theorem Slot.fieldAt_eq (x : Slot) (f n v : Nat)
    (h : ∀ j, j < n → x.bitAt (f + j) = v.testBit (n - 1 - j)) : x.fieldAt f n = v % 2 ^ n := by
  apply Nat.eq_of_testBit_eq
  intro i
  rw [Nat.testBit_mod_two_pow]
  by_cases hi : i < n
  · have := x.fieldAt_testBit f n (n - 1 - i) (by omega)
    rw [show n - 1 - (n - 1 - i) = i by omega] at this
    rw [this, h _ (by omega), show n - 1 - (n - 1 - i) = i by omega]
    simp [hi]
  · have : x.fieldAt f n < 2 ^ i := lt_of_lt_of_le (x.fieldAt_lt f n) (Nat.pow_le_pow_right (by omega) (by omega))
    simp [Nat.testBit_lt_two_pow this, hi]

/-- Two slots whose bits agree have the same field. -/
theorem Slot.fieldAt_congr (x y : Slot) (f n : Nat) (h : ∀ j, j < n → x.bitAt (f + j) = y.bitAt (f + j)) :
    x.fieldAt f n = y.fieldAt f n := by
  rw [x.fieldAt_eq f n (y.fieldAt f n) fun j hj => by rw [h j hj, y.fieldAt_testBit f n j hj],
    Nat.mod_eq_of_lt (y.fieldAt_lt f n)]

/-- `ReadBits`, both outcomes (R121). -/
theorem Slot.readBits_eq (x : Slot) (f n : Nat) :
    x.readBits f n = if f + n ≤ x.bitLen then .ok (x.fieldAt f n) else .error (outOfRange f) := by
  simp only [Slot.readBits]
  split_ifs <;> first | rfl | omega

/-- `ReadWide`, both outcomes (R123): the two reads put together are one field. -/
theorem Slot.readWide_eq (x : Slot) (f w : Nat) :
    x.readWide f w = if f + w ≤ x.bitLen then .ok (x.fieldAt f w) else .error (outOfRange f) := by
  simp only [Slot.readWide, gt_iff_lt]
  by_cases h : f + w ≤ x.bitLen
  · rw [if_neg (by omega), if_pos h]
    by_cases hw : 8 < w
    · have := x.fieldAt_add f (w - 8) 8
      rw [show w - 8 + 8 = w by omega, show f + (w - 8) = f + w - 8 by omega] at this
      rw [if_pos hw, Slot.readBits_eq, Slot.readBits_eq, if_pos (by omega), if_pos (by omega), this]
      rfl
    · rw [if_neg hw, Slot.readBits_eq, if_pos h]
  · rw [if_pos (by omega), if_neg h]

/-- The bits of a byte after a bit-field insert (R120): the field's bits in its place, the others as before. -/
theorem insertField_getLsbD (b : Byte) (lo n u j : Nat) (hj : j < 8) :
    (insertField b lo n u).getLsbD j = if lo ≤ j ∧ j < lo + n then u.testBit (j - lo) else b.getLsbD j := by
  have hb : b.toNat < 2 ^ 8 := b.isLt
  have hu : u % 2 ^ n < 2 ^ n := Nat.mod_lt _ (by positivity)
  have hlow : b.toNat % 2 ^ lo < 2 ^ lo := Nat.mod_lt _ (by positivity)
  have hsum : b.toNat / 2 ^ (lo + n) * 2 ^ (lo + n) + low u n * 2 ^ lo + b.toNat % 2 ^ lo =
      2 ^ (lo + n) * (b.toNat / 2 ^ (lo + n)) + (2 ^ lo * (u % 2 ^ n) + b.toNat % 2 ^ lo) := by
    simp only [low]; ring
  have hin : 2 ^ lo * (u % 2 ^ n) + b.toNat % 2 ^ lo < 2 ^ (lo + n) := by
    rw [pow_add]
    calc 2 ^ lo * (u % 2 ^ n) + b.toNat % 2 ^ lo < 2 ^ lo * (u % 2 ^ n) + 2 ^ lo := by omega
      _ = 2 ^ lo * (u % 2 ^ n + 1) := by ring
      _ ≤ 2 ^ lo * 2 ^ n := Nat.mul_le_mul_left _ hu
  rw [insertField, BitVec.getLsbD_ofNat, hsum]
  simp only [hj, decide_true, Bool.true_and]
  rw [Nat.testBit_two_pow_mul_add _ hin]
  by_cases h1 : j < lo + n
  · rw [if_pos h1, Nat.testBit_two_pow_mul_add _ hlow]
    by_cases h2 : j < lo
    · rw [if_pos h2, if_neg (by omega), Nat.testBit_mod_two_pow]
      simp [h2, BitVec.getLsbD]
    · rw [if_neg h2, if_pos (by omega), Nat.testBit_mod_two_pow]
      simp [show j - lo < n by omega]
  · rw [if_neg h1, if_neg (by omega), Nat.testBit_div_two_pow]
    rw [show j - (lo + n) + (lo + n) = j by omega]
    rfl

end Sys2Proof.Machine
end

