-- ==== Sys2Proof/Laws/Append.lean ====
section
/-!
SUPPORT. Appending: everything `AppendBits`, `AppendWide` and the sequence of appends can do (spec/40_bitbuffer.md R120, R122, spec/20_memory.md R59).
-/

namespace Sys2Proof.Machine

/-- The length from the bit length (R24). -/
theorem Slot.len_eq (x : Slot) (h : x.CursorOk) : x.len = (x.bitLen + 7) / 8 := by
  obtain ⟨h0, h1⟩ := x.bitLen_add h
  have := x.nfb.isLt
  by_cases hz : x.nfb = 0
  · have := h0 hz; omega
  · have := h1 hz; omega

/-- The cursor from the bit length (R24). -/
theorem Slot.nfb_eq (x : Slot) (h : x.CursorOk) : x.nfb.toNat = x.bitLen % 8 := by
  obtain ⟨h0, h1⟩ := x.bitLen_add h
  have := x.nfb.isLt
  by_cases hz : x.nfb = 0
  · have := h0 hz; simp [hz]; omega
  · have := h1 hz; omega

/-- `y` is `x` with the low `n` bits of `v` put at its end: what every append does when it does not fail. -/
structure Slot.GrownBy (x y : Slot) (v n : Nat) : Prop where
  bitLen : y.bitLen = x.bitLen + n
  cursor : y.CursorOk
  freq : y.freq = x.freq
  total : y.total = x.total
  new : ∀ j, j < n → y.bitAt (x.bitLen + j) = v.testBit (n - 1 - j)
  old : ∀ i, i < x.bitLen ∨ x.bitLen + n ≤ i → y.bitAt i = x.bitAt i

/-- Nothing put at the end. -/
theorem Slot.GrownBy.refl (x : Slot) (v : Nat) (h : x.CursorOk) : x.GrownBy x v 0 :=
  ⟨rfl, h, rfl, rfl, fun j hj => absurd hj (by omega), fun _ _ => rfl⟩

/-- Two pieces of a field, the top one first, are the field. -/
theorem Slot.GrownBy.trans {x y z : Slot} {u v m n : Nat} (h1 : x.GrownBy y u m) (h2 : y.GrownBy z v n)
    (hu : ∀ j, j < m → u.testBit (m - 1 - j) = v.testBit (m + n - 1 - j)) : x.GrownBy z v (m + n) where
  bitLen := by rw [h2.bitLen, h1.bitLen, Nat.add_assoc]
  cursor := h2.cursor
  freq := h2.freq.trans h1.freq
  total := h2.total.trans h1.total
  new j hj := by
    by_cases hm : j < m
    · rw [h2.old _ (.inl (by rw [h1.bitLen]; omega)), h1.new j hm, hu j hm]
    · have := h2.new (j - m) (by omega)
      rw [h1.bitLen, show x.bitLen + m + (j - m) = x.bitLen + j by omega] at this
      rw [this]
      congr 1; omega
  old i hi := by
    rw [h2.old i (by rw [h1.bitLen]; omega), h1.old i (by omega)]

/-- The field just put at the end reads back. -/
theorem Slot.GrownBy.fieldAt_new {x y : Slot} {v n : Nat} (h : x.GrownBy y v n) : y.fieldAt x.bitLen n = v % 2 ^ n :=
  y.fieldAt_eq _ _ _ h.new

/-- A field that was there before reads as before. -/
theorem Slot.GrownBy.fieldAt_old {x y : Slot} {v n : Nat} (h : x.GrownBy y v n) (f w : Nat) (hf : f + w ≤ x.bitLen) :
    y.fieldAt f w = x.fieldAt f w :=
  y.fieldAt_congr x f w fun j hj => h.old _ (.inl (by omega))

/-- The data after an append: the data before, then the field. -/
theorem Slot.GrownBy.dataBits {x y : Slot} {v n : Nat} (h : x.GrownBy y v n) :
    y.dataBits = x.dataBits ++ fieldBits v n := by
  simp only [Slot.dataBits, fieldBits, h.bitLen, List.range_add, List.map_append, List.map_map]
  congr 1
  · exact List.map_congr_left fun i hi => h.old i (.inl (List.mem_range.mp hi))
  · exact List.map_congr_left fun j hj => h.new j (List.mem_range.mp hj)

/-- Zero pad bits stay zero. -/
theorem Slot.GrownBy.padZero {x y : Slot} {v n : Nat} (h : x.GrownBy y v n) (hp : x.PadZero) : y.PadZero := fun i hi => by
  rw [h.bitLen] at hi
  rw [h.old i (.inr hi), hp i (by omega)]

/-- A function on the last entry of a list that ends in `b`. -/
@[simp] theorem onLast_concat (f : Byte → Byte) (pre : List Byte) (b : Byte) : onLast f (pre ++ [b]) = pre ++ [f b] := by
  simp [onLast]

/-- A stream bit of the last byte of a slot. -/
theorem Slot.bitAt_concat (x : Slot) (pre : List Byte) (b : Byte) (h : x.bytes = pre ++ [b]) (i : Nat) :
    x.bitAt i = if i / 8 < pre.length then (pre.getD (i / 8) 0).getLsbD (7 - i % 8)
      else if i / 8 = pre.length then b.getLsbD (7 - i % 8) else false := by
  rw [Slot.bitAt, h]
  split_ifs with h1 h2
  · rw [List.getD_append _ _ _ _ h1]
  · rw [List.getD_append_right _ _ _ _ (by omega)]; simp [h2]
  · rw [List.getD_append_right _ _ _ _ (by omega), List.getD_eq_default _ _ (by simp; omega)]; simp

/-- A stream bit of a slot. -/
theorem Slot.bitAt_bytes (x : Slot) (l : List Byte) (h : x.bytes = l) (i : Nat) :
    x.bitAt i = (l.getD (i / 8) 0).getLsbD (7 - i % 8) := by rw [Slot.bitAt, h]

/-- `AppendBits`, everything it can do (R120): it is full and changes nothing, or the slot has grown by the field and is dirty. -/
theorem Slot.appendBits_spec (cap : Nat) (x : Slot) (v n : Nat) (hc : x.CursorOk) (h1 : 1 ≤ n) (h8 : n ≤ 8) :
    (cap < (x.bitLen + n + 7) / 8 ∧ x.appendBits cap v n = .full x) ∨
    ((x.bitLen + n + 7) / 8 ≤ cap ∧
      ∃ y, x.appendBits cap v n = .done y ∧ x.GrownBy y v n ∧ y.dirty = true) := by
  obtain ⟨hb0, hb1⟩ := x.bitLen_add hc
  have hlt := x.nfb.isLt
  have hz : x.nfb = 0 ↔ x.nfb.toNat = 0 := ⟨fun e => by simp [e], fun e => BitVec.eq_of_toNat_eq (by simpa using e)⟩
  have hneed : (x.bitLen + n + 7) / 8 =
      x.len + if x.nfb.toNat = 0 ∨ n > 8 - x.nfb.toNat then 1 else 0 := by
    by_cases h0 : x.nfb = 0
    · have := hb0 h0; have := hz.mp h0; simp [this]; omega
    · have := hb1 h0; split <;> omega
  by_cases hcap : cap < (x.bitLen + n + 7) / 8
  · refine .inl ⟨hcap, ?_⟩
    simp only [Slot.appendBits]
    rw [if_pos (by omega)]
  refine .inr ⟨by omega, ?_⟩
  simp only [Slot.appendBits]
  rw [if_neg (by omega)]
  by_cases h0 : x.nfb = 0
  · -- a new byte is opened
    have hl := hb0 h0
    have h0' := hz.mp h0
    simp only [h0', if_true, Nat.sub_zero, if_pos h8, onLast_concat, Nat.zero_add]
    refine ⟨_, rfl, ?_, rfl⟩
    have hbl : ∀ (z : Slot), z.len = x.len + 1 → z.nfb = BitVec.ofNat 3 (n % 8) → z.bitLen = x.bitLen + n := by
      intro z hz1 hz2
      have : z.nfb = 0 ↔ n = 8 := by
        rw [hz2]; constructor
        · intro e; have := congrArg BitVec.toNat e; simp at this; omega
        · rintro rfl; rfl
      simp only [Slot.bitLen, this]
      split
      · omega
      · rw [hz2]; simp only [BitVec.toNat_ofNat]; omega
    refine ⟨hbl _ (by simp [Slot.len]) rfl, fun _ => by simp, rfl, rfl, fun j hj => ?_, fun i hi => ?_⟩
    · rw [Slot.bitAt_concat _ x.bytes _ rfl]
      simp only [Slot.len] at hl
      rw [if_neg (by omega), if_pos (by omega), insertField_getLsbD _ _ _ _ _ (by omega), if_pos (by omega), low,
        Nat.testBit_mod_two_pow]
      rw [show 7 - (x.bitLen + j) % 8 - (8 - n) = n - 1 - j by omega]
      simp [show n - 1 - j < n by omega]
    · rw [Slot.bitAt_concat _ x.bytes _ rfl]
      simp only [Slot.len] at hl
      split_ifs with hi1 hi2
      · rfl
      · rw [insertField_getLsbD _ _ _ _ _ (by omega), if_neg (by omega), Slot.bitAt_of_len_le _ _ (by
          simp only [Slot.len]; omega)]
        simp
      · rw [Slot.bitAt_of_len_le _ _ (by simp only [Slot.len]; omega)]
  · have hl := hb1 h0
    have h0' : x.nfb.toNat ≠ 0 := fun e => h0 (hz.mpr e)
    obtain ⟨pre, b, hpb⟩ : ∃ pre b, x.bytes = pre ++ [b] :=
      (List.eq_nil_or_concat' x.bytes).resolve_left (hc h0)
    have hlen : x.len = pre.length + 1 := by simp [Slot.len, hpb]
    simp only [if_neg h0', hpb, onLast_concat]
    by_cases hn : n ≤ 8 - x.nfb.toNat
    · -- the field fits in the last byte
      rw [if_pos hn]
      refine ⟨_, rfl, ?_, rfl⟩
      have hbl : ∀ (z : Slot), z.len = x.len → z.nfb = BitVec.ofNat 3 ((x.nfb.toNat + n) % 8) →
          z.bitLen = x.bitLen + n := by
        intro z hz1 hz2
        have : z.nfb = 0 ↔ x.nfb.toNat + n = 8 := by
          rw [hz2]; constructor
          · intro e; have := congrArg BitVec.toNat e; simp at this; omega
          · intro e; rw [e]; rfl
        simp only [Slot.bitLen, this]
        split
        · simp only [Slot.bitLen, if_neg h0] at hl ⊢; omega
        · rw [hz2]; simp only [BitVec.toNat_ofNat, Slot.bitLen, if_neg h0] at hl ⊢; omega
      refine ⟨hbl _ (by simp [Slot.len, hpb]) rfl, fun _ => by simp, rfl, rfl, fun j hj => ?_, fun i hi => ?_⟩
      · rw [Slot.bitAt_concat _ pre _ rfl]
        rw [if_neg (by omega), if_pos (by omega), insertField_getLsbD _ _ _ _ _ (by omega), if_pos (by omega), low,
          Nat.testBit_mod_two_pow]
        rw [show 7 - (x.bitLen + j) % 8 - (8 - x.nfb.toNat - n) = n - 1 - j by omega]
        simp [show n - 1 - j < n by omega]
      · rw [Slot.bitAt_concat _ pre _ rfl, Slot.bitAt_concat x pre b hpb]
        split_ifs with hi1 hi2
        · rfl
        · rw [insertField_getLsbD _ _ _ _ _ (by omega), if_neg (by omega)]
        · rfl
    · -- the field fills the last byte and opens another
      rw [if_neg hn]
      refine ⟨_, rfl, ?_, rfl⟩
      have hbl : ∀ (z : Slot), z.len = x.len + 1 → z.nfb = BitVec.ofNat 3 (n - (8 - x.nfb.toNat)) →
          z.bitLen = x.bitLen + n := by
        intro z hz1 hz2
        have : z.nfb ≠ 0 := by
          rw [hz2]; intro e; have := congrArg BitVec.toNat e; simp at this; omega
        simp only [Slot.bitLen, if_neg this]
        rw [hz2]; simp only [BitVec.toNat_ofNat, Slot.bitLen, if_neg h0] at hl ⊢; omega
      refine ⟨hbl _ (by simp [Slot.len, hpb]) rfl, fun _ => by simp, rfl, rfl, fun j hj => ?_, fun i hi => ?_⟩
      · rw [Slot.bitAt_concat _ _ _ rfl]
        simp only [List.length_append, List.length_singleton]
        split_ifs with hi1 hi2
        · rw [List.getD_append_right _ _ _ _ (by omega), show (x.bitLen + j) / 8 - pre.length = 0 by omega]
          simp only [List.getD_cons_zero]
          rw [insertField_getLsbD _ _ _ _ _ (by omega), if_pos (by omega), Nat.testBit_div_two_pow, low,
            Nat.testBit_mod_two_pow]
          rw [show 7 - (x.bitLen + j) % 8 - 0 + (n - (8 - x.nfb.toNat)) = n - 1 - j by omega]
          simp [show n - 1 - j < n by omega]
        · rw [insertField_getLsbD _ _ _ _ _ (by omega), if_pos (by omega), low, low,
            Nat.testBit_mod_two_pow, Nat.testBit_mod_two_pow]
          rw [show 7 - (x.bitLen + j) % 8 - (8 - (n - (8 - x.nfb.toNat))) = n - 1 - j by omega]
          simp [show n - 1 - j < n by omega, show n - 1 - j < n - (8 - x.nfb.toNat) by omega]
        · omega
      · rw [Slot.bitAt_concat _ _ _ rfl, Slot.bitAt_concat x pre b hpb]
        simp only [List.length_append, List.length_singleton]
        split_ifs with hi1 hi2 hi3 hi4 hi5 <;> try omega
        · rw [List.getD_append _ _ _ _ (by omega)]
        · rw [List.getD_append_right _ _ _ _ (by omega), show i / 8 - pre.length = 0 by omega]
          simp only [List.getD_cons_zero]
          rw [insertField_getLsbD _ _ _ _ _ (by omega), if_neg (by omega)]
        · rw [insertField_getLsbD _ _ _ _ _ (by omega), if_neg (by omega)]
          simp
        · rfl

/-- `AppendWide`, everything it can do (R122): the slot has grown by the whole field and is dirty, or it is full and has grown by
the first piece where that one fits, else by nothing. -/
theorem Slot.appendWide_spec (cap : Nat) (x : Slot) (v w : Nat) (hc : x.CursorOk) (h1 : 1 ≤ w) (h16 : w ≤ 16) :
    (cap < (x.bitLen + w + 7) / 8 ∧ ∃ y m, x.appendWide cap v w = .full y ∧ m < w ∧
      m = (if 8 < w ∧ x.bitLen + (w - 8) ≤ 8 * cap then w - 8 else 0) ∧
      x.GrownBy y (low v w / 2 ^ (w - m)) m ∧ (y = x ∨ y.dirty = true)) ∨
    ((x.bitLen + w + 7) / 8 ≤ cap ∧
      ∃ y, x.appendWide cap v w = .done y ∧ x.GrownBy y v w ∧ y.dirty = true) := by
  simp only [Slot.appendWide, if_neg (show w ≠ 0 by omega)]
  by_cases h8 : w ≤ 8
  · rw [if_neg (by omega)]
    obtain ⟨hf, e⟩ | ⟨hf, y, e, hy⟩ := x.appendBits_spec cap v w hc h1 h8
    · exact .inl ⟨hf, x, 0, e, by omega, by rw [if_neg (by omega)], .refl x _ hc, .inl rfl⟩
    · exact .inr ⟨hf, y, e, hy⟩
  rw [if_pos (by omega)]
  have hbit : ∀ j, j < w - 8 → (low v w / 256).testBit (w - 8 - 1 - j) = v.testBit (w - 8 + 8 - 1 - j) := by
    intro j hj
    rw [show 256 = 2 ^ 8 by rfl, Nat.testBit_div_two_pow, low, Nat.testBit_mod_two_pow]
    rw [show w - 8 - 1 - j + 8 = w - 8 + 8 - 1 - j by omega, decide_eq_true (by omega), Bool.true_and]
  obtain ⟨hf, e⟩ | ⟨hf, y, e, hy, hd⟩ := x.appendBits_spec cap (low v w / 256) (w - 8) hc (by omega) (by omega)
  · rw [e]
    exact .inl ⟨by omega, x, 0, rfl, by omega, by rw [if_neg (by omega)], .refl x _ hc, .inl rfl⟩
  · rw [e]
    have hb := hy.bitLen
    obtain ⟨hf', e'⟩ | ⟨hf', z, e', hz, hd'⟩ := y.appendBits_spec cap (low v 8) 8 hy.cursor (by omega) (by omega)
    · refine .inl ⟨by omega, y, w - 8, e', by omega, by rw [if_pos (by omega)], ?_, .inr hd⟩
      rwa [show w - (w - 8) = 8 by omega]
    · refine .inr ⟨by omega, z, e', ?_, hd'⟩
      have hz' : y.GrownBy z v 8 :=
        ⟨hz.bitLen, hz.cursor, hz.freq, hz.total, fun j hj => by
          rw [hz.new j hj, low, Nat.testBit_mod_two_pow]; simp [show 8 - 1 - j < 8 by omega], hz.old⟩
      have := hy.trans hz' hbit
      rwa [show w - 8 + 8 = w by omega] at this

/-- `y` is `x` with the given bits after its data. -/
structure Slot.ExtendedBy (x y : Slot) (bits : List Bool) : Prop where
  dataBits : y.dataBits = x.dataBits ++ bits
  cursor : y.CursorOk
  freq : y.freq = x.freq
  total : y.total = x.total
  padZero : x.PadZero → y.PadZero

/-- The data bits are as many as the bit length says (R24). -/
@[simp] theorem Slot.dataBits_length (x : Slot) : x.dataBits.length = x.bitLen := by simp [Slot.dataBits]

/-- A field has as many bits as its width. -/
@[simp] theorem fieldBits_length (v w : Nat) : (fieldBits v w).length = w := by simp [fieldBits]

/-- The bits of a field depend on its low bits only. -/
theorem fieldBits_low (v w : Nat) : fieldBits (low v w) w = fieldBits v w := by
  refine List.map_congr_left fun j hj => ?_
  have := List.mem_range.mp hj
  rw [low, Nat.testBit_mod_two_pow]
  simp [show w - 1 - j < w by omega]

/-- The top bits of a field are the beginning of its bits. -/
theorem fieldBits_prefix (v w m : Nat) (h : m ≤ w) : fieldBits (low v w / 2 ^ (w - m)) m <+: fieldBits v w := by
  refine ⟨(List.range (w - m)).map fun j => v.testBit (w - 1 - (m + j)), ?_⟩
  have : List.range w = List.range m ++ (List.range (w - m)).map (m + ·) := by
    rw [← List.range_add, show m + (w - m) = w by omega]
  simp only [fieldBits, this, List.map_append, List.map_map]
  congr 1
  refine List.map_congr_left fun j hj => ?_
  have := List.mem_range.mp hj
  rw [Nat.testBit_div_two_pow, low, Nat.testBit_mod_two_pow, show m - 1 - j + (w - m) = w - 1 - j by omega]
  simp [show w - 1 - j < w by omega]

/-- A slot is itself with no bits after its data. -/
theorem Slot.ExtendedBy.refl (x : Slot) (h : x.CursorOk) : x.ExtendedBy x [] := ⟨by simp, h, rfl, rfl, id⟩

/-- Bits after bits. -/
theorem Slot.ExtendedBy.trans {x y z : Slot} {b c : List Bool} (h1 : x.ExtendedBy y b) (h2 : y.ExtendedBy z c) :
    x.ExtendedBy z (b ++ c) :=
  ⟨by rw [h2.dataBits, h1.dataBits, List.append_assoc], h2.cursor, h2.freq.trans h1.freq, h2.total.trans h1.total,
    fun h => h2.padZero (h1.padZero h)⟩

/-- Growing by a field puts the field's bits after the data. -/
theorem Slot.GrownBy.extendedBy {x y : Slot} {v n : Nat} (h : x.GrownBy y v n) : x.ExtendedBy y (fieldBits v n) :=
  ⟨h.dataBits, h.cursor, h.freq, h.total, h.padZero⟩

/-- The bit length after more bits. -/
theorem Slot.ExtendedBy.bitLen {x y : Slot} {b : List Bool} (h : x.ExtendedBy y b) : y.bitLen = x.bitLen + b.length := by
  simpa using congrArg List.length h.dataBits

/-- A slot is determined in its data by them: the field read at `f` is a piece of the data bits. -/
theorem Slot.fieldBits_fieldAt (x : Slot) (f n : Nat) (h : f + n ≤ x.bitLen) :
    fieldBits (x.fieldAt f n) n = (x.dataBits.drop f).take n := by
  apply List.ext_getElem?
  intro j
  by_cases hj : j < n
  · simp only [fieldBits, Slot.dataBits]
    rw [List.getElem?_take_of_lt hj, List.getElem?_drop, List.getElem?_map, List.getElem?_map,
      List.getElem?_range hj, List.getElem?_range (by omega)]
    simp [x.fieldAt_testBit f n j hj]
  · rw [List.getElem?_eq_none (by simp; omega), List.getElem?_eq_none (by simp; omega)]

/-- A number that fits in its field is read back from the field's bits. -/
theorem fieldBits_injective (u v w : Nat) (hu : u < 2 ^ w) (hv : v < 2 ^ w) (h : fieldBits u w = fieldBits v w) : u = v := by
  apply Nat.eq_of_testBit_eq
  intro i
  by_cases hi : i < w
  · have := congrArg (fun l => l[w - 1 - i]?) h
    simp only [fieldBits, List.getElem?_map, List.getElem?_range (show w - 1 - i < w by omega), Option.map_some,
      Option.some.injEq] at this
    rwa [show w - 1 - (w - 1 - i) = i by omega] at this
  · rw [Nat.testBit_lt_two_pow (lt_of_lt_of_le hu (Nat.pow_le_pow_right (by omega) (by omega))),
      Nat.testBit_lt_two_pow (lt_of_lt_of_le hv (Nat.pow_le_pow_right (by omega) (by omega)))]

/-- The top bits of a field, as a beginning of its bits. -/
theorem fieldBits_take (v w m : Nat) (h : m ≤ w) : fieldBits (low v w / 2 ^ (w - m)) m = (fieldBits v w).take m := by
  have := List.prefix_iff_eq_take.mp (fieldBits_prefix v w m h)
  rwa [fieldBits_length] at this

/-! ### Fields as sequences of bit appends (R122) -/

/-- Bit appends one after the other, up to the first that does not fit. -/
def Slot.appendPieces (cap : Nat) (x : Slot) : List (Nat × Nat) → Appended
  | [] => .done x
  | (v, n) :: rest =>
    match x.appendBits cap v n with
    | .done y => y.appendPieces cap rest
    | .full y => .full y

/-- Bit appends after bit appends. -/
theorem Slot.appendPieces_append (cap : Nat) (ps qs : List (Nat × Nat)) : ∀ x : Slot,
    x.appendPieces cap (ps ++ qs) =
      match x.appendPieces cap ps with
      | .done y => y.appendPieces cap qs
      | .full y => .full y := by
  induction ps with
  | nil => exact fun _ => rfl
  | cons p ps ih =>
    intro x
    simp only [List.cons_append, Slot.appendPieces]
    cases x.appendBits cap p.1 p.2 with
    | done y => exact ih y
    | full y => rfl

/-- `AppendWide` is its bit appends. -/
theorem Slot.appendWide_eq_pieces (cap : Nat) (x : Slot) (v w : Nat) :
    x.appendWide cap v w = x.appendPieces cap (piecesOf (v, w)) := by
  have hone : ∀ (y : Slot) (u n : Nat), y.appendPieces cap [(u, n)] = y.appendBits cap u n := fun y u n => by
    simp only [Slot.appendPieces]
    cases y.appendBits cap u n <;> rfl
  simp only [Slot.appendWide, piecesOf]
  by_cases h0 : w = 0
  · simp [h0, Slot.appendPieces]
  by_cases h8 : w ≤ 8
  · rw [if_neg h0, if_neg (by omega), if_neg h0, if_pos h8, hone]
  · rw [if_neg h0, if_pos (by omega), if_neg h0, if_neg h8, Slot.appendPieces]
    simp only [hone, low]
    rfl

/-- The appends of fields are the bit appends of their pieces. -/
theorem Slot.appendFields_eq_pieces (cap : Nat) (fields : List (Nat × Nat)) : ∀ x : Slot,
    x.appendFields cap fields = x.appendPieces cap (pieces fields) := by
  induction fields with
  | nil => exact fun _ => rfl
  | cons f rest ih =>
    intro x
    rw [Slot.appendFields, show pieces (f :: rest) = piecesOf f ++ pieces rest from rfl, Slot.appendPieces_append,
      Slot.appendWide_eq_pieces]
    cases x.appendPieces cap (piecesOf f) with
    | done y => exact ih y
    | full y => rfl

/-- The pieces of a field have its bits. -/
theorem fieldsBits_piecesOf (f : Nat × Nat) : fieldsBits (piecesOf f) = fieldBits f.1 f.2 := by
  obtain ⟨v, w⟩ := f
  simp only [piecesOf]
  by_cases h0 : w = 0
  · simp [h0, fieldsBits, fieldBits]
  by_cases h8 : w ≤ 8
  · rw [if_neg h0, if_pos h8]; simp [fieldsBits]
  · rw [if_neg h0, if_neg h8]
    have h1 := fieldBits_take v w (w - 8) (by omega)
    rw [show w - (w - 8) = 8 by omega] at h1
    have h2 : fieldBits (v % 256) 8 = (fieldBits v w).drop (w - 8) := by
      rw [show v % 256 = low v 8 from rfl, fieldBits_low]
      apply List.ext_getElem?
      intro j
      by_cases hj : j < 8
      · rw [List.getElem?_drop]
        simp only [fieldBits, List.getElem?_map]
        rw [List.getElem?_range hj, List.getElem?_range (by omega), Option.map_some, Option.map_some]
        congr 2; omega
      · rw [List.getElem?_eq_none (by simp; omega), List.getElem?_eq_none (by simp; omega)]
    have h3 : fieldBits (v % 2 ^ w / 256) (w - 8) = (fieldBits v w).take (w - 8) := h1
    simp only [fieldsBits, List.flatMap_cons, List.flatMap_nil, List.append_nil, h2, h3]
    exact List.take_append_drop _ _

/-- The pieces of fields have their bits. -/
theorem fieldsBits_pieces (fields : List (Nat × Nat)) : fieldsBits (pieces fields) = fieldsBits fields := by
  induction fields with
  | nil => rfl
  | cons f rest ih =>
    rw [show pieces (f :: rest) = piecesOf f ++ pieces rest from rfl, show fieldsBits (f :: rest) =
      fieldBits f.1 f.2 ++ fieldsBits rest from rfl, ← ih, ← fieldsBits_piecesOf f]
    simp [fieldsBits]

/-- The pieces of fields of at most sixteen bits have one to eight bits. -/
theorem pieces_width (fields : List (Nat × Nat)) (h : ∀ f ∈ fields, f.2 ≤ 16) :
    ∀ p ∈ pieces fields, 1 ≤ p.2 ∧ p.2 ≤ 8 := by
  intro p hp
  obtain ⟨f, hf, hpf⟩ := List.mem_flatMap.mp hp
  have := h f hf
  simp only [piecesOf] at hpf
  split_ifs at hpf <;> simp at hpf
  · subst hpf; omega
  · rcases hpf with rfl | rfl <;> simp; omega

/-- Bit appends, everything they can do (R248): all stand after the data and fit, or those before the first that does not fit. -/
theorem Slot.appendPieces_spec (cap : Nat) (ps : List (Nat × Nat)) (hw : ∀ p ∈ ps, 1 ≤ p.2 ∧ p.2 ≤ 8) :
    ∀ x : Slot, x.CursorOk → x.bitLen ≤ 8 * cap →
    (∃ y before v n after, x.appendPieces cap ps = .full y ∧ ps = before ++ (v, n) :: after ∧
      x.ExtendedBy y (fieldsBits before) ∧ (x.dirty = true → y.dirty = true) ∧
      y.bitLen ≤ 8 * cap ∧ 8 * cap < y.bitLen + n) ∨
    (∃ y, x.appendPieces cap ps = .done y ∧ x.ExtendedBy y (fieldsBits ps) ∧ (x.dirty = true → y.dirty = true) ∧
      y.bitLen ≤ 8 * cap) := by
  induction ps with
  | nil => exact fun x hc hx => .inr ⟨x, rfl, .refl x hc, id, hx⟩
  | cons p rest ih =>
    obtain ⟨v, n⟩ := p
    intro x hc hx
    obtain ⟨h1, h8⟩ := hw (v, n) (by simp)
    have hf : ∀ l, fieldsBits ((v, n) :: l) = fieldBits v n ++ fieldsBits l := fun _ => rfl
    simp only [Slot.appendPieces]
    obtain ⟨hcap, e⟩ | ⟨hcap, y, e, hg, hd⟩ := x.appendBits_spec cap v n hc h1 h8
    · rw [e]
      exact .inl ⟨x, [], v, n, rest, rfl, rfl, .refl x hc, id, hx, by omega⟩
    · rw [e]
      obtain ⟨z, before, u, m, after, e', rfl, hz, hd', h'⟩ | ⟨z, e', hz, hd', h'⟩ :=
        ih (fun p hp => hw p (by simp [hp])) y hg.cursor (by rw [hg.bitLen]; omega)
      · exact .inl ⟨z, (v, n) :: before, u, m, after, e', rfl, hf before ▸ hg.extendedBy.trans hz, fun _ => hd' hd, h'⟩
      · exact .inr ⟨z, e', hf rest ▸ hg.extendedBy.trans hz, fun _ => hd' hd, h'⟩

/-- The sequence of field appends, everything it can do: all fields stand after the data and fit, or the bit appends before the
first one that does not fit do (R248). -/
theorem Slot.appendFields_spec (cap : Nat) (fields : List (Nat × Nat)) (hw : ∀ f ∈ fields, f.2 ≤ 16) (x : Slot)
    (hc : x.CursorOk) (hx : x.bitLen ≤ 8 * cap) :
    (∃ y before v n after, x.appendFields cap fields = .full y ∧ pieces fields = before ++ (v, n) :: after ∧
      x.ExtendedBy y (fieldsBits before) ∧ (x.dirty = true → y.dirty = true) ∧
      y.bitLen ≤ 8 * cap ∧ 8 * cap < y.bitLen + n) ∨
    (∃ y, x.appendFields cap fields = .done y ∧ x.ExtendedBy y (fieldsBits fields) ∧ (x.dirty = true → y.dirty = true) ∧
      y.bitLen ≤ 8 * cap) := by
  have := x.appendPieces_spec cap (pieces fields) (pieces_width fields hw) hc hx
  rwa [← Slot.appendFields_eq_pieces, fieldsBits_pieces] at this

end Sys2Proof.Machine
end

