-- ==== Sys2Proof/Laws/State.lean ====
section
/-!
SUPPORT. The small lemmas of the state: one per field and update, so that no proof unfolds a record update, and reading a slot
after writing one.
-/

namespace Sys2Proof.Machine

section Raise
variable (s : State) (f : Failure)

@[simp] theorem State.raise_slots : (s.raise f).slots = s.slots := rfl
@[simp] theorem State.raise_cap : (s.raise f).cap = s.cap := rfl
@[simp] theorem State.raise_arg : (s.raise f).arg = s.arg := rfl
@[simp] theorem State.raise_tfnum : (s.raise f).tfnum = s.tfnum := rfl
@[simp] theorem State.raise_tfden : (s.raise f).tfden = s.tfden := rfl
@[simp] theorem State.raise_status : (s.raise f).status = f.kind.code.setWidth 32 := rfl
@[simp] theorem State.raise_einfo : (s.raise f).einfo = f.info := rfl
@[simp] theorem State.raise_res : (s.raise f).res = s.res := rfl
@[simp] theorem State.raise_res2 : (s.raise f).res2 = s.res2 := rfl
@[simp] theorem State.raise_resf : (s.raise f).resf = s.resf := rfl
@[simp] theorem State.raise_host : (s.raise f).host = s.host := rfl
@[simp] theorem State.raise_din : (s.raise f).din = s.din := rfl
@[simp] theorem State.raise_freeCount : (s.raise f).freeCount = s.freeCount := rfl
@[simp] theorem State.raise_dout : (s.raise f).dout = s.dout := rfl
@[simp] theorem State.raise_replies : (s.raise f).replies = s.replies := rfl
@[simp] theorem State.raise_nbuf : (s.raise f).nbuf = s.nbuf := rfl
@[simp] theorem State.raise_slot (b : SlotNo) : (s.raise f).slot b = s.slot b := rfl
@[simp] theorem State.raise_readByte (b : SlotNo) (a : Nat) : (s.raise f).readByte b a = s.readByte b a := rfl

end Raise

section Succeed
variable (s : State)

@[simp] theorem State.succeed_slots : s.succeed.slots = s.slots := rfl
@[simp] theorem State.succeed_cap : s.succeed.cap = s.cap := rfl
@[simp] theorem State.succeed_arg : s.succeed.arg = s.arg := rfl
@[simp] theorem State.succeed_tfnum : s.succeed.tfnum = s.tfnum := rfl
@[simp] theorem State.succeed_tfden : s.succeed.tfden = s.tfden := rfl
@[simp] theorem State.succeed_status : s.succeed.status = 0 := rfl
@[simp] theorem State.succeed_einfo : s.succeed.einfo = s.einfo := rfl
@[simp] theorem State.succeed_res : s.succeed.res = s.res := rfl
@[simp] theorem State.succeed_res2 : s.succeed.res2 = s.res2 := rfl
@[simp] theorem State.succeed_resf : s.succeed.resf = s.resf := rfl
@[simp] theorem State.succeed_host : s.succeed.host = s.host := rfl
@[simp] theorem State.succeed_din : s.succeed.din = s.din := rfl
@[simp] theorem State.succeed_freeCount : s.succeed.freeCount = s.freeCount := rfl
@[simp] theorem State.succeed_dout : s.succeed.dout = s.dout := rfl
@[simp] theorem State.succeed_replies : s.succeed.replies = s.replies := rfl
@[simp] theorem State.succeed_nbuf : s.succeed.nbuf = s.nbuf := rfl
@[simp] theorem State.succeed_slot (b : SlotNo) : s.succeed.slot b = s.slot b := rfl
@[simp] theorem State.succeed_readByte (b : SlotNo) (a : Nat) : s.succeed.readByte b a = s.readByte b a := rfl

end Succeed

section SetSlot
variable (s : State) (b : SlotNo) (x : Slot)

@[simp] theorem State.setSlot_slots : (s.setSlot b x).slots = s.slots.set b.toNat x := rfl
@[simp] theorem State.setSlot_cap : (s.setSlot b x).cap = s.cap := rfl
@[simp] theorem State.setSlot_arg : (s.setSlot b x).arg = s.arg := rfl
@[simp] theorem State.setSlot_tfnum : (s.setSlot b x).tfnum = s.tfnum := rfl
@[simp] theorem State.setSlot_tfden : (s.setSlot b x).tfden = s.tfden := rfl
@[simp] theorem State.setSlot_status : (s.setSlot b x).status = s.status := rfl
@[simp] theorem State.setSlot_einfo : (s.setSlot b x).einfo = s.einfo := rfl
@[simp] theorem State.setSlot_res : (s.setSlot b x).res = s.res := rfl
@[simp] theorem State.setSlot_res2 : (s.setSlot b x).res2 = s.res2 := rfl
@[simp] theorem State.setSlot_resf : (s.setSlot b x).resf = s.resf := rfl
@[simp] theorem State.setSlot_host : (s.setSlot b x).host = s.host := rfl
@[simp] theorem State.setSlot_din : (s.setSlot b x).din = s.din := rfl
@[simp] theorem State.setSlot_freeCount : (s.setSlot b x).freeCount = s.freeCount := rfl
@[simp] theorem State.setSlot_dout : (s.setSlot b x).dout = s.dout := rfl
@[simp] theorem State.setSlot_replies : (s.setSlot b x).replies = s.replies := rfl
@[simp] theorem State.setSlot_nbuf : (s.setSlot b x).nbuf = s.nbuf := by simp [State.nbuf]

/-- The slot written reads as written. -/
@[simp] theorem State.slot_setSlot_same (h : b.toNat < s.nbuf) : (s.setSlot b x).slot b = x := by
  simp only [State.nbuf] at h
  simp [State.slot, h]

/-- Every other slot reads as before: slots share no storage (R21). -/
theorem State.slot_setSlot_other (k : SlotNo) (h : k ≠ b) : (s.setSlot b x).slot k = s.slot k := by
  have hn : b.toNat ≠ k.toNat := fun e => h (BitVec.eq_of_toNat_eq e.symm)
  simp [State.slot, List.getElem?_set_ne hn]

/-- Writing two slots one after the other, the same one: the second stays. -/
@[simp] theorem State.setSlot_setSlot (y : Slot) : (s.setSlot b x).setSlot b y = s.setSlot b y := by
  simp [State.setSlot]

/-- Every byte of another slot reads as before. -/
theorem State.readByte_setSlot_other (k : SlotNo) (a : Nat) (h : k ≠ b) :
    (s.setSlot b x).readByte k a = s.readByte k a := by
  simp [State.readByte, State.slot_setSlot_other s b x k h]

/-- A byte of the slot written is the byte of what was written. -/
theorem State.readByte_setSlot_same (a : Nat) (h : b.toNat < s.nbuf) :
    (s.setSlot b x).readByte b a = x.bytes[a]? := by
  simp [State.readByte, memRead, h]

end SetSlot

section Streams
variable (s : State)

@[simp] theorem State.dropDin_slots (c : Nat) : (s.dropDin c).slots = s.slots := rfl
@[simp] theorem State.dropDin_cap (c : Nat) : (s.dropDin c).cap = s.cap := rfl
@[simp] theorem State.dropDin_arg (c : Nat) : (s.dropDin c).arg = s.arg := rfl
@[simp] theorem State.dropDin_tfnum (c : Nat) : (s.dropDin c).tfnum = s.tfnum := rfl
@[simp] theorem State.dropDin_tfden (c : Nat) : (s.dropDin c).tfden = s.tfden := rfl
@[simp] theorem State.dropDin_status (c : Nat) : (s.dropDin c).status = s.status := rfl
@[simp] theorem State.dropDin_einfo (c : Nat) : (s.dropDin c).einfo = s.einfo := rfl
@[simp] theorem State.dropDin_res (c : Nat) : (s.dropDin c).res = s.res := rfl
@[simp] theorem State.dropDin_res2 (c : Nat) : (s.dropDin c).res2 = s.res2 := rfl
@[simp] theorem State.dropDin_resf (c : Nat) : (s.dropDin c).resf = s.resf := rfl
@[simp] theorem State.dropDin_host (c : Nat) : (s.dropDin c).host = s.host := rfl
@[simp] theorem State.dropDin_din (c : Nat) : (s.dropDin c).din = s.din.drop c := rfl
@[simp] theorem State.dropDin_dout (c : Nat) : (s.dropDin c).dout = s.dout := rfl
@[simp] theorem State.dropDin_replies (c : Nat) : (s.dropDin c).replies = s.replies := rfl
@[simp] theorem State.dropDin_nbuf (c : Nat) : (s.dropDin c).nbuf = s.nbuf := rfl
@[simp] theorem State.dropDin_slot (c : Nat) (b : SlotNo) : (s.dropDin c).slot b = s.slot b := rfl

@[simp] theorem State.emit_slots (l : List Byte) : (s.emit l).slots = s.slots := rfl
@[simp] theorem State.emit_cap (l : List Byte) : (s.emit l).cap = s.cap := rfl
@[simp] theorem State.emit_arg (l : List Byte) : (s.emit l).arg = s.arg := rfl
@[simp] theorem State.emit_tfnum (l : List Byte) : (s.emit l).tfnum = s.tfnum := rfl
@[simp] theorem State.emit_tfden (l : List Byte) : (s.emit l).tfden = s.tfden := rfl
@[simp] theorem State.emit_status (l : List Byte) : (s.emit l).status = s.status := rfl
@[simp] theorem State.emit_einfo (l : List Byte) : (s.emit l).einfo = s.einfo := rfl
@[simp] theorem State.emit_res (l : List Byte) : (s.emit l).res = s.res := rfl
@[simp] theorem State.emit_res2 (l : List Byte) : (s.emit l).res2 = s.res2 := rfl
@[simp] theorem State.emit_resf (l : List Byte) : (s.emit l).resf = s.resf := rfl
@[simp] theorem State.emit_host (l : List Byte) : (s.emit l).host = s.host := rfl
@[simp] theorem State.emit_din (l : List Byte) : (s.emit l).din = s.din := rfl
@[simp] theorem State.emit_freeCount (l : List Byte) : (s.emit l).freeCount = s.freeCount := rfl
@[simp] theorem State.emit_dout (l : List Byte) : (s.emit l).dout = s.dout ++ l := rfl
@[simp] theorem State.emit_replies (l : List Byte) : (s.emit l).replies = s.replies := rfl
@[simp] theorem State.emit_nbuf (l : List Byte) : (s.emit l).nbuf = s.nbuf := rfl
@[simp] theorem State.emit_slot (l : List Byte) (b : SlotNo) : (s.emit l).slot b = s.slot b := rfl

/-- The bytes a load takes are as many as asked for (R131). -/
@[simp] theorem State.dinBytes_length (c : Nat) : (s.dinBytes c).length = c := by simp [State.dinBytes]

/-- The bytes a load takes are those on the stream, as far as the host supplied them (R131). -/
theorem State.dinBytes_getElem? (c k : Nat) (hk : k < c) (hd : k < s.din.length) :
    (s.dinBytes c)[k]? = s.din[k]? := by
  simp [State.dinBytes, State.dinByte, hk, hd]

end Streams

section SlotUpdates
variable (x : Slot)

@[simp] theorem Slot.cleared_bytes : x.cleared.bytes = [] := rfl
@[simp] theorem Slot.cleared_nfb : x.cleared.nfb = 0 := rfl
@[simp] theorem Slot.cleared_dirty : x.cleared.dirty = true := rfl
@[simp] theorem Slot.cleared_freq : x.cleared.freq = x.freq := rfl
@[simp] theorem Slot.cleared_total : x.cleared.total = x.total := rfl
@[simp] theorem Slot.markDirty_bytes : x.markDirty.bytes = x.bytes := rfl
@[simp] theorem Slot.markDirty_nfb : x.markDirty.nfb = x.nfb := rfl
@[simp] theorem Slot.markDirty_dirty : x.markDirty.dirty = true := rfl
@[simp] theorem Slot.markDirty_freq : x.markDirty.freq = x.freq := rfl
@[simp] theorem Slot.markDirty_total : x.markDirty.total = x.total := rfl
@[simp] theorem Slot.markDirty_refresh : x.markDirty.refresh = x.refresh := rfl
@[simp] theorem Slot.refresh_bytes : x.refresh.bytes = x.bytes := rfl
@[simp] theorem Slot.refresh_nfb : x.refresh.nfb = x.nfb := rfl
@[simp] theorem Slot.refresh_dirty : x.refresh.dirty = false := rfl
@[simp] theorem Slot.refresh_freq : x.refresh.freq = countAll x.bytes := rfl
@[simp] theorem Slot.refresh_total : x.refresh.total = BitVec.ofNat 32 x.bytes.length := rfl

end SlotUpdates

end Sys2Proof.Machine
end

