-- ==== Sys2Proof/Laws/Statistics.lean ====
section
/-!
SUPPORT. The 256 byte values, and what a refresh leaves in the counters (spec/41_statistics.md R150).
-/

namespace Sys2Proof.Machine

@[simp] theorem allBytes_length : allBytes.length = 256 := by simp [allBytes]

/-- Entry `k` of the byte values is the byte value `k`. -/
theorem allBytes_getElem? (k : Nat) (h : k < 256) : allBytes[k]? = some (BitVec.ofNat 8 k) := by
  simp [allBytes, h]

/-- Every byte value is one of the 256. -/
@[simp] theorem mem_allBytes (v : Byte) : v ∈ allBytes := by
  have := v.isLt
  exact List.mem_map.mpr ⟨v.toNat, List.mem_range.mpr (by omega), by simp⟩

/-- No byte value stands twice among the 256. -/
theorem allBytes_nodup : allBytes.Nodup := by
  rw [allBytes, List.nodup_map_iff_inj_on List.nodup_range]
  intro a ha b hb h
  have := congrArg BitVec.toNat h
  simp only [List.mem_range] at ha hb
  simp only [BitVec.toNat_ofNat] at this
  omega

@[simp] theorem countAll_length (l : List Byte) : (countAll l).length = 256 := by simp [countAll]

/-- The counter of a byte value after a refresh, modulo the width of the counter (R27, R150). -/
theorem Slot.freqOf_refresh_mod (x : Slot) (v : Byte) : x.refresh.freqOf v = x.bytes.count v % 2 ^ 32 := by
  have := v.isLt
  simp [Slot.freqOf, Slot.refresh, countAll, List.getElem?_map, List.getElem?_range (show v.toNat < 256 by omega)]

/-- The counter of a byte value after a refresh of a slot of fewer than `2^32` bytes, as every slot is (R7). -/
theorem Slot.freqOf_refresh (x : Slot) (v : Byte) (h : x.bytes.length < 2 ^ 32) : x.refresh.freqOf v = x.bytes.count v := by
  have : x.bytes.count v ≤ x.bytes.length := List.count_le_length
  rw [x.freqOf_refresh_mod, Nat.mod_eq_of_lt (by omega)]

/-- The total after a refresh (R150). -/
theorem Slot.total_refresh (x : Slot) (h : x.bytes.length < 2 ^ 32) : x.refresh.total.toNat = x.bytes.length := by
  rw [Slot.refresh_total, BitVec.toNat_ofNat, Nat.mod_eq_of_lt h]

/-- The counts of the byte values of a list, each once, add up to its length. -/
theorem sum_count (l : List Byte) : (allBytes.map fun v => l.count v).sum = l.length := by
  rw [← List.sum_toFinset _ allBytes_nodup]
  rw [show allBytes.toFinset = Finset.univ by ext v; simp]
  induction l with
  | nil => simp
  | cons a l ih =>
    simp only [List.count_cons, Finset.sum_add_distrib, ih, List.length_cons]
    simp

/-- Refreshed counters describe the bytes and add up (R150, R158). -/
theorem Slot.refresh_describes (x : Slot) (h : x.bytes.length < 2 ^ 32) :
    x.refresh.StatsDescribe ∧ x.refresh.freqSum = x.refresh.total.toNat ∧ x.refresh.freqSum = x.bytes.length := by
  have hs : x.refresh.freqSum = x.bytes.length := by
    rw [Slot.freqSum, List.map_congr_left fun v _ => x.freqOf_refresh v h, sum_count]
  exact ⟨⟨rfl, x.total_refresh h, fun v => x.freqOf_refresh v h⟩, by rw [hs, x.total_refresh h], hs⟩

/-- Statistics that describe the bytes add up. -/
theorem Slot.StatsDescribe.freqSum {x : Slot} (h : x.StatsDescribe) : x.freqSum = x.total.toNat := by
  rw [Slot.freqSum, List.map_congr_left fun v _ => h.2.2 v, sum_count, h.2.1]; rfl

/-- One counter is at most the sum of all. -/
theorem Slot.freqOf_le_freqSum (x : Slot) (v : Byte) : x.freqOf v ≤ x.freqSum :=
  List.single_le_sum (by simp) _ (List.mem_map_of_mem (mem_allBytes v))

/-- A byte has at most eight 1 bits (R13). -/
theorem popcount_le (v : Byte) : popcount v ≤ 8 := by
  simpa [popcount] using List.countP_le_length (p := fun i => v.getLsbD i) (l := List.range 8)

/-- The counted 1 bits are at most eight a byte (R157). -/
theorem Slot.ones_le (x : Slot) : x.ones ≤ 8 * x.freqSum := by
  rw [Slot.ones, Slot.freqSum, ← List.sum_map_mul_left]
  refine List.sum_le_sum fun v _ => ?_
  have := Nat.mul_le_mul_left (x.freqOf v) (popcount_le v)
  omega

end Sys2Proof.Machine
end

