-- ==== Sys2Proof/Laws/Builder.lean ====
section
/-!
SUPPORT. The parts of `Assign` (spec/42_codebook_builder.md R171 to R176): the logarithm, the sort, the walk, the two widths.
-/

namespace Sys2Proof.Machine

/-! ### `clog2` (spec/00_scope.md R13) -/

/-- The search finds the least exponent from its start on, given enough turns. -/
theorem clog2From_spec (x : Nat) : ∀ fuel n, x ≤ 2 ^ (n + fuel) →
    x ≤ 2 ^ clog2From x fuel n ∧ n ≤ clog2From x fuel n ∧ ∀ k, n ≤ k → x ≤ 2 ^ k → clog2From x fuel n ≤ k := by
  intro fuel
  induction fuel with
  | zero => exact fun n h => ⟨h, le_rfl, fun k hk _ => hk⟩
  | succ fuel ih =>
    intro n h
    simp only [clog2From]
    split
    · exact ⟨‹_›, le_rfl, fun k hk _ => hk⟩
    · rename_i hn
      obtain ⟨h1, h2, h3⟩ := ih (n + 1) (by rwa [show n + 1 + fuel = n + (fuel + 1) by omega])
      refine ⟨h1, by omega, fun k hk hx => h3 k ?_ hx⟩
      rcases Nat.lt_or_ge n k with h | h
      · omega
      · have : k = n := by omega
        subst this; exact absurd hx hn

/-- `clog2 x` is the least exponent whose power of two reaches `x`. -/
theorem clog2_spec (x : Nat) : x ≤ 2 ^ clog2 x ∧ ∀ k, x ≤ 2 ^ k → clog2 x ≤ k := by
  obtain ⟨h1, _, h3⟩ := clog2From_spec x x 0 (by simpa using Nat.lt_two_pow_self.le)
  exact ⟨h1, fun k => h3 k (Nat.zero_le k)⟩

/-- Reaching a number with a power of two, in terms of `clog2`. -/
theorem clog2_le_iff (x k : Nat) : clog2 x ≤ k ↔ x ≤ 2 ^ k :=
  ⟨fun h => (clog2_spec x).1.trans (Nat.pow_le_pow_right (by omega) h), (clog2_spec x).2 k⟩

/-! ### The sort (R171) -/

/-- The insertion keeps the entries. -/
theorem insertSymbol_perm (a : Symbol) (l : List Symbol) : (insertSymbol a l).Perm (a :: l) := by
  induction l with
  | nil => exact .refl _
  | cons b l ih =>
    simp only [insertSymbol]
    split
    · exact .refl _
    · exact (ih.cons b).trans (.swap a b l)

/-- The sort keeps the entries. -/
theorem sortSymbols_perm (l : List Symbol) : (sortSymbols l).Perm l := by
  induction l with
  | nil => exact .refl _
  | cons a l ih => exact (insertSymbol_perm a _).trans (ih.cons a)

/-- The order is transitive. -/
theorem Symbol.before_trans {a b c : Symbol} (h : a.before b = true) (g : b.before c = true) : a.before c = true := by
  simp only [Symbol.before, decide_eq_true_eq] at *
  omega

/-- Of two entries with different byte values one stands before the other. -/
theorem Symbol.before_total {a b : Symbol} (h : a.value ≠ b.value) : a.before b = true ∨ b.before a = true := by
  have : a.value.toNat ≠ b.value.toNat := fun e => h (BitVec.eq_of_toNat_eq e)
  simp only [Symbol.before, decide_eq_true_eq]
  omega

/-- The insertion into a sorted list of other byte values is sorted. -/
theorem insertSymbol_sorted (a : Symbol) (l : List Symbol) (h : l.Pairwise fun a b => a.before b = true)
    (hne : ∀ b ∈ l, a.value ≠ b.value) : (insertSymbol a l).Pairwise fun a b => a.before b = true := by
  induction l with
  | nil => simp [insertSymbol]
  | cons b l ih =>
    obtain ⟨hb, hl⟩ := List.pairwise_cons.mp h
    simp only [insertSymbol]
    split
    · rename_i hab
      refine List.pairwise_cons.mpr ⟨fun c hc => ?_, h⟩
      rcases List.mem_cons.mp hc with rfl | hc
      · exact hab
      · exact Symbol.before_trans hab (hb c hc)
    · rename_i hab
      refine List.pairwise_cons.mpr ⟨fun c hc => ?_, ih hl fun c hc => hne c (by simp [hc])⟩
      rcases List.mem_cons.mp ((insertSymbol_perm a l).subset hc) with rfl | hc
      · exact (Symbol.before_total (hne b (by simp))).resolve_left hab
      · exact hb c hc

/-- The sort of entries with distinct byte values is sorted. -/
theorem sortSymbols_sorted (l : List Symbol) (h : (l.map (·.value)).Nodup) :
    (sortSymbols l).Pairwise fun a b => a.before b = true := by
  induction l with
  | nil => simp [sortSymbols]
  | cons a l ih =>
    obtain ⟨ha, hl⟩ := List.nodup_cons.mp h
    refine insertSymbol_sorted a _ (ih hl) fun b hb e => ha ?_
    exact List.mem_map.mpr ⟨b, (sortSymbols_perm l).subset hb, e.symm⟩

/-- The entries of the ordering before the sort: the counted byte values, each once. -/
theorem ordering_perm (x : Slot) :
    (ordering x).Perm ((allBytes.map fun v => { value := v, freq := x.freqOf v : Symbol }).filter
      fun a => decide (0 < a.freq)) :=
  sortSymbols_perm _

/-- The frequencies of the ordering add up to the sum of the counters. -/
theorem ordering_sum (x : Slot) : ((ordering x).map (·.freq)).sum = x.freqSum := by
  rw [((ordering_perm x).map _).sum_eq, Slot.freqSum]
  induction allBytes with
  | nil => rfl
  | cons v l ih =>
    simp only [List.map_cons, List.filter_cons, List.sum_cons]
    split
    · simp [ih]
    · rename_i h
      have : x.freqOf v = 0 := by simpa using h
      simp [ih, this]

/-! ### The walk (R172) -/

/-- The walk, everything it does: it takes at least one entry of a non-empty ordering, does not reach the target before its last
entry, and reaches it there unless the ordering ends first. -/
theorem walk_spec (num den total : Nat) (l : List Symbol) : ∀ cum,
    (l ≠ [] → 1 ≤ walk num den total cum l) ∧ walk num den total cum l ≤ l.length ∧
    (∀ k, 1 ≤ k → k < walk num den total cum l → (cum + ((l.take k).map (·.freq)).sum) * den < num * total) ∧
    (num * total ≤ (cum + ((l.take (walk num den total cum l)).map (·.freq)).sum) * den ∨
      walk num den total cum l = l.length) := by
  induction l with
  | nil => intro cum; simp [walk]
  | cons a l ih =>
    intro cum
    simp only [walk]
    split
    · rename_i h
      refine ⟨fun _ => le_rfl, by simp, fun k _ _ => by omega, .inl ?_⟩
      simpa using h
    · rename_i h
      obtain ⟨_, h2, h3, h4⟩ := ih (cum + a.freq)
      refine ⟨fun _ => by omega, by simpa using h2, fun k h1 hk => ?_, ?_⟩
      · obtain ⟨k, rfl⟩ := Nat.exists_eq_add_of_le' h1
        simp only [List.take_succ_cons, List.map_cons, List.sum_cons, ← Nat.add_assoc]
        rcases Nat.eq_zero_or_pos k with rfl | hp
        · simpa using h
        · exact h3 k hp (by omega)
      · simp only [List.take_succ_cons, List.map_cons, List.sum_cons, ← Nat.add_assoc, List.length_cons]
        omega

/-! ### The widths (R173 to R176) -/

/-- `bitsShort` is the least width, at least 2, that leaves the escape pattern free (R173). -/
theorem shortWidth_spec (k : Nat) : 2 ≤ shortWidth k ∧ k < 2 ^ shortWidth k ∧
    ∀ b, 2 ≤ b → k < 2 ^ b → shortWidth k ≤ b := by
  refine ⟨le_max_left _ _, ?_, fun b hb hk => max_le hb ((clog2_le_iff _ _).mpr hk)⟩
  exact (clog2_le_iff (k + 1) _).mp (le_max_right _ _)

/-- The short tier: never beyond the values there are, and no long tier of one value (R174, R175). -/
theorem shortCount_spec (m bs : Nat) : shortCount m bs ≤ m ∧ m - shortCount m bs ≠ 1 ∧
    (m ≤ 2 ^ bs - 1 → shortCount m bs = m) ∧ (2 ^ bs < m → shortCount m bs = 2 ^ bs - 1) := by
  have : 1 ≤ 2 ^ bs := Nat.one_le_two_pow
  simp only [shortCount]
  split <;> omega

/-- `bitsLong` holds every long index after the escape pattern (R176). -/
theorem longWidth_spec (bs r : Nat) : (longWidth bs r = 0 ↔ r = 0 ∨ bs = 0 ∧ r ≤ 1) ∧
    (0 < r → bs ≤ longWidth bs r ∧ r ≤ 2 ^ (longWidth bs r - bs)) := by
  simp only [longWidth]
  have hc := clog2_le_iff r 0
  refine ⟨?_, fun h => ?_⟩
  · split <;> simp at hc <;> omega
  · rw [if_pos h]
    refine ⟨by omega, ?_⟩
    rw [Nat.add_sub_cancel_left]
    exact (clog2_spec r).1

end Sys2Proof.Machine
end

