-- ==== Sys2Proof/Laws/Codec.lean ====
section
/-!
SUPPORT. What the key parser's parts accept (spec/43_codec.md R200, R201), and the decoder's next codeword (R203, R205).
-/

namespace Sys2Proof.Machine

/-- An accepted header: it is the four header bytes, in range, and the entries it announces lie in the data (R200). -/
theorem parseHeader_ok (x : Slot) (h : KeyHeader) : parseHeader x = .ok h ↔
    h = x.keyHeader ∧ 4 ≤ x.len ∧ 1 ≤ h.bs ∧ h.bs ≤ 16 ∧ (h.bl = 0 ∨ h.bs < h.bl ∧ h.bl ≤ 16) ∧ h.k ≤ h.m ∧
      (h.k = h.m ∨ h.bl ≠ 0) ∧ h.keyBits ≤ x.bitLen := by
  simp only [parseHeader]
  constructor
  · intro e
    split_ifs at e
    injection e with e
    subst e
    refine ⟨rfl, ?_⟩
    omega
  · rintro ⟨rfl, h1⟩
    rw [if_neg (by omega), if_neg (by omega), if_neg (by omega), if_neg (by omega), if_neg (by omega), if_neg (by omega)]

/-- A count field is read as 1 to 256 (R13, R88). -/
theorem cnt_range (f : Byte) : 1 ≤ cnt f ∧ cnt f ≤ 256 := by
  have := f.isLt
  simp only [cnt]
  split
  · omega
  · rename_i h
    have : f.toNat ≠ 0 := fun e => h (BitVec.eq_of_toNat_eq (by simpa using e))
    omega

/-- An accepted entry: its value and codeword as they stand in the key, and checks 7 and 8 passed (R201). -/
theorem parseEntry_ok (x : Slot) (h : KeyHeader) (e q : Nat) (a : CodeEntry) (hp : parseEntry x h e q = .ok a) :
    a.length = (if e < h.k then h.bs else h.bl) ∧ a.value = BitVec.ofNat 8 (x.fieldAt q 8) ∧
    a.code = x.fieldAt (q + 8) a.length ∧ q + 8 + a.length ≤ x.bitLen ∧
    (e < h.k → ¬ (a.code = h.esc ∧ h.bl ≠ 0)) ∧ (h.k ≤ e → a.code / 2 ^ (h.bl - h.bs) = h.esc) := by
  simp only [parseEntry, Slot.readBits_eq, Slot.readWide_eq, bind, Except.bind, pure, Except.pure] at hp
  by_cases h1 : q + 8 ≤ x.bitLen
  · rw [if_pos h1] at hp
    by_cases he : e < h.k
    · simp only [if_pos he] at hp ⊢
      by_cases h2 : q + 8 + h.bs ≤ x.bitLen
      · simp only [if_pos h2] at hp
        split at hp
        · cases hp
        · rename_i h3
          injection hp with hp; subst hp
          exact ⟨rfl, rfl, rfl, h2, fun _ => h3, fun h' => absurd he (by omega)⟩
      · simp only [if_neg h2] at hp; cases hp
    · simp only [if_neg he] at hp ⊢
      by_cases h2 : q + 8 + h.bl ≤ x.bitLen
      · simp only [if_pos h2] at hp
        split at hp
        · cases hp
        · rename_i h3
          injection hp with hp; subst hp
          exact ⟨rfl, rfl, rfl, h2, fun h' => absurd h' he, fun _ => by simpa using h3⟩
      · simp only [if_neg h2] at hp; cases hp
  · rw [if_neg h1] at hp; cases hp

/-- Accepted entries: as many as asked for, each accepted in its place, none clashing with one before it (R201, check 9). -/
theorem parseEntries_ok (x : Slot) (h : KeyHeader) : ∀ count e q found l,
    parseEntries x h count e q found = .ok l → (found.Pairwise fun a b => b.clash a = false) →
    ∃ new, l = found ++ new ∧ new.length = count ∧ (l.Pairwise fun a b => b.clash a = false) ∧
      ∀ i a, new[i]? = some a → ∃ q', parseEntry x h (e + i) q' = .ok a := by
  intro count
  induction count with
  | zero =>
    intro e q found l hp hf
    simp only [parseEntries] at hp
    injection hp with hp; subst hp
    exact ⟨[], by simp, rfl, hf, by simp⟩
  | succ count ih =>
    intro e q found l hp hf
    simp only [parseEntries] at hp
    split at hp
    · cases hp
    · rename_i a ha
      split at hp
      · cases hp
      · rename_i hc
        simp only [List.any_eq_true, not_exists, not_and, Bool.not_eq_true] at hc
        obtain ⟨new, rfl, hl, hpw, hn⟩ := ih _ _ _ _ hp (List.pairwise_append.mpr
          ⟨hf, List.pairwise_singleton _ _, fun b hb c hc' => by
            rw [List.mem_singleton.mp hc']; exact hc b hb⟩)
        refine ⟨a :: new, by simp, by simp [hl], hpw, fun i b hb => ?_⟩
        cases i with
        | zero => exact ⟨q, by simp at hb; subst hb; simpa using ha⟩
        | succ i =>
          obtain ⟨q', hq⟩ := hn i b (by simpa using hb)
          exact ⟨q', by rwa [show e + (i + 1) = e + 1 + i by omega]⟩

/-- An accepted key is an accepted header and the accepted entries it announces. -/
theorem parseKey_ok (x : Slot) (book : Codebook) : parseKey x = .ok book ↔
    parseHeader x = .ok book.header ∧ parseEntries x book.header book.header.m 0 32 [] = .ok book.entries := by
  obtain ⟨h, l⟩ := book
  simp only [parseKey]
  cases hh : parseHeader x with
  | error f => simp
  | ok g =>
    cases hl : parseEntries x g g.m 0 32 [] with
    | error f =>
      simp only [hl, reduceCtorEq, Except.ok.injEq, false_iff, not_and]
      rintro rfl; rw [hl]; simp
    | ok m =>
      simp only [hl, Except.ok.injEq, Codebook.mk.injEq]
      constructor
      · rintro ⟨rfl, rfl⟩; exact ⟨rfl, hl⟩
      · rintro ⟨rfl, e⟩; rw [hl] at e; injection e with e; exact ⟨rfl, e⟩

/-- The entries of an accepted key have codewords of at most sixteen bits (R41). -/
theorem parseKey_length_le (x : Slot) (book : Codebook) (h : parseKey x = .ok book) :
    ∀ e ∈ book.entries, 1 ≤ e.length ∧ e.length ≤ 16 := by
  obtain ⟨hh, he⟩ := (parseKey_ok x book).mp h
  obtain ⟨_, _, h1, h16, hbl, _, hkm, _⟩ := (parseHeader_ok x _).mp hh
  obtain ⟨new, e, hn, _, hent⟩ := parseEntries_ok x _ _ _ _ _ _ he .nil
  simp only [List.nil_append] at e
  intro a ha
  rw [e] at ha
  obtain ⟨i, hi, rfl⟩ := List.getElem_of_mem ha
  obtain ⟨q, hq⟩ := hent i _ (List.getElem?_eq_getElem hi)
  have := (parseEntry_ok x _ _ _ _ hq).1
  rw [this]
  split <;> omega

/-! ### The entries, one at a time -/

/-- The next entry starts where the one before it ends (R86, R87). -/
theorem KeyHeader.entryBit_succ (h : KeyHeader) (e : Nat) :
    h.entryBit (e + 1) = h.entryBit e + 8 + h.entryWidth e := by
  simp only [KeyHeader.entryBit, KeyHeader.entryWidth]
  rcases Nat.lt_trichotomy e h.k with hk | hk | hk
  · rw [if_pos (by omega), if_pos (by omega), if_pos hk]; ring
  · subst hk
    rw [if_neg (by omega), if_pos le_rfl, if_neg (lt_irrefl _)]
    simp; ring
  · rw [if_neg (by omega), if_neg (by omega), if_neg (by omega), show e + 1 - h.k = e - h.k + 1 by omega]; ring

/-- The entries a key announces lie before its end (R87). -/
theorem KeyHeader.entryBit_le (h : KeyHeader) (hk : h.k ≤ h.m) (e : Nat) (he : e ≤ h.m) : h.entryBit e ≤ h.keyBits := by
  simp only [KeyHeader.entryBit, KeyHeader.keyBits]
  split
  · have := Nat.mul_le_mul_right (8 + h.bs) (show e ≤ h.k by omega)
    omega
  · have := Nat.mul_le_mul_right (8 + h.bl) (show e - h.k ≤ h.m - h.k by omega)
    omega

/-- One entry that lies in the data, every outcome (R201, checks 7 and 8). -/
theorem parseEntry_eq (x : Slot) (h : KeyHeader) (e : Nat) (hr : h.entryBit (e + 1) ≤ x.bitLen) :
    parseEntry x h e (h.entryBit e) =
      if x.EscapeAsShort h e then .error (invalidKey 7)
      else if x.LongWithoutEscape h e then .error (invalidKey 8)
      else .ok (x.keyEntry h e) := by
  rw [h.entryBit_succ] at hr
  have h1 : x.readBits (h.entryBit e) 8 = .ok (x.fieldAt (h.entryBit e) 8) := by
    rw [Slot.readBits_eq, if_pos (by omega)]
  have h2 : x.readWide (h.entryBit e + 8) (h.entryWidth e) = .ok (x.keyEntry h e).code := by
    rw [Slot.readWide_eq, if_pos hr]; rfl
  simp only [parseEntry, h1, bind, Except.bind, pure, Except.pure]
  by_cases he : e < h.k
  · have hw : h.entryWidth e = h.bs := if_pos he
    have h8 : ¬ x.LongWithoutEscape h e := fun c => absurd c.1 (by omega)
    have hv : x.keyEntry h e = ⟨BitVec.ofNat 8 (x.fieldAt (h.entryBit e) 8), (x.keyEntry h e).code, h.bs⟩ := by
      simp [Slot.keyEntry, hw]
    simp only [hw] at h2
    rw [if_pos he, h2]
    by_cases h7 : x.EscapeAsShort h e
    · rw [if_pos h7]; exact if_pos h7.2
    · rw [if_neg h7, if_neg h8]
      conv_rhs => rw [hv]
      exact if_neg fun c => h7 ⟨he, c⟩
  · have hw : h.entryWidth e = h.bl := if_neg he
    have h7 : ¬ x.EscapeAsShort h e := fun c => he c.1
    rw [if_neg he, if_neg h7]
    simp only [hw] at h2
    rw [h2]
    have hk : h.k ≤ e := by omega
    by_cases h8 : x.LongWithoutEscape h e
    · rw [if_pos h8]; exact if_pos h8.2
    · rw [if_neg h8]
      have hv : x.keyEntry h e = ⟨BitVec.ofNat 8 (x.fieldAt (h.entryBit e) 8), (x.keyEntry h e).code, h.bl⟩ := by
        simp [Slot.keyEntry, hw]
      conv_rhs => rw [hv]
      exact if_neg fun c => h8 ⟨hk, c⟩

/-- A clash is a shared byte value or a shared codeword and length (R201, check 9). -/
theorem clash_iff (x : Slot) (h : KeyHeader) (e : Nat) :
    ((List.range e).map (x.keyEntry h)).any (x.keyEntry h e).clash = true ↔ x.DuplicateEntry h e := by
  simp only [List.any_map, List.any_eq_true, List.mem_range, Function.comp, CodeEntry.clash, Bool.or_eq_true,
    Bool.and_eq_true, beq_iff_eq, Slot.DuplicateEntry]
  constructor
  · rintro ⟨j, hj, h1 | ⟨h1, h2⟩⟩
    · exact ⟨j, hj, .inl h1.symm⟩
    · exact ⟨j, hj, .inr ⟨h1.symm, h2.symm⟩⟩
  · rintro ⟨j, hj, h1 | ⟨h1, h2⟩⟩
    · exact ⟨j, hj, .inl h1.symm⟩
    · exact ⟨j, hj, .inr ⟨h1.symm, h2.symm⟩⟩

/-- One turn of the entry loop, every outcome (R201), after the entries before it as they stand. -/
theorem parseEntries_succ (x : Slot) (h : KeyHeader) (count e : Nat) (hr : h.entryBit (e + 1) ≤ x.bitLen) :
    parseEntries x h (count + 1) e (h.entryBit e) ((List.range e).map (x.keyEntry h)) =
      if x.EscapeAsShort h e then .error (invalidKey 7)
      else if x.LongWithoutEscape h e then .error (invalidKey 8)
      else if ((List.range e).map (x.keyEntry h)).any (x.keyEntry h e).clash then .error (invalidKey 9)
      else parseEntries x h count (e + 1) (h.entryBit (e + 1)) ((List.range (e + 1)).map (x.keyEntry h)) := by
  rw [parseEntries, parseEntry_eq x h e hr]
  by_cases h7 : x.EscapeAsShort h e
  · simp only [if_pos h7]
  by_cases h8 : x.LongWithoutEscape h e
  · simp only [if_neg h7, if_pos h8]
  · simp only [if_neg h7, if_neg h8, List.range_succ, List.map_append, List.map_cons, List.map_nil, h.entryBit_succ]
    rfl

/-- A header passes in the sense of the statements exactly if the parser accepts it (R200). -/
theorem headerPasses_iff (x : Slot) (h : KeyHeader) : x.HeaderPasses h ↔ parseHeader x = .ok h := by
  rw [parseHeader_ok]
  constructor
  · rintro ⟨⟨b0, b1, b2, b3, rest, hb, hm, hk, hs, hl⟩, h1, h2, h3, h4⟩
    have e : h = x.keyHeader := by
      obtain ⟨m, k, bs, bl⟩ := h
      simp only at hm hk hs hl
      simp [Slot.keyHeader, Slot.headerByte, memRead, hb, cnt, hm, hk, hs, hl]
    exact ⟨e, by simp [Slot.len, hb], h1.1, h1.2, h2, h3.1, h3.2, h4⟩
  · rintro ⟨e, h0, h1, h16, h2, h3, h4, h5⟩
    refine ⟨?_, ⟨h1, h16⟩, h2, ⟨h3, h4⟩, h5⟩
    have hlen : 4 ≤ x.bytes.length := h0
    rcases hx : x.bytes with _ | ⟨b0, _ | ⟨b1, _ | ⟨b2, _ | ⟨b3, rest⟩⟩⟩⟩
    all_goals first
      | (rw [hx] at hlen; simp at hlen; done)
      | (refine ⟨b0, b1, b2, b3, rest, rfl, ?_⟩; rw [e]; simp [Slot.keyHeader, Slot.headerByte, memRead, hx, cnt])

/-! ### The next codeword -/

/-- The next codeword, every outcome (R203, R205): short, long, or an escape that the end of the input cuts off. -/
theorem nextCodeword_eq (h : KeyHeader) (input : Slot) (p : Nat) (hb : h.bl = 0 ∨ h.bs ≤ h.bl)
    (hp : p + h.bs ≤ input.bitLen) :
    nextCodeword h input p =
      if input.fieldAt p h.bs = h.esc ∧ h.bl ≠ 0 then
        if p + h.bl ≤ input.bitLen then .ok (input.fieldAt p h.bl, h.bl) else .error (outOfRange p)
      else .ok (input.fieldAt p h.bs, h.bs) := by
  simp only [nextCodeword, Slot.readWide_eq, if_pos hp, bind, Except.bind, pure, Except.pure]
  by_cases he : input.fieldAt p h.bs = h.esc ∧ h.bl ≠ 0
  · rw [if_pos he, if_pos he]
    by_cases hl : p + h.bl ≤ input.bitLen
    · have hsum := input.fieldAt_add p h.bs (h.bl - h.bs)
      rw [show h.bs + (h.bl - h.bs) = h.bl by omega] at hsum
      rw [if_neg (by omega), if_pos hl, if_pos (by omega), hsum]
    · rw [if_pos (by omega), if_neg hl]
  · rw [if_neg he, if_neg he]

/-- What a look-up finds in the encoding map is an entry of that byte value (R201). -/
theorem enc_some (book : Codebook) (v : Byte) (e : CodeEntry) (h : book.enc v = some e) : e ∈ book.entries ∧ e.value = v :=
  ⟨List.mem_of_find?_eq_some h, by simpa using List.find?_some h⟩

/-! ### The two loops -/

/-- A whole byte put into the last, fresh byte. -/
theorem insertField_byte (v : Byte) : insertField 0 0 8 v.toNat = v := by
  apply BitVec.eq_of_getLsbD_eq
  intro j hj
  rw [insertField_getLsbD _ _ _ _ _ hj, if_pos (by omega)]
  rfl

/-- Appending eight bits to a slot without a partly filled byte is appending a byte (R120, R203). -/
theorem Slot.appendBits_byte (cap : Nat) (x : Slot) (v : Byte) (h : x.nfb = 0) :
    x.appendBits cap v.toNat 8 =
      if cap < x.len + 1 then .full x else .done { x with bytes := x.bytes ++ [v], nfb := 0, dirty := true } := by
  have hv : low v.toNat 8 = v.toNat := Nat.mod_eq_of_lt v.isLt
  have hi : insertField 0#8 0 8 v.toNat = v := insertField_byte v
  simp [Slot.appendBits, h, hv, hi]

/-- The loop of `ENCODE`, everything it can do (R202): all codewords, or those before the first byte without an entry, or those
before the first one that does not fit, with its upper part where that fits. -/
theorem encodeLoop_spec (cap : Nat) (book : Codebook) (bd : SlotNo)
    (hw : ∀ e ∈ book.entries, 1 ≤ e.length ∧ e.length ≤ 16) (input : List Byte) : ∀ (i : Nat) (x : Slot), x.CursorOk →
    ∃ y bits, x.ExtendedBy y bits ∧ (x.dirty = true → y.dirty = true) ∧
      ((encodeLoop cap book bd i input x = (y, none) ∧ book.Covers input ∧ bits = book.codeBits input) ∨
       (∃ before v after, encodeLoop cap book bd i input x = (y, some (unknownSymbol (i + before.length))) ∧
          input = before ++ v :: after ∧ book.Covers before ∧ book.enc v = none ∧ bits = book.codeBits before) ∨
       (∃ before v after e, encodeLoop cap book bd i input x = (y, some (capacityExceeded bd)) ∧
          input = before ++ v :: after ∧ book.Covers before ∧ book.enc v = some e ∧
          8 * cap < x.bitLen + (book.codeBits before).length + e.length ∧
          (x.bitLen ≤ 8 * cap → x.bitLen + (book.codeBits before).length ≤ 8 * cap) ∧
          bits = if 8 < e.length ∧ x.bitLen + (book.codeBits before).length + (e.length - 8) ≤ 8 * cap then
            book.codeBits before ++ e.bits.take (e.length - 8) else book.codeBits before)) := by
  induction input with
  | nil => exact fun i x hc => ⟨x, [], .refl x hc, id, .inl ⟨rfl, by simp [Codebook.Covers], rfl⟩⟩
  | cons v rest ih =>
    intro i x hc
    simp only [encodeLoop]
    cases he : book.enc v with
    | none =>
      exact ⟨x, [], .refl x hc, id, .inr (.inl ⟨[], v, rest, by simp, rfl, by simp [Codebook.Covers], he, rfl⟩)⟩
    | some e =>
      have hcode : ∀ l, book.codeBits (v :: l) = fieldBits e.code e.length ++ book.codeBits l := fun l => by
        simp [Codebook.codeBits, he, CodeEntry.bits]
      have hcov : ∀ l, book.Covers l → book.Covers (v :: l) := fun l hl a ha => by
        rcases List.mem_cons.mp ha with rfl | ha
        · simp [he]
        · exact hl a ha
      obtain ⟨h1, h16⟩ := hw e (enc_some book v e he).1
      have hnil : book.codeBits [] = [] := rfl
      obtain ⟨hcap, y, m, ha, hm, hm', hg, hd⟩ | ⟨hcap, y, ha, hg, hd⟩ := x.appendWide_spec cap e.code e.length hc h1 h16
      · refine ⟨y, _, hg.extendedBy, ?_, .inr (.inr ⟨[], v, rest, e, by simp only [ha], rfl, by simp [Codebook.Covers], he,
          by simp only [hnil, List.length_nil]; omega, by simp [hnil], ?_⟩)⟩
        · intro hx
          rcases hd with rfl | hd
          · exact hx
          · exact hd
        · rw [fieldBits_take _ _ _ hm.le, hm']
          simp only [hnil, List.length_nil, List.nil_append, Nat.add_zero]
          split <;> simp [CodeEntry.bits]
      · obtain ⟨z, bits, hz, hdz, hcase⟩ := ih (i + 1) y hg.cursor
        refine ⟨z, _, hg.extendedBy.trans hz, fun _ => hdz hd, ?_⟩
        have hb := hg.bitLen
        simp only [ha, hcode]
        rcases hcase with ⟨hl, hc', rfl⟩ | ⟨before, u, after, hl, rfl, hc', hu, rfl⟩ |
          ⟨before, u, after, f, hl, rfl, hc', hu, hfull, hroom, rfl⟩
        · exact .inl ⟨hl, hcov _ hc', rfl⟩
        · refine .inr (.inl ⟨v :: before, u, after, ?_, by simp, hcov _ hc', hu, (hcode before).symm⟩)
          rw [hl, List.length_cons, show i + 1 + before.length = i + (before.length + 1) by omega]
        · refine .inr (.inr ⟨v :: before, u, after, f, hl, by simp, hcov _ hc', hu, ?_, fun _ => ?_, ?_⟩)
          · rw [hcode, List.length_append, fieldBits_length]; omega
          · have := hroom (by omega)
            rw [hcode, List.length_append, fieldBits_length]; omega
          · rw [hcode, List.length_append, fieldBits_length, hb, Nat.add_assoc x.bitLen]
            split <;> simp

/-- The loop of `DECODE`, one turn (R203, R204, R205), into a slot without a partly filled byte. -/
theorem decodeLoop_succ (cap : Nat) (book : Codebook) (bd : SlotNo) (input : Slot) (fuel p : Nat) (x : Slot)
    (h : x.nfb = 0) :
    decodeLoop cap book bd input (fuel + 1) p x =
      if p + book.header.bs ≤ input.bitLen then
        match nextCodeword book.header input p with
        | .error f => (x, some f)
        | .ok (c, l) =>
          match book.dec c l with
          | none => (x, some (unknownCodeword p))
          | some v =>
            if cap < x.len + 1 then (x, some (capacityExceeded bd))
            else decodeLoop cap book bd input fuel (p + l)
              { x with bytes := x.bytes ++ [v], nfb := 0, dirty := true }
      else (x, none) := by
  simp only [decodeLoop, Slot.appendBits_byte cap x _ h]
  by_cases hb : p + book.header.bs ≤ input.bitLen
  · simp only [hb, if_true]
    cases nextCodeword book.header input p with
    | error f => rfl
    | ok r =>
      obtain ⟨c, l⟩ := r
      simp only
      cases book.dec c l with
      | none => rfl
      | some v => by_cases hc : cap < x.len + 1 <;> simp only [hc, if_true, if_false]
  · simp only [hb, if_false]

end Sys2Proof.Machine
end

