-- ==== Sys2Proof/Laws/Encoding.lean ====
section
/-!
SUPPORT. The fields of a packed word are the fields packed (spec/30_encoding.md R80), and a word is the packing of its fields.
-/

namespace Sys2Proof

section Fields
variable (op : BitVec 8) (bd ba bk : SlotNo) (n : CountField) (imm : Byte)

/-- Every bit of a packed word, field by field. -/
theorem packFields_getLsbD (i : Nat) :
    (packFields op bd ba bk n imm).getLsbD i =
      if i < 8 then imm.getLsbD i else if i < 12 then n.getLsbD (i - 8) else if i < 16 then bk.getLsbD (i - 12)
      else if i < 20 then ba.getLsbD (i - 16) else if i < 24 then bd.getLsbD (i - 20) else op.getLsbD (i - 24) := by
  have h : (packFields op bd ba bk n imm).getLsbD i =
      BitVec.getLsbD (w := 8 + 4 + 4 + 4 + 4 + 8) (op ++ bd ++ ba ++ bk ++ n ++ imm) i := rfl
  rw [h]
  simp only [BitVec.getLsbD_append]
  split_ifs <;> first | rfl | omega

/-- The bits of a field of a packed word. -/
theorem extract_packFields (f w : Nat) (v : BitVec w)
    (h : ∀ j, j < w → (packFields op bd ba bk n imm).getLsbD (f + j) = v.getLsbD j) :
    (packFields op bd ba bk n imm).extractLsb' f w = v := by
  apply BitVec.eq_of_getLsbD_eq
  intro j hj
  simp [hj, h j hj]

@[simp] theorem fieldImm_pack : fieldImm (packFields op bd ba bk n imm) = imm :=
  extract_packFields _ _ _ _ _ _ _ _ _ fun j hj => by
    rw [packFields_getLsbD, if_pos (by omega)]; congr 1; omega

@[simp] theorem fieldN_pack : fieldN (packFields op bd ba bk n imm) = n :=
  extract_packFields _ _ _ _ _ _ _ _ _ fun j hj => by
    rw [packFields_getLsbD, if_neg (by omega), if_pos (by omega)]; congr 1; omega

@[simp] theorem fieldBk_pack : fieldBk (packFields op bd ba bk n imm) = bk :=
  extract_packFields _ _ _ _ _ _ _ _ _ fun j hj => by
    rw [packFields_getLsbD, if_neg (by omega), if_neg (by omega), if_pos (by omega)]; congr 1; omega

@[simp] theorem fieldBa_pack : fieldBa (packFields op bd ba bk n imm) = ba :=
  extract_packFields _ _ _ _ _ _ _ _ _ fun j hj => by
    rw [packFields_getLsbD, if_neg (by omega), if_neg (by omega), if_neg (by omega), if_pos (by omega)]; congr 1; omega

@[simp] theorem fieldBd_pack : fieldBd (packFields op bd ba bk n imm) = bd :=
  extract_packFields _ _ _ _ _ _ _ _ _ fun j hj => by
    rw [packFields_getLsbD, if_neg (by omega), if_neg (by omega), if_neg (by omega), if_neg (by omega),
      if_pos (by omega)]
    congr 1; omega

@[simp] theorem fieldOp_pack : fieldOp (packFields op bd ba bk n imm) = op :=
  extract_packFields _ _ _ _ _ _ _ _ _ fun j hj => by
    rw [packFields_getLsbD, if_neg (by omega), if_neg (by omega), if_neg (by omega), if_neg (by omega),
      if_neg (by omega)]
    congr 1; omega

end Fields

/-- A word is the packing of its six fields. -/
theorem pack_fields (w : Word) :
    packFields (fieldOp w) (fieldBd w) (fieldBa w) (fieldBk w) (fieldN w) (fieldImm w) = w := by
  apply BitVec.eq_of_getLsbD_eq
  intro i hi
  rw [packFields_getLsbD]
  simp only [fieldOp, fieldBd, fieldBa, fieldBk, fieldN, fieldImm, BitVec.getLsbD_extractLsb']
  split_ifs <;> rw [decide_eq_true (by omega), Bool.true_and] <;> congr 1 <;> omega

/-- A packed word cut by a packed mask is packed field by field. -/
theorem packFields_and (op op' : BitVec 8) (bd bd' ba ba' bk bk' : SlotNo) (n n' : CountField) (imm imm' : Byte) :
    packFields op bd ba bk n imm &&& packFields op' bd' ba' bk' n' imm' =
      packFields (op &&& op') (bd &&& bd') (ba &&& ba') (bk &&& bk') (n &&& n') (imm &&& imm') := by
  apply BitVec.eq_of_getLsbD_eq
  intro i _
  simp only [BitVec.getLsbD_and, packFields_getLsbD]
  split_ifs <;> rfl

end Sys2Proof
end

