-- ==== Sys2Proof/Laws/Exec.lean ====
section
/-!
SUPPORT. The ends of a command and its tests, each in both outcomes; the operand tests against well-formedness; what a step can do.
-/

namespace Sys2Proof.Machine

/-! ### The ends of a command (spec/60_exceptions.md R253, spec/10_state.md R34, R35) -/

@[simp] theorem State.fail_eq_next (s t : State) (f : Failure) : s.fail f = .next t ↔ s.raise f = t := by
  simp [State.fail]

@[simp] theorem State.done_eq_next (s t : State) : s.done = .next t ↔ s.succeed = t := by
  simp [State.done]

/-- The code of a failure, as `STATUS` shows it (R241). -/
@[simp] theorem FailureKind.code_toNat (k : FailureKind) : (k.code.setWidth 32).toNat = k.code.toNat := by
  cases k <;> rfl

/-- No failure has code 0, and none has a code above 9 (R241). -/
theorem FailureKind.code_range (k : FailureKind) : 1 ≤ k.code.toNat ∧ k.code.toNat ≤ 9 := by
  cases k <;> decide

/-- Different kinds have different codes (R241). -/
theorem FailureKind.code_injective (j k : FailureKind) (h : j.code = k.code) : j = k := by
  cases j <;> cases k <;> first | rfl | exact absurd h (by decide)

/-! ### The tests, in both outcomes (spec/60_exceptions.md R252) -/

section Tests
variable (s t : State) (i : Instr) (b : SlotNo) (body : Result)

@[simp] theorem checked_true : checked true i s body = body := rfl
@[simp] theorem checked_false : checked false i s body = s.fail (badOperand i) := rfl

/-- A command that ends has passed its operand test, or failed it. -/
theorem checked_eq_next (ok : Bool) :
    checked ok i s body = .next t ↔ (ok = true ∧ body = .next t) ∨ (ok = false ∧ s.raise (badOperand i) = t) := by
  cases ok <;> simp

/-- A command that ends has found the statistics fresh, or failed (R243). -/
theorem ifFresh_eq_next :
    ifFresh b s body = .next t ↔
      ((s.slot b).dirty = false ∧ body = .next t) ∨ ((s.slot b).dirty = true ∧ s.raise (staleStatistics b) = t) := by
  simp only [ifFresh]
  cases (s.slot b).dirty <;> simp

/-- Fresh statistics pass the test. -/
theorem ifFresh_of_fresh (h : (s.slot b).dirty = false) : ifFresh b s body = body := by simp [ifFresh, h]

/-- Stale statistics do not (R243). -/
theorem ifFresh_of_dirty (h : (s.slot b).dirty = true) : ifFresh b s body = s.fail (staleStatistics b) := by
  simp [ifFresh, h]

@[simp] theorem ifDefined_true : ifDefined true b s body = body := rfl
@[simp] theorem ifDefined_false : ifDefined false b s body = s.fail (undefinedStatistic b) := rfl

/-- A command that ends has found its statistic defined, or failed (R246). -/
theorem ifDefined_eq_next (d : Bool) :
    ifDefined d b s body = .next t ↔
      (d = true ∧ body = .next t) ∨ (d = false ∧ s.raise (undefinedStatistic b) = t) := by
  cases d <;> simp

end Tests

/-! ### The operand tests (spec/30_encoding.md R82, spec/60_exceptions.md R250) -/

section Operands
variable (s : State) (bd ba bk : SlotNo) (n : CountField)

theorem hasSlot_eq : s.hasSlot bd = slotInRange s.nbuf bd := rfl

@[simp] theorem hasSlot_iff : s.hasSlot bd = true ↔ bd.toNat < s.nbuf := by simp [State.hasSlot]

@[simp] theorem appendOperands_iff : appendOperands s bd n = true ↔ bd.toNat < s.nbuf ∧ 1 ≤ n.toNat ∧ n.toNat ≤ 8 := by
  simp [appendOperands]

@[simp] theorem readOperands_iff : readOperands s bd n = true ↔ bd.toNat < s.nbuf ∧ n.toNat ≤ 8 := by
  simp [readOperands]

@[simp] theorem markOperands_iff : markOperands s bd n = true ↔ bd.toNat < s.nbuf ∧ n.toNat ≤ 1 := by
  simp [markOperands]

@[simp] theorem copyOperands_iff :
    copyOperands s bd ba = true ↔ bd.toNat < s.nbuf ∧ ba.toNat < s.nbuf ∧ bd ≠ ba := by
  simp [copyOperands, and_assoc]

@[simp] theorem buildOperands_iff :
    buildOperands s bd ba = true ↔
      bd.toNat < s.nbuf ∧ ba.toNat < s.nbuf ∧ bd ≠ ba ∧ 0 < s.tfnum.toNat ∧ s.tfnum.toNat < s.tfden.toNat := by
  simp [buildOperands, State.targetInRange, and_assoc]

@[simp] theorem codecOperands_iff :
    codecOperands s bd ba bk = true ↔
      bd.toNat < s.nbuf ∧ ba.toNat < s.nbuf ∧ bk.toNat < s.nbuf ∧ bd ≠ ba ∧ bd ≠ bk := by
  simp [codecOperands, and_assoc]

end Operands

/-- An update of registers and streams that leaves the slots where they are keeps every slot. -/
theorem slot_of_slots (s t : State) (h : t.slots = s.slots) (b : SlotNo) : t.slot b = s.slot b := by
  simp [State.slot, h]

/-- A slot number in range names a slot of the list. -/
theorem slot_mem (s : State) (b : SlotNo) (h : b.toNat < s.nbuf) : s.slot b ∈ s.slots := by
  simp only [State.nbuf] at h
  simp [State.slot, h]

/-! ### What a step can do (spec/10_state.md R38) -/

/-- Everything a step does: nothing, a command, a register write or read, bytes on `DIN`, or reset. -/
theorem step_cases (s : State) :
    (s.host = [] ∧ step s = .next s) ∨
    ∃ a rest, s.host = a :: rest ∧
      ((∃ w i, a = .write .cmd w ∧ decode w = .ok i ∧ step s = exec i { s with host := rest }) ∨
       (∃ w e, a = .write .cmd w ∧ decode w = .error e ∧
          step s = .next (({ s with host := rest } : State).raise (illegalCommand w))) ∨
       (∃ r v, a = .write r v ∧ r ≠ .cmd ∧ step s = .next (({ s with host := rest } : State).writeReg r v)) ∨
       (∃ r, a = .read r ∧
          step s = .next { s with host := rest, replies := s.replies ++ [{ reg := r, value := s.readReg r }] }) ∨
       (∃ bytes, a = .supply bytes ∧ step s = .next { s with host := rest, din := s.din ++ bytes }) ∨
       (a = .reset ∧ step s = .next ({ s with host := rest } : State).applyReset)) := by
  cases hs : s.host with
  | nil => exact .inl ⟨rfl, by simp [step, takeAction, hs]⟩
  | cons a rest =>
    refine .inr ⟨a, rest, rfl, ?_⟩
    have e : step s = performAction a { s with host := rest } := by simp [step, takeAction, hs]
    rw [e]
    cases a with
    | write r v =>
      by_cases hr : r = .cmd
      · subst hr
        cases hd : decode v with
        | ok i => exact .inl ⟨v, i, rfl, hd, by simp [performAction, runCommand, hd]⟩
        | error x => exact .inr (.inl ⟨v, x, rfl, hd, by simp [performAction, runCommand, hd, State.fail]⟩)
      · exact .inr (.inr (.inl ⟨r, v, rfl, hr, by cases r <;> first | rfl | exact absurd rfl hr⟩))
    | read r => exact .inr (.inr (.inr (.inl ⟨r, rfl, by cases r <;> rfl⟩)))
    | supply bytes => exact .inr (.inr (.inr (.inr (.inl ⟨bytes, rfl, rfl⟩))))
    | reset => exact .inr (.inr (.inr (.inr (.inr ⟨rfl, rfl⟩))))

end Sys2Proof.Machine
end

