-- ==== Sys2Proof/Laws/Memory.lean ====
section
/-!
SUPPORT. The laws of a slot's memory: read after write, the canonical form as pairs of address and byte, and every memory
operation keeps `Memory.wf` (spec/10_state.md R21, spec/20_memory.md R50 to R59).
-/

namespace Sys2Proof.Machine

/-! ### Read after write -/

/-- The byte written reads back. -/
theorem memRead_memWrite_same (m : Memory) (a : Nat) (v : Byte) (h : a < m.length) : memRead (memWrite m a v) a = some v := by
  simp [memRead, memWrite, h]

/-- Every other byte reads as before. -/
theorem memRead_memWrite_other (m : Memory) (a b : Nat) (v : Byte) (h : b ≠ a) :
    memRead (memWrite m a v) b = memRead m b := by
  simp [memRead, memWrite, List.getElem?_set_ne h.symm]

/-- A write makes no byte and removes none (R59). -/
@[simp] theorem memWrite_length (m : Memory) (a : Nat) (v : Byte) : (memWrite m a v).length = m.length := by simp [memWrite]

/-- A byte can be read exactly below the length (R58). -/
theorem memRead_eq_none (m : Memory) (a : Nat) : memRead m a = none ↔ m.length ≤ a := by simp [memRead]

/-! ### The memory as pairs of address and byte -/

/-- The addresses of a memory are 0 to `len - 1`. -/
theorem Memory.cells_addresses (m : Memory) : (Memory.cells m).map Prod.fst = List.range m.length := by
  simp [Memory.cells, List.zipIdx_eq_zip_range', List.range_eq_range', Function.comp_def, List.map_snd_zip]

/-- The addresses rise strictly. -/
theorem Memory.cells_sorted (m : Memory) : (Memory.cells m).Pairwise fun p q => p.1 < q.1 := by
  rw [← List.pairwise_map (f := Prod.fst) (R := (· < ·)), Memory.cells_addresses]
  exact List.pairwise_lt_range

/-- Equal pairs mean equal memories. -/
theorem Memory.cells_injective (m n : Memory) (h : Memory.cells m = Memory.cells n) : m = n := by
  have key : ∀ l : Memory, (Memory.cells l).map Prod.snd = l := fun l => by
    simp [Memory.cells, List.zipIdx_eq_zip_range', Function.comp_def, List.map_fst_zip]
  rw [← key m, ← key n, h]

/-! ### Every operation keeps the form -/

/-- A write keeps the form. -/
theorem Memory.wf_memWrite (cap : Nat) (m : Memory) (a : Nat) (v : Byte) (h : Memory.wf cap m = true) :
    Memory.wf cap (memWrite m a v) = true := by
  simpa [Memory.wf] using h

/-- A function on the last byte makes no byte and removes none. -/
@[simp] theorem onLast_length (f : Byte → Byte) (l : List Byte) : (onLast f l).length = l.length := by
  rcases List.eq_nil_or_concat' l with rfl | ⟨pre, b, rfl⟩ <;> simp [onLast]

/-- The slot an append leaves, done or full. -/
def Appended.slot : Appended → Slot
  | .done x => x
  | .full x => x

/-- A bit append without a look at the bits (R26, R59): full and unchanged, or at most one byte more, within the capacity. -/
theorem Slot.appendBits_shape (cap : Nat) (x : Slot) (v n : Nat) (h8 : n ≤ 8) :
    x.appendBits cap v n = .full x ∨
    ∃ y, x.appendBits cap v n = .done y ∧ y.freq = x.freq ∧ y.total = x.total ∧ y.dirty = true ∧
      y.bytes.length ≤ cap ∧ (x.CursorOk → y.bytes ≠ []) := by
  have hlen : x.len = x.bytes.length := rfl
  simp only [Slot.appendBits]
  by_cases hf : x.len + (if x.nfb.toNat = 0 ∨ n > 8 - x.nfb.toNat then 1 else 0) > cap
  · exact .inl (if_pos hf)
  rw [if_neg hf]
  refine .inr ?_
  by_cases h0 : x.nfb.toNat = 0
  · simp only [h0, true_or, if_true, Nat.sub_zero, if_pos h8] at hf ⊢
    exact ⟨_, rfl, rfl, rfl, rfl, by simp; omega, fun _ => by
      simp [onLast]⟩
  · have hne : x.CursorOk → x.bytes ≠ [] := fun h => h fun e => h0 (by simp [e])
    by_cases hn : n ≤ 8 - x.nfb.toNat
    · rw [if_neg (by omega)] at hf
      rw [if_pos hn]
      refine ⟨_, rfl, rfl, rfl, rfl, by simp [h0]; omega, fun h => ?_⟩
      have := List.length_pos_iff.mpr (hne h)
      simp only [← List.length_pos_iff, onLast_length, if_neg h0]
      exact this
    · rw [if_pos (.inr (by omega))] at hf
      rw [if_neg hn]
      exact ⟨_, rfl, rfl, rfl, rfl, by simp [h0]; omega, fun _ => by simp⟩

/-- What the appends keep of a slot. -/
structure Slot.KeptBy (cap : Nat) (x y : Slot) : Prop where
  wf : Memory.wf cap x.bytes = true → Memory.wf cap y.bytes = true
  freq : y.freq = x.freq
  total : y.total = x.total
  dirty : y = x ∨ y.dirty = true
  cursor : x.CursorOk → y.CursorOk

/-- Nothing done keeps everything. -/
theorem Slot.KeptBy.refl (cap : Nat) (x : Slot) : x.KeptBy cap x := ⟨id, rfl, rfl, .inl rfl, id⟩

/-- One append after another. -/
theorem Slot.KeptBy.trans {cap : Nat} {x y z : Slot} (h : x.KeptBy cap y) (g : y.KeptBy cap z) : x.KeptBy cap z where
  wf a := g.wf (h.wf a)
  freq := g.freq.trans h.freq
  total := g.total.trans h.total
  dirty := by
    rcases g.dirty with e | e
    · rw [e]; exact h.dirty
    · exact .inr e
  cursor a := g.cursor (h.cursor a)

/-- A dirty slot stays dirty. -/
theorem Slot.KeptBy.stays_dirty {cap : Nat} {x y : Slot} (h : x.KeptBy cap y) (hx : x.dirty = true) : y.dirty = true := by
  rcases h.dirty with e | e
  · rwa [e]
  · exact e

/-- The append that puts a bit field at the end. -/
theorem Slot.appendBits_kept (cap : Nat) (x : Slot) (v n : Nat) (h8 : n ≤ 8) :
    x.KeptBy cap (x.appendBits cap v n).slot := by
  obtain e | ⟨y, e, hf, ht, hd, hl, hc⟩ := x.appendBits_shape cap v n h8
  · rw [e]; exact .refl cap x
  · rw [e]; exact ⟨fun _ => decide_eq_true hl, hf, ht, .inr hd, fun h _ => hc h⟩

/-- The append of up to sixteen bits. -/
theorem Slot.appendWide_kept (cap : Nat) (x : Slot) (v w : Nat) (h16 : w ≤ 16) :
    x.KeptBy cap (x.appendWide cap v w).slot := by
  simp only [Slot.appendWide]
  by_cases h0 : w = 0
  · rw [if_pos h0]; exact .refl cap x
  rw [if_neg h0]
  by_cases h8 : w > 8
  · rw [if_pos h8]
    have h := x.appendBits_kept cap (low v w / 256) (w - 8) (by omega)
    generalize x.appendBits cap (low v w / 256) (w - 8) = r at h
    cases r with
    | done y => exact h.trans (y.appendBits_kept cap _ _ (by omega))
    | full y => exact h
  · rw [if_neg h8]; exact x.appendBits_kept cap v w (by omega)

/-- The sequence of appends. -/
theorem Slot.appendFields_kept (cap : Nat) (fields : List (Nat × Nat)) (hw : ∀ f ∈ fields, f.2 ≤ 16) :
    ∀ x : Slot, x.KeptBy cap (x.appendFields cap fields).slot := by
  induction fields with
  | nil => exact fun x => .refl cap x
  | cons f rest ih =>
    intro x
    have h := x.appendWide_kept cap f.1 f.2 (hw f (by simp))
    simp only [Slot.appendFields]
    generalize x.appendWide cap f.1 f.2 = r at h
    cases r with
    | done y => exact h.trans (ih (fun f hf => hw f (by simp [hf])) y)
    | full y => exact h

/-- The loop of `ENCODE`. -/
theorem encodeLoop_kept (cap : Nat) (book : Codebook) (bd : SlotNo) (hw : ∀ e ∈ book.entries, e.length ≤ 16)
    (input : List Byte) : ∀ (i : Nat) (x : Slot), x.KeptBy cap (encodeLoop cap book bd i input x).1 := by
  induction input with
  | nil => exact fun _ x => .refl cap x
  | cons v rest ih =>
    intro i x
    simp only [encodeLoop]
    split
    · exact .refl cap x
    · rename_i e he
      have h := x.appendWide_kept cap e.code e.length (hw e (List.mem_of_find?_eq_some he))
      split <;> rename_i y hy <;> rw [hy] at h
      · exact h
      · exact h.trans (ih (i + 1) y)

/-- The loop of `DECODE`. -/
theorem decodeLoop_kept (cap : Nat) (book : Codebook) (bd : SlotNo) (input : Slot) (fuel : Nat) :
    ∀ (p : Nat) (x : Slot), x.KeptBy cap (decodeLoop cap book bd input fuel p x).1 := by
  induction fuel with
  | zero => exact fun _ x => .refl cap x
  | succ fuel ih =>
    intro p x
    simp only [decodeLoop]
    split
    · split
      · exact .refl cap x
      · split
        · exact .refl cap x
        · rename_i c l _ _ v _
          have h := x.appendBits_kept cap v.toNat 8 (by omega)
          split <;> rename_i y hy <;> rw [hy] at h
          · exact h
          · exact h.trans (ih (p + l) y)
    · exact .refl cap x

/-- A load within the capacity has the form (R131). -/
theorem Memory.wf_dinBytes (s : State) (c : Nat) (h : c ≤ s.cap) : Memory.wf s.cap (s.dinBytes c) = true := by
  simpa [Memory.wf] using h

/-- An empty memory has the form: a cleared slot, and every slot after reset (R43). -/
theorem Memory.wf_nil (cap : Nat) : Memory.wf cap [] = true := by simp [Memory.wf]

/-- Every memory has the form after reset (R43). -/
theorem Memory.wf_reset (c : Config) : ∀ x ∈ (State.resetFor c).slots, Memory.wf c.cap x.bytes = true := fun x hx => by
  rw [List.eq_of_mem_replicate hx]; exact Memory.wf_nil c.cap

end Sys2Proof.Machine
end

