-- ==== Sys2Proof/Laws/PerInstr.lean ====
section
/-!
SUPPORT. The law of every command as syntax: its encoding belongs to its own row of the opcode table (spec/30_encoding.md R80, R82,
spec/opcode_table.json), one lemma a constructor.
-/

namespace Sys2Proof.Laws

/-- The encoding of a command agrees with its row of the table on the row's mask. -/
def EncodesItsRow.Statement (i : Instr) : Prop := (opcodeRow i).Matches (encode i)

/-- A packed word cut by a mask that is itself packed from the fields that must hold. -/
theorem matches_of_fields (m v w : Word)
    (h : packFields (fieldOp w &&& fieldOp m) (fieldBd w &&& fieldBd m) (fieldBa w &&& fieldBa m)
      (fieldBk w &&& fieldBk m) (fieldN w &&& fieldN m) (fieldImm w &&& fieldImm m) = v) : w &&& m = v := by
  conv_lhs => rw [← pack_fields w, ← pack_fields m]
  rw [packFields_and, h]

theorem EncodesItsRow.append (bd : SlotNo) (n : CountField) (imm : Byte) : EncodesItsRow.Statement (.append bd n imm) := by
  apply matches_of_fields
  simp only [Sys2Proof.encode, opcodeRow, fieldOp_pack, fieldBd_pack, fieldBa_pack, fieldBk_pack, fieldN_pack, fieldImm_pack]
  simp [fieldOp, fieldBd, fieldBa, fieldBk, fieldN, fieldImm]
  rfl

theorem EncodesItsRow.readbits (bd : SlotNo) (n : CountField) : EncodesItsRow.Statement (.readbits bd n) := by
  apply matches_of_fields
  simp only [Sys2Proof.encode, opcodeRow, fieldOp_pack, fieldBd_pack, fieldBa_pack, fieldBk_pack, fieldN_pack, fieldImm_pack]
  simp [fieldOp, fieldBd, fieldBa, fieldBk, fieldN, fieldImm]
  rfl

theorem EncodesItsRow.rdbyte (bd : SlotNo) : EncodesItsRow.Statement (.rdbyte bd) := by
  apply matches_of_fields
  simp only [Sys2Proof.encode, opcodeRow, fieldOp_pack, fieldBd_pack, fieldBa_pack, fieldBk_pack, fieldN_pack, fieldImm_pack]
  simp [fieldOp, fieldBd, fieldBa, fieldBk, fieldN, fieldImm]
  rfl

theorem EncodesItsRow.wrbyte (bd : SlotNo) (imm : Byte) : EncodesItsRow.Statement (.wrbyte bd imm) := by
  apply matches_of_fields
  simp only [Sys2Proof.encode, opcodeRow, fieldOp_pack, fieldBd_pack, fieldBa_pack, fieldBk_pack, fieldN_pack, fieldImm_pack]
  simp [fieldOp, fieldBd, fieldBa, fieldBk, fieldN, fieldImm]
  rfl

theorem EncodesItsRow.clear (bd : SlotNo) : EncodesItsRow.Statement (.clear bd) := by
  apply matches_of_fields
  simp only [Sys2Proof.encode, opcodeRow, fieldOp_pack, fieldBd_pack, fieldBa_pack, fieldBk_pack, fieldN_pack, fieldImm_pack]
  simp [fieldOp, fieldBd, fieldBa, fieldBk, fieldN, fieldImm]
  rfl

theorem EncodesItsRow.copy (bd ba : SlotNo) : EncodesItsRow.Statement (.copy bd ba) := by
  apply matches_of_fields
  simp only [Sys2Proof.encode, opcodeRow, fieldOp_pack, fieldBd_pack, fieldBa_pack, fieldBk_pack, fieldN_pack, fieldImm_pack]
  simp [fieldOp, fieldBd, fieldBa, fieldBk, fieldN, fieldImm]
  rfl

theorem EncodesItsRow.load (bd : SlotNo) : EncodesItsRow.Statement (.load bd) := by
  apply matches_of_fields
  simp only [Sys2Proof.encode, opcodeRow, fieldOp_pack, fieldBd_pack, fieldBa_pack, fieldBk_pack, fieldN_pack, fieldImm_pack]
  simp [fieldOp, fieldBd, fieldBa, fieldBk, fieldN, fieldImm]
  rfl

theorem EncodesItsRow.save (bd : SlotNo) : EncodesItsRow.Statement (.save bd) := by
  apply matches_of_fields
  simp only [Sys2Proof.encode, opcodeRow, fieldOp_pack, fieldBd_pack, fieldBa_pack, fieldBk_pack, fieldN_pack, fieldImm_pack]
  simp [fieldOp, fieldBd, fieldBa, fieldBk, fieldN, fieldImm]
  rfl

theorem EncodesItsRow.stat (bd : SlotNo) : EncodesItsRow.Statement (.stat bd) := by
  apply matches_of_fields
  simp only [Sys2Proof.encode, opcodeRow, fieldOp_pack, fieldBd_pack, fieldBa_pack, fieldBk_pack, fieldN_pack, fieldImm_pack]
  simp [fieldOp, fieldBd, fieldBa, fieldBk, fieldN, fieldImm]
  rfl

theorem EncodesItsRow.refresh (bd : SlotNo) : EncodesItsRow.Statement (.refresh bd) := by
  apply matches_of_fields
  simp only [Sys2Proof.encode, opcodeRow, fieldOp_pack, fieldBd_pack, fieldBa_pack, fieldBk_pack, fieldN_pack, fieldImm_pack]
  simp [fieldOp, fieldBd, fieldBa, fieldBk, fieldN, fieldImm]
  rfl

theorem EncodesItsRow.markdirty (bd : SlotNo) (n : CountField) : EncodesItsRow.Statement (.markdirty bd n) := by
  apply matches_of_fields
  simp only [Sys2Proof.encode, opcodeRow, fieldOp_pack, fieldBd_pack, fieldBa_pack, fieldBk_pack, fieldN_pack, fieldImm_pack]
  simp [fieldOp, fieldBd, fieldBa, fieldBk, fieldN, fieldImm]
  rfl

theorem EncodesItsRow.freq (bd : SlotNo) (imm : Byte) : EncodesItsRow.Statement (.freq bd imm) := by
  apply matches_of_fields
  simp only [Sys2Proof.encode, opcodeRow, fieldOp_pack, fieldBd_pack, fieldBa_pack, fieldBk_pack, fieldN_pack, fieldImm_pack]
  simp [fieldOp, fieldBd, fieldBa, fieldBk, fieldN, fieldImm]
  rfl

theorem EncodesItsRow.prob (bd : SlotNo) (imm : Byte) : EncodesItsRow.Statement (.prob bd imm) := by
  apply matches_of_fields
  simp only [Sys2Proof.encode, opcodeRow, fieldOp_pack, fieldBd_pack, fieldBa_pack, fieldBk_pack, fieldN_pack, fieldImm_pack]
  simp [fieldOp, fieldBd, fieldBa, fieldBk, fieldN, fieldImm]
  rfl

theorem EncodesItsRow.info (bd : SlotNo) (imm : Byte) : EncodesItsRow.Statement (.info bd imm) := by
  apply matches_of_fields
  simp only [Sys2Proof.encode, opcodeRow, fieldOp_pack, fieldBd_pack, fieldBa_pack, fieldBk_pack, fieldN_pack, fieldImm_pack]
  simp [fieldOp, fieldBd, fieldBa, fieldBk, fieldN, fieldImm]
  rfl

theorem EncodesItsRow.byteent (bd : SlotNo) : EncodesItsRow.Statement (.byteent bd) := by
  apply matches_of_fields
  simp only [Sys2Proof.encode, opcodeRow, fieldOp_pack, fieldBd_pack, fieldBa_pack, fieldBk_pack, fieldN_pack, fieldImm_pack]
  simp [fieldOp, fieldBd, fieldBa, fieldBk, fieldN, fieldImm]
  rfl

theorem EncodesItsRow.bitent (bd : SlotNo) : EncodesItsRow.Statement (.bitent bd) := by
  apply matches_of_fields
  simp only [Sys2Proof.encode, opcodeRow, fieldOp_pack, fieldBd_pack, fieldBa_pack, fieldBk_pack, fieldN_pack, fieldImm_pack]
  simp [fieldOp, fieldBd, fieldBa, fieldBk, fieldN, fieldImm]
  rfl

theorem EncodesItsRow.build (bd ba : SlotNo) : EncodesItsRow.Statement (.build bd ba) := by
  apply matches_of_fields
  simp only [Sys2Proof.encode, opcodeRow, fieldOp_pack, fieldBd_pack, fieldBa_pack, fieldBk_pack, fieldN_pack, fieldImm_pack]
  simp [fieldOp, fieldBd, fieldBa, fieldBk, fieldN, fieldImm]
  rfl

theorem EncodesItsRow.encode (bd ba bk : SlotNo) : EncodesItsRow.Statement (.encode bd ba bk) := by
  apply matches_of_fields
  simp only [Sys2Proof.encode, opcodeRow, fieldOp_pack, fieldBd_pack, fieldBa_pack, fieldBk_pack, fieldN_pack, fieldImm_pack]
  simp [fieldOp, fieldBd, fieldBa, fieldBk, fieldN, fieldImm]
  rfl

theorem EncodesItsRow.decode (bd ba bk : SlotNo) : EncodesItsRow.Statement (.decode bd ba bk) := by
  apply matches_of_fields
  simp only [Sys2Proof.encode, opcodeRow, fieldOp_pack, fieldBd_pack, fieldBa_pack, fieldBk_pack, fieldN_pack, fieldImm_pack]
  simp [fieldOp, fieldBd, fieldBa, fieldBk, fieldN, fieldImm]
  rfl

end Sys2Proof.Laws
end

