-- ==== Sys2Proof/Tests/Slice0.lean ====
section
/-!
SUPPORT. Tests: ill-formed commands, words written out from the encodings, one step per command on small states, and for every
statement with hypotheses a state that meets them. Expected values come from spec/95_test_vectors.md, spec/30_encoding.md R95
and the examples in the rules, or are computed by hand from the rule named.
-/

namespace Sys2Proof.Tests

open Sys2Proof.Machine

-- One test after the other: many kernel evaluations at once need more memory than they save time.
set_option Elab.async false

/-! ### Helpers -/

/-- What is read off the next state. -/
def after {α : Type} (r : Result) (f : State → α) : Option α :=
  match r with
  | .next t => some (f t)
  | .fault _ => none
  | .refused _ => none

/-- A next state, from what is read off it. -/
theorem exists_next {α : Type} {r : Result} {f : State → α} {a : α} (h : after r f = some a) :
    ∃ t, r = .next t ∧ f t = a := by
  cases r with
  | next t => exact ⟨t, rfl, by simpa [after] using h⟩
  | fault f => cases f
  | refused f => simp [after] at h

/-- A dirty slot with the given content. -/
def slotOf (bytes : List Byte) (nfb : BitVec 3) : Slot := { Slot.createdEmpty with bytes := bytes, nfb := nfb }

/-- A refreshed slot. -/
def fresh (bytes : List Byte) : Slot := (slotOf bytes 0).refresh

/-- A block of four slots. -/
def block (cap : Nat) (slots : List Slot) : State := { State.resetFor { nbuf := 4, cap := cap } with slots := slots }

/-- The input, the key and the code of scenario S1. -/
def abc : Slot := fresh [0x41, 0x41, 0x42, 0x43]
def abcKey : Slot := slotOf [0x03, 0x03, 0x02, 0x00, 0x41, 0x10, 0x94, 0x38] 6
def abcCode : Slot := slotOf [0x06] 0

/-- Scenario S1, target 1/2. -/
def demo : State := { block 1024 [abc, abcKey, abcCode, Slot.createdEmpty] with tfnum := 1, tfden := 2 }

/-- Vectors T2 and Y3: an input whose key has a long tier. -/
def deep : Slot := fresh [0x61, 0x62, 0x72, 0x61, 0x63, 0x61, 0x64, 0x61, 0x62, 0x72, 0x61]
def deepKey : Slot := slotOf [0x05, 0x03, 0x02, 0x03, 0x61, 0x18, 0x97, 0x29, 0x8F, 0x32, 0x70] 4

/-- One command word, written to `CMD`. -/
def run (w : Nat) (s : State) : Result := step (s.withFetchWord 32 w)

/-! ### Well-formedness: an ill-formed command for each check -/

theorem test_wf_slot_number : (Instr.clear 4).wellFormed 4 = false ∧ (Instr.clear 3).wellFormed 4 = true := by decide
theorem test_wf_each_bd : ∀ i ∈ [Instr.append 5 8 0, .readbits 5 0, .rdbyte 5, .wrbyte 5 0, .clear 5, .copy 5 0, .load 5,
    .save 5, .stat 5, .refresh 5, .markdirty 5 0, .freq 5 0, .prob 5 0, .info 5 0, .byteent 5, .bitent 5, .build 5 0,
    .encode 5 0 1, .decode 5 0 1], i.wellFormed 5 = false ∧ i.wellFormed 6 = true := by decide
theorem test_wf_other_slots : ∀ i ∈ [Instr.copy 0 5, .build 0 5, .encode 0 5 1, .encode 0 1 5, .decode 0 5 1,
    .decode 0 1 5], i.wellFormed 5 = false ∧ i.wellFormed 6 = true := by decide
theorem test_wf_append_count : (Instr.append 0 0 0).wellFormed 4 = false ∧ (Instr.append 0 9 0).wellFormed 4 = false ∧
    (Instr.append 0 1 0).wellFormed 4 = true ∧ (Instr.append 0 8 0).wellFormed 4 = true := by decide
theorem test_wf_read_count : (Instr.readbits 0 9).wellFormed 4 = false ∧ (Instr.readbits 0 8).wellFormed 4 = true := by
  decide
theorem test_wf_force : (Instr.markdirty 0 2).wellFormed 4 = false ∧ (Instr.markdirty 0 1).wellFormed 4 = true := by decide
theorem test_wf_aliases : ∀ i ∈ [Instr.copy 1 1, .build 1 1, .encode 1 1 2, .encode 1 2 1, .decode 1 1 2, .decode 1 2 1],
    i.wellFormed 4 = false := by decide
theorem test_wf_sources_may_agree : (Instr.encode 1 2 2).wellFormed 4 = true ∧ (Instr.decode 1 2 2).wellFormed 4 = true := by
  decide

/-! ### Decoding: words written out field by field, op bd ba bk n imm (R80, R82) -/

theorem test_decode_append : decode 0b00000001_0010_0000_0000_0011_00000101 = .ok (.append 2 3 0x05) := by rfl
theorem test_decode_readbits : decode 0b00000010_0010_0000_0000_0010_00000000 = .ok (.readbits 2 2) := by rfl
theorem test_decode_rdbyte : decode 0b00000011_0111_0000_0000_0000_00000000 = .ok (.rdbyte 7) := by rfl
theorem test_decode_wrbyte : decode 0b00000100_0010_0000_0000_0000_10000001 = .ok (.wrbyte 2 0x81) := by rfl
theorem test_decode_clear : decode 0b00000101_1111_0000_0000_0000_00000000 = .ok (.clear 15) := by rfl
theorem test_decode_copy : decode 0b00000110_0100_0010_0000_0000_00000000 = .ok (.copy 4 2) := by rfl
theorem test_decode_load : decode 0b00000111_0101_0000_0000_0000_00000000 = .ok (.load 5) := by rfl
theorem test_decode_save : decode 0b00001000_0010_0000_0000_0000_00000000 = .ok (.save 2) := by rfl
theorem test_decode_stat : decode 0b00001001_0010_0000_0000_0000_00000000 = .ok (.stat 2) := by rfl
theorem test_decode_refresh : decode 0b00010000_0000_0000_0000_0000_00000000 = .ok (.refresh 0) := by rfl
theorem test_decode_markdirty : decode 0b00010001_0000_0000_0000_0001_00000000 = .ok (.markdirty 0 1) := by rfl
theorem test_decode_freq : decode 0b00010010_0000_0000_0000_0000_01000001 = .ok (.freq 0 0x41) := by rfl
theorem test_decode_prob : decode 0b00010011_0000_0000_0000_0000_01100010 = .ok (.prob 0 0x62) := by rfl
theorem test_decode_info : decode 0b00010100_0000_0000_0000_0000_01100011 = .ok (.info 0 0x63) := by rfl
theorem test_decode_byteent : decode 0b00010101_0011_0000_0000_0000_00000000 = .ok (.byteent 3) := by rfl
theorem test_decode_bitent : decode 0b00010110_0011_0000_0000_0000_00000000 = .ok (.bitent 3) := by rfl
theorem test_decode_build : decode 0b00100000_0001_0000_0000_0000_00000000 = .ok (.build 1 0) := by rfl
theorem test_decode_encode : decode 0b00100001_0010_0000_0001_0000_00000000 = .ok (.encode 2 0 1) := by rfl
theorem test_decode_decode : decode 0b00100010_0011_0010_0001_0000_00000000 = .ok (.decode 3 2 1) := by rfl

/-- Reserved opcodes, the ends of every gap of R82 (R83). -/
theorem test_reserved_opcodes : ([0x00, 0x0A, 0x0F, 0x17, 0x1F, 0x23, 0xFF].all fun op =>
    decode (packFields op 0 0 0 0 0) == .error .reservedOpcode) = true := by decide +kernel

/-- A field that must be zero is not, in each field (R83; the last three are vectors of spec/95_test_vectors.md). -/
theorem test_reserved_fields : ([0x01001101, 0x02200201, 0x03200100, 0x06421000, 0x22321100, 0x01210305, 0x10000001,
    0x21201001].all fun w => decode w == .error .reservedField) = true := by decide +kernel

/-- The table's word of fewer bits keeps its low bits only. -/
theorem test_table_word : decodeTableWord 32 0x12000041 = some (.freq 0 0x41) ∧ decodeTableWord 32 0x0A000000 = none := by
  decide +kernel

/-! ### Reset and the first instruction (R43) -/

theorem test_reset : State.reset.nbuf = 16 ∧ State.reset.status = 0 ∧ State.reset.tfnum = 4 ∧ State.reset.tfden = 5 ∧
    State.reset.slots.all (fun x => x.bytes == [] && x.nfb == 0 && x.dirty) = true := by decide +kernel

theorem test_first_command : after (step (State.reset.withFetchWord 32 0x01200305))
    (fun t => ((t.slot 2).bytes, (t.slot 2).nfb, t.status)) = some ([0xA0], 3, 0) := by decide +kernel

theorem test_core_waits : after (core.step core.reset) (fun t => t == State.reset) = some true := by decide +kernel

/-- The external reset of a used block (R280). -/
theorem test_external_reset : after (step { demo with host := [.reset], status := 7 })
    (fun t => (t.nbuf, t.cap, t.status, t.tfnum, t.slots.all fun x => x.bytes == [] && x.dirty)) =
      some (4, 1024, 0, 4, true) := by decide +kernel

/-! ### One step per command -/

/-- Vector A2. -/
theorem test_append_splits : after (run 0x012008FF (block 9 [abc, abc, slotOf [0xA0] 3, abc]))
    (fun t => ((t.slot 2).bytes, (t.slot 2).nfb, (t.slot 2).dirty, t.status)) = some ([0xBF, 0xE0], 3, true, 0) := by
  decide +kernel

/-- Section 2.1: `len = CAP`, `nfb = 3`: five bits fit, six do not. -/
theorem test_append_capacity :
    after (run 0x01200500 (block 1 [abc, abc, slotOf [0xBF] 3, abc])) (fun t => ((t.slot 2).bytes, t.status)) =
      some ([0xA0], 0) ∧
    after (run 0x01200600 (block 1 [abc, abc, slotOf [0xBF] 3, abc])) (fun t => ((t.slot 2).bytes, t.status, t.einfo)) =
      some ([0xBF], 7, 2) := by decide +kernel

/-- Vectors Q11 and Q14. -/
theorem test_readbits :
    after (run 0x02200800 { block 9 [abc, abc, slotOf [0xBF, 0xE0, 0xFF, 0xB5, 0x7D, 0x40] 3, abc] with arg := 4 })
      (fun t => (t.res, t.status)) = some (0xFE, 0) ∧
    after (run 0x02200800 { block 9 [abc, abc, slotOf [0xBF, 0xE0, 0xFF, 0xB5, 0x7D, 0x40] 3, abc] with arg := 36 })
      (fun t => (t.res, t.status, t.einfo)) = some (0, 1, 36) := by decide +kernel

/-- Section 2.4. -/
theorem test_rdbyte :
    after (run 0x03200000 { block 9 [abc, abc, slotOf [0xBF, 0xE8] 5, abc] with arg := 1 }) (fun t => (t.res, t.status)) =
      some (0xE8, 0) ∧
    after (run 0x03200000 { block 9 [abc, abc, slotOf [0xBF, 0xE8] 5, abc] with arg := 2 }) (fun t => (t.einfo, t.status)) =
      some (2, 1) := by decide +kernel

/-- R128, R283: the flag of a refreshed slot stays clear, and its counters stay. -/
theorem test_wrbyte : after (run 0x0400005A { block 9 [abc, abc, abc, abc] with arg := 3 })
    (fun t => ((t.slot 0).bytes, (t.slot 0).dirty, (t.slot 0).freq == abc.freq, t.status)) =
      some ([0x41, 0x41, 0x42, 0x5A], false, true, 0) := by decide +kernel

theorem test_wrbyte_cannot_extend : after (run 0x04200000 { block 9 [abc, abc, slotOf [0xBF, 0xE8] 5, abc] with arg := 2 })
    (fun t => ((t.slot 2).bytes, t.status)) = some ([0xBF, 0xE8], 1) := by decide +kernel

theorem test_clear : after (run 0x05200000 (block 9 [abc, abc, slotOf [0xBF, 0xE8] 5, abc]))
    (fun t => ((t.slot 2).bytes, (t.slot 2).nfb, (t.slot 2).dirty)) = some ([], 0, true) := by decide +kernel

/-- R130: the copy of a refreshed slot is dirty. -/
theorem test_copy : after (run 0x06300000 demo) (fun t => ((t.slot 3).bytes, (t.slot 3).dirty, t.slot 0 == abc)) =
    some ([0x41, 0x41, 0x42, 0x43], true, true) := by decide +kernel

theorem test_copy_cursor : after (run 0x06020000 (block 9 [abc, abc, slotOf [0xBF, 0xE8] 5, abc]))
    (fun t => ((t.slot 0).bytes, (t.slot 0).nfb)) = some ([0xBF, 0xE8], 5) := by decide +kernel

theorem test_load : after (run 0x07300000 { block 9 [abc, abc, abc, abcKey] with arg := 2, din := [0xBF, 0xE8, 0x11] })
    (fun t => ((t.slot 3).bytes, (t.slot 3).nfb, (t.slot 3).bitLen, t.din)) = some ([0xBF, 0xE8], 0, 16, [0x11]) := by
  decide +kernel

theorem test_load_capacity : after (run 0x07300000 { block 9 [abc, abc, abc, abcKey] with arg := 10 })
    (fun t => (t.status, t.einfo, t.slot 3 == abcKey)) = some (7, 3, true) := by decide +kernel

theorem test_save : after (run 0x08200000 { block 9 [abc, abc, slotOf [0xBF, 0xE8] 5, abc] with dout := [0x01] })
    (fun t => (t.dout, (t.slot 2).nfb)) = some ([0x01, 0xBF, 0xE8], 5) := by decide +kernel

theorem test_stat : after (run 0x09200000 (block 9 [abc, abc, slotOf [0xBF, 0xE8] 5, abc])) (fun t => (t.res, t.res2)) =
    some (2, 0xD) := by decide +kernel

/-- Vector T1; the cursor plays no part. -/
theorem test_refresh : after (run 0x10000000 (block 9 [slotOf [0x41, 0x41, 0x42, 0x43] 3, abc, abc, abc]))
    (fun t => ((t.slot 0).freqOf 0x41, (t.slot 0).freqOf 0x42, (t.slot 0).freqOf 0x44, (t.slot 0).total,
      (t.slot 0).dirty)) = some (2, 1, 0, 4, false) := by decide +kernel

theorem test_markdirty : after (run 0x11000000 demo) (fun t => (t.slot 0).dirty) = some true ∧
    after (run 0x11100100 demo) (fun t => ((t.slot 1).dirty, (t.slot 1).total, (t.slot 1).freqOf 0x03)) =
      some (false, 8, 2) := by decide +kernel

theorem test_markdirty_two : after (run 0x11000200 demo) (fun t => (t.status, t.einfo)) = some (9, 0x11000200) := by
  decide +kernel

theorem test_freq : after (run 0x12000041 demo) (fun t => t.res) = some 2 ∧
    after (run 0x12000044 demo) (fun t => t.res) = some 0 := by decide +kernel

theorem test_freq_stale : after (run 0x12100041 demo) (fun t => (t.status, t.einfo, t.res)) = some (2, 1, 0) := by
  decide +kernel

theorem test_prob : after (run 0x13000043 demo) (fun t => (t.res, t.res2, t.status)) = some (1, 4, 0) := by decide +kernel

/-- Vector T7. -/
theorem test_prob_empty : after (run 0x13300043 (block 9 [abc, abc, abc, fresh []])) (fun t => (t.status, t.einfo)) =
    some (5, 3) := by decide +kernel

/-- Vector T1: `log2 4 - log2 2`; a value that does not occur fails. -/
theorem test_info : after (run 0x14000041 demo) (fun t => t.resf) =
      some { terms := [{ weightNum := 1, weightDen := 1, argNum := 4, argDen := 1 },
        { weightNum := -1, weightDen := 1, argNum := 2, argDen := 1 }] } ∧
    after (run 0x14000044 demo) (fun t => (t.status, t.einfo)) = some (5, 0) := by decide +kernel

/-- Vector T1, byte entropy 1.5 as a real number. -/
theorem test_byteent_real : after (run 0x15000000 demo) (fun t => t.resf) =
      some { terms := [entropyTerm 2 4, entropyTerm 1 4, entropyTerm 1 4] } ∧
    realOf { terms := [entropyTerm 2 4, entropyTerm 1 4, entropyTerm 1 4] } = 1.5 := by
  refine ⟨by decide +kernel, ?_⟩
  have h2 : Real.logb 2 (2 / 4) = -1 := by
    rw [show (2 / 4 : ℝ) = 2 ^ (-1 : ℝ) by rw [Real.rpow_neg_one]; norm_num]
    exact Real.logb_rpow (by norm_num) (by norm_num)
  have h4 : Real.logb 2 (1 / 4) = -2 := by
    rw [show (1 / 4 : ℝ) = 2 ^ (-2 : ℝ) by rw [Real.rpow_neg (by norm_num)]; norm_num]
    exact Real.logb_rpow (by norm_num) (by norm_num)
  simp only [realOf, termReal, entropyTerm, List.map_cons, List.map_nil, List.sum_cons, List.sum_nil]
  push_cast
  rw [h2, h4]
  norm_num

/-- Vectors T1 (`q = 9/32`) and T4 (`q = 1`). -/
theorem test_bitent : after (run 0x16000000 demo) (fun t => t.resf) =
      some { terms := [entropyTerm 9 32, entropyTerm 23 32] } ∧
    after (run 0x16000000 (block 9 [fresh [0xFF, 0xFF, 0xFF], abc, abc, abc])) (fun t => t.resf) = some ExactReal.zero := by
  decide +kernel

/-- Vectors G1 and Y1. -/
theorem test_build_short_tier : after (run 0x20300000 demo)
    (fun t => ((t.slot 3).bytes, (t.slot 3).nfb, (t.slot 3).dirty, t.status)) =
      some ([0x03, 0x03, 0x02, 0x00, 0x41, 0x10, 0x94, 0x38], 6, true, 0) := by decide +kernel

/-- Vectors G4 and Y3. -/
theorem test_build_long_tier : after (run 0x20300000 (block 1024 [deep, abc, abc, abc]))
    (fun t => (t.slot 3).bytes) = some deepKey.bytes := by decide +kernel

/-- The example of R202; the destination ends refreshed. -/
theorem test_encode : after (run 0x21301000 demo)
    (fun t => ((t.slot 3).bytes, (t.slot 3).nfb, (t.slot 3).dirty, (t.slot 3).freqOf 0x06, (t.slot 3).total)) =
      some ([0x06], 0, false, 1, 1) := by decide +kernel

/-- Vector E8: long codewords. -/
theorem test_encode_long : after (run 0x21301000 (block 9 [fresh [0x64, 0x61, 0x63], deepKey, abc, abc]))
    (fun t => ((t.slot 3).bytes, (t.slot 3).nfb)) = some ([0xE6], 0) := by decide +kernel

/-- The example of R203; the destination ends dirty. -/
theorem test_decode : after (run 0x22321000 demo)
    (fun t => ((t.slot 3).bytes, (t.slot 3).nfb, (t.slot 3).dirty, t.status)) =
      some ([0x41, 0x41, 0x42, 0x43], 0, true, 0) := by decide +kernel

/-- Vector X12: a long codeword cut off by the end of the input. -/
theorem test_decode_cut_off : after (run 0x22321000 (block 9 [abc, deepKey, slotOf [0x03] 0, abc]))
    (fun t => ((t.slot 3).bytes, t.status, t.einfo)) = some ([0x61, 0x61, 0x61], 1, 6) := by decide +kernel

/-! ### Witnesses: the hypotheses of each statement are met -/

theorem witness_EncodeOfDecode : decode 0x21201000 = .ok (.encode 2 0 1) := by rfl

theorem witness_DecoderAcceptsExactlyTheTable : decode 0x21201000 = .ok (.encode 2 0 1) ∧
    opcodeRow (.encode 2 0 1) ∈ opcodeRows := by exact ⟨rfl, by decide⟩

theorem witness_StepRunsDecodedCommand : decode 0x10000000 = .ok (.refresh 0) ∧
    { demo with host := [.write .cmd 0x10000000, .reset] }.host = .write .cmd 0x10000000 :: [HostAction.reset] := by
  exact ⟨rfl, rfl⟩

/-- Illegal: the opcode below the first and above the last, and one reserved bit; legal: the first and the last row. -/
theorem witness_IllegalWordFails : (IllegalWord 0x00FFFFFF ∧ IllegalWord 0x23000000 ∧
      IllegalWord 0x01001000 ∧ IllegalWord 0x22000001) ∧ (¬ IllegalWord 0x01000000 ∧ ¬ IllegalWord 0x22FFF000) ∧
    { demo with host := [.write .cmd 0x23000000] }.host = .write .cmd 0x23000000 :: [] ∧
    ∃ t, step { demo with host := [.write .cmd 0x01000000] } = .next t := by
  refine ⟨by decide +kernel, by decide +kernel, rfl, ?_⟩
  obtain ⟨t, h, _⟩ := exists_next (r := step { demo with host := [.write .cmd 0x01000000] }) (f := fun t => t.status) (a := 9)
    (by decide +kernel)
  exact ⟨t, h⟩

theorem witness_RegisterPort : ∀ a ∈ [HostAction.write .arg 0xFFFFFFFF, .write .tfnum 0, .write .tfden 1, .write .status 7,
    .write .einfo 7, .write .res 7, .write .res2 7, .write .resf 7, .read .cmd, .read .arg, .read .tfnum, .read .tfden,
    .read .status, .read .einfo, .read .res, .read .res2, .read .resf], { demo with host := [a] }.host = a :: [] := by
  exact fun _ _ => rfl

theorem witness_HostSideSteps : demo.host = [] ∧ { demo with host := [.supply [0x41]] }.host = .supply [0x41] :: [] ∧
    { demo with host := [.reset] }.host = .reset :: [] := by exact ⟨rfl, rfl, rfl⟩

/-- The least and the largest configuration; the witness of `ResetTable` and of `InvHoldsAtReset`. -/
theorem witness_ResetTable : Config.Valid { nbuf := 4, cap := 1 } ∧ Config.Valid { nbuf := 16, cap := 2 ^ 29 - 1 } := by
  decide

/-- The statistics of a refreshed slot add up (R158). -/
theorem fresh_sum (bytes : List Byte) (h : bytes.length < 2 ^ 32) :
    (fresh bytes).freqSum = (fresh bytes).total.toNat ∧ (fresh bytes).freqSum = bytes.length :=
  (Slot.refresh_describes (slotOf bytes 0) h).2

theorem demo_inv : demo.Inv := by
  refine ⟨by decide, by decide, ?_⟩
  simp only [demo, block, List.forall_mem_cons]
  exact ⟨⟨by decide, by decide, countAll_length _, fun _ => ⟨(fresh_sum _ (by decide)).1, by decide⟩⟩,
    by decide +kernel, by decide +kernel, by decide +kernel, by simp⟩

theorem witness_StepKeepsInv : (demo.withFetchWord 32 0x06300000).Inv ∧
    ∃ t, step (demo.withFetchWord 32 0x06300000) = .next t ∧ ((t.slot 3).bytes == abc.bytes) = true :=
  ⟨demo_inv, exists_next (by decide +kernel)⟩

theorem witness_StaleStatisticsUnobservable : ∃ s t : State, s ≠ t ∧ s.forgetStale = t.forgetStale :=
  ⟨demo, { demo with slots := [abc, { abcKey with total := 7 }, abcCode, Slot.createdEmpty] }, by decide +kernel,
    by decide +kernel⟩

/-- A successful command: the witness of `OnlyDestinationChanges`, `OperandRegistersKept`, `SuccessKeepsEinfo`, `OutcomeCodes`. -/
theorem witness_OnlyDestinationChanges : (Instr.copy 3 0).destination ≠ some 0 ∧ (∀ b, Instr.copy 3 0 ≠ .load b) ∧
    (∀ b, Instr.copy 3 0 ≠ .save b) ∧ ∃ t, exec (.copy 3 0) demo = .next t ∧ (t.status == 0) = true :=
  ⟨by decide, by simp, by simp, exists_next (by decide +kernel)⟩

/-- A failing command in each clause: no partial result; `BUILD` with a code that leaves none; a late failure, which may write
slot 3 and must not write slot 0. -/
theorem witness_FailureKeepsEverythingElse :
    (Instr.readbits 1 1).leavesPartialResult = false ∧
    (∃ t, exec (.readbits 1 1) { demo with arg := 62 } = .next t ∧ (t.status == 1) = true) ∧
    (∃ t, exec (.build 3 1) demo = .next t ∧ (t.status == 2) = true) ∧
    (Instr.decode 3 2 1).destination = some 3 ∧ (Instr.decode 3 2 1).destination ≠ some 0 ∧
    ∃ t, exec (.decode 3 2 1) { demo with cap := 3 } = .next t ∧ (t.status == 7) = true :=
  ⟨rfl, exists_next (by decide +kernel), exists_next (by decide +kernel), rfl, by decide, exists_next (by decide +kernel)⟩

/-- The first slot number out of range; a target of 0 and a target of 1; a failing command. -/
theorem witness_BadOperandExactly : (Instr.clear 4).wellFormed demo.nbuf = false ∧
    ({ demo with tfnum := 0 }.tfnum = 0) ∧ ({ demo with tfnum := 2 }.tfden.toNat ≤ { demo with tfnum := 2 }.tfnum.toNat) ∧
    ∃ t, exec (.clear 4) demo = .next t ∧ (t.status == 9) = true :=
  ⟨by decide, rfl, by decide, exists_next (by decide +kernel)⟩

/-- The last slot; the smallest target there is. -/
theorem witness_StaleStatisticsFails : (3 : SlotNo).toNat < demo.nbuf ∧ (demo.slot 3).dirty = true ∧
    (0 : SlotNo).toNat < demo.nbuf ∧ (0 : SlotNo) ≠ 3 ∧ 0 < demo.tfnum.toNat ∧ demo.tfnum.toNat < demo.tfden.toNat := by
  decide

/-- Fresh and empty; fresh with a byte value that does not occur; dirty. -/
theorem witness_UndefinedStatisticFails :
    let s : State := { block 9 [fresh [], abc, abcKey, abc] with tfnum := 1, tfden := 2 }
    ((0 : SlotNo).toNat < s.nbuf ∧ (s.slot 0).dirty = false ∧ (s.slot 0).total = 0) ∧
    ((1 : SlotNo).toNat < s.nbuf ∧ (s.slot 1).dirty = false ∧ (s.slot 1).freqOf 0x44 = 0) ∧
    ((3 : SlotNo).toNat < s.nbuf ∧ (3 : SlotNo) ≠ 0 ∧ 0 < s.tfnum.toNat ∧ s.tfnum.toNat < s.tfden.toNat) ∧
    (s.slot 2).dirty = true ∧ ∃ t, exec (.prob 2 0) s = .next t ∧ (t.status == 2) = true :=
  ⟨by decide +kernel, by decide +kernel, by decide +kernel, rfl, exists_next (by decide +kernel)⟩

/-- One bit past the 62 bits of slot 1, no bit past bit 63, and the byte after its last. -/
theorem witness_OutOfRangeAccessFails : (1 : SlotNo).toNat < demo.nbuf ∧
    (demo.slot 1).bitLen < (62 : Word).toNat + (1 : CountField).toNat ∧
    (demo.slot 1).bitLen < (63 : Word).toNat + (0 : CountField).toNat ∧
    (demo.slot 1).bytes.length ≤ (8 : Word).toNat := by decide +kernel

/-- A full slot; a load of one byte too many. -/
theorem witness_CapacityStopsAppendAndLoad :
    let s : State := { block 1 [slotOf [0xBF] 3, slotOf [0xBF] 0, abc, abc] with arg := 2 }
    (0 : SlotNo).toNat < s.nbuf ∧ (s.slot 0).CursorOk ∧ s.cap < ((s.slot 0).bitLen + (6 : CountField).toNat + 7) / 8 ∧
    (s.slot 1).CursorOk ∧ s.cap < ((s.slot 1).bitLen + (1 : CountField).toNat + 7) / 8 ∧ s.cap < s.arg.toNat := by
  decide +kernel

theorem witness_StatisticsWrittenOnlyByRefresh : ¬ ((Instr.markdirty 0 0).refreshes 0 ∧ (0 : Word) = 0) ∧
    ∃ t, exec (.markdirty 0 0) demo = .next t ∧ (t.status == 0) = true :=
  ⟨by simp [Instr.refreshes], exists_next (by decide +kernel)⟩

/-- A command that writes none of the three, and a query that fails. -/
theorem witness_ResultRegistersOnlyByQueries : (Instr.copy 3 0).writesRes = false ∧ (Instr.copy 3 0).writesRes2 = false ∧
    (Instr.copy 3 0).writesResf = false ∧ (∃ t, exec (.copy 3 0) demo = .next t ∧ (t.status == 0) = true) ∧
    ∃ t, exec (.prob 1 0) demo = .next t ∧ (t.status == 2) = true :=
  ⟨rfl, rfl, rfl, exists_next (by decide +kernel), exists_next (by decide +kernel)⟩

theorem witness_RepeatedAccessIsIdempotent : (Instr.stat 1).isQuery = true ∧
    (∃ t, exec (.stat 1) demo = .next t ∧ (t.res == 8) = true) ∧
    ∃ t, exec (.wrbyte 1 0x55) demo = .next t ∧ (t.status == 0) = true :=
  ⟨rfl, exists_next (by decide +kernel), exists_next (by decide +kernel)⟩

/-- Eight bits into an empty slot of one byte, and five bits that fill the last byte there is. -/
theorem witness_AppendPlacesField : let s := block 1 [slotOf [0xBF] 3, Slot.createdEmpty, abc, abc]
    ((1 : SlotNo).toNat < s.nbuf ∧ (s.slot 1).CursorOk ∧ ((s.slot 1).bitLen + (8 : CountField).toNat + 7) / 8 ≤ s.cap) ∧
    (0 : SlotNo).toNat < s.nbuf ∧ (s.slot 0).CursorOk ∧ ((s.slot 0).bitLen + (5 : CountField).toNat + 7) / 8 ≤ s.cap := by
  decide +kernel

theorem witness_AppendIsTwoCalls : (slotOf [0xBF] 3).nfb ≠ 0 ∧ 8 - (slotOf [0xBF] 3).nfb.toNat < 6 ∧
    (slotOf [0xBF] 3).CursorOk ∧ (slotOf [0xBF] 3).appendBits 2 0x2A 6 = .done (slotOf [0xB5, 0x00] 1) := by
  decide +kernel

/-- Section 2.3; the first field is `before = []`. -/
theorem witness_BitPackInverse : Slot.createdEmpty.bytes = [] ∧ Slot.createdEmpty.nfb = 0 ∧
    (∀ f ∈ [(0x1A5, 9), (0xFFFF, 16), (0x2AB, 10), (1, 1)], 1 ≤ f.2 ∧ f.2 ≤ 16) ∧
    Slot.createdEmpty.appendFields 5 [(0x1A5, 9), (0xFFFF, 16), (0x2AB, 10), (1, 1)] =
      .done (slotOf [0xD2, 0xFF, 0xFF, 0xD5, 0x70] 4) ∧
    [(0x1A5, 9), (0xFFFF, 16), (0x2AB, 10), (1, 1)] = [(0x1A5, 9), (0xFFFF, 16)] ++ (0x2AB, 10) :: [(1, 1)] := by
  decide +kernel

/-- The last eight of the 62 bits, and no bit at the end. -/
theorem witness_ReadbitsReturnsField : (1 : SlotNo).toNat < demo.nbuf ∧
    { demo with arg := 54 }.arg.toNat + (8 : CountField).toNat ≤ (demo.slot 1).bitLen ∧
    { demo with arg := 62 }.arg.toNat + (0 : CountField).toNat ≤ (demo.slot 1).bitLen := by decide +kernel

/-- The last byte; also for `WrbyteReplacesOneByte`. -/
theorem witness_RdbyteReturnsByte : (1 : SlotNo).toNat < demo.nbuf ∧
    { demo with arg := 7 }.readByte 1 { demo with arg := 7 }.arg.toNat = some 0x38 ∧
    { demo with arg := 7 }.arg.toNat < ({ demo with arg := 7 }.slot 1).bytes.length := by decide +kernel

/-- The last slot; also for `SaveSendsBytes`, `StatReports`, `MarkdirtyForms`. -/
theorem witness_ClearEmptiesSlot : (3 : SlotNo).toNat < demo.nbuf := by decide

theorem witness_CopyDuplicatesContent : (3 : SlotNo).toNat < demo.nbuf ∧ (0 : SlotNo).toNat < demo.nbuf ∧ (3 : SlotNo) ≠ 0 := by
  decide

/-- A load of as many bytes as the slot can hold: all supplied, and one of them not. -/
theorem witness_LoadTakesDin : let s : State := { block 2 [abc, abc, abc, abc] with arg := 2, din := [0xBF, 0xE8] }
    (3 : SlotNo).toNat < s.nbuf ∧ s.arg.toNat ≤ s.cap ∧ s.arg.toNat ≤ s.din.length ∧ 1 < s.arg.toNat ∧ 1 < s.din.length ∧
    0 < { s with din := [0xBF] }.din.length ∧ { s with din := [0xBF] }.din.length < s.arg.toNat := by decide +kernel

/-- Also for `ProbabilitiesSumToOne`. -/
theorem witness_RefreshCountsBytes : (2 : SlotNo).toNat < demo.nbuf ∧ (demo.slot 2).bytes.length < 2 ^ 32 ∧
    (demo.slot 2).bytes ≠ [] ∧ ∃ t, exec (.refresh 2) demo = .next t ∧ (t.status == 0) = true :=
  ⟨by decide, by decide, by decide, exists_next (by decide +kernel)⟩

/-- The fresh slot of S1: for `FreqReturnsCounter`, `ProbReturnsQuotient`, `InfoIsMinusLog`, `ByteEntropyValue`, `BitEntropyValue`,
`OrderingIsSorted`, `WalkStopsAtTarget` and `AssignmentBounds`. -/
theorem witness_fresh : (0 : SlotNo).toNat < demo.nbuf ∧ (demo.slot 0).dirty = false ∧ (demo.slot 0).total ≠ 0 ∧
    (demo.slot 0).freqOf 0x41 ≠ 0 ∧ (demo.slot 0).freqOf 0x41 ≤ (demo.slot 0).total.toNat ∧
    1 ≤ (demo.slot 0).total.toNat ∧ (demo.slot 0).freqSum = (demo.slot 0).total.toNat :=
  ⟨by decide, by decide, by decide +kernel, by decide +kernel, by decide +kernel, by decide +kernel,
    (fresh_sum [0x41, 0x41, 0x42, 0x43] (by decide)).1⟩

/-- `BitEntropyValue` at its two ends, `q = 0` and `q = 1` (vectors T3 and T4). -/
theorem witness_BitEntropyValue : (fresh [0x00]).dirty = false ∧ (fresh [0x00]).total ≠ 0 ∧
    (fresh [0x00]).freqSum = (fresh [0x00]).total.toNat ∧ (fresh [0xFF]).freqSum = (fresh [0xFF]).total.toNat :=
  ⟨rfl, by decide, (fresh_sum _ (by decide)).1, (fresh_sum _ (by decide)).1⟩

/-- `AssignmentBounds` and `BuildWritesKey` with both tiers, in a slot of the 11 bytes that the 84 bits of the key need
(vector G4). -/
theorem witness_BuildWritesKey :
    let s : State := { block 11 [deep, abc, abc, abc] with tfnum := 4, tfden := 5 }
    ((3 : SlotNo).toNat < s.nbuf ∧ (0 : SlotNo).toNat < s.nbuf ∧ (3 : SlotNo) ≠ 0 ∧ 0 < s.tfnum.toNat ∧
      s.tfnum.toNat < s.tfden.toNat ∧ (s.slot 0).dirty = false ∧ 1 ≤ (s.slot 0).total.toNat ∧
      32 + 3 * (8 + 2) + (5 - 3) * (8 + 3) ≤ 8 * s.cap) ∧
    (s.slot 0).freqSum = (s.slot 0).total.toNat ∧
    assign (s.slot 0) s.tfnum.toNat s.tfden.toNat =
      { ord := [⟨0x61, 5⟩, ⟨0x62, 2⟩, ⟨0x72, 2⟩, ⟨0x63, 1⟩, ⟨0x64, 1⟩], m := 5, k := 3, bs := 2, bl := 3 } :=
  ⟨by decide +kernel, (fresh_sum _ (by decide)).1, by decide +kernel⟩

theorem witness_BuiltKeyParses : demo.Inv ∧ (demo.slot 0).freqSum = (demo.slot 0).total.toNat ∧
    ∃ t, exec (.build 3 0) demo = .next t ∧ t.status = 0 := by
  have e : run 0x20300000 demo = exec (.build 3 0) demo := rfl
  obtain ⟨t, h, g⟩ := exists_next (e ▸ test_build_short_tier)
  exact ⟨demo_inv, (fresh_sum [0x41, 0x41, 0x42, 0x43] (by decide)).1, t, h, congrArg (fun p => p.2.2.2) g⟩

/-- The codebook of a key, for the statements that take one. -/
def bookOf (x : Slot) : Codebook :=
  match parseKey x with
  | .ok book => book
  | .error _ => { header := { m := 0, k := 0, bs := 0, bl := 0 }, entries := [] }

/-- The keys of S1 and of vector Y3 are accepted, with the entries they were built from (R201): the witness of
`AcceptedKeysAreSound`. -/
theorem abcKey_accepted : parseKey abcKey = .ok { header := { m := 3, k := 3, bs := 2, bl := 0 }, entries :=
    [⟨0x41, 0, 2⟩, ⟨0x42, 1, 2⟩, ⟨0x43, 2, 2⟩] } := by rfl

theorem deepKey_accepted : parseKey deepKey = .ok { header := { m := 5, k := 3, bs := 2, bl := 3 }, entries :=
    [⟨0x61, 0, 2⟩, ⟨0x62, 1, 2⟩, ⟨0x72, 2, 2⟩, ⟨0x63, 6, 3⟩, ⟨0x64, 7, 3⟩] } := by rfl

/-- Vectors K1 to K11: a key for each header check, each just past its boundary; and a count field of 0. -/
theorem witness_KeyHeaderChecks :
    (slotOf [0x03, 0x03, 0x02] 0).bytes.length < 4 ∧
    (slotOf [0x03, 0x03, 0x00, 0x00] 0).bytes = 0x03 :: 0x03 :: 0x00 :: 0x00 :: [] ∧
    (slotOf [0x01, 0x01, 0x11, 0x00] 0).bytes = 0x01 :: 0x01 :: 0x11 :: 0x00 :: [] ∧
    (slotOf [0x05, 0x03, 0x02, 0x02] 0).bytes = 0x05 :: 0x03 :: 0x02 :: 0x02 :: [] ∧
    (slotOf [0x05, 0x03, 0x02, 0x11] 0).bytes = 0x05 :: 0x03 :: 0x02 :: 0x11 :: [] ∧
    (slotOf [0x02, 0x03, 0x02, 0x00] 0).bytes = 0x02 :: 0x03 :: 0x02 :: 0x00 :: [] ∧
    (slotOf [0x05, 0x03, 0x02, 0x00] 0).bytes = 0x05 :: 0x03 :: 0x02 :: 0x00 :: [] ∧
    (slotOf abcKey.bytes 5).bitLen < 32 + 3 * (8 + 2) + (3 - 3) * (8 + 0) ∧
    (slotOf [0x00, 0x00, 0x08, 0x00] 0).bytes = (0 : Byte) :: 0 :: 0x08 :: 0x00 :: [] := by decide +kernel

/-- Vectors K1 (check 1) and K16 (check 9). -/
theorem witness_InvalidKeyRefused :
    parseKey Slot.createdEmpty = .error { kind := .invalidKey, info := 1 } ∧
    parseKey (slotOf [0x03, 0x03, 0x02, 0x00, 0x41, 0x10, 0x84, 0x38] 6) = .error { kind := .invalidKey, info := 9 } := by
  exact ⟨rfl, rfl⟩

/-- The output fills the slot to its last bit. -/
theorem witness_EncodeConcatenatesCodewords : parseKey abcKey = .ok (bookOf abcKey) ∧
    (∀ v ∈ abc.bytes, (bookOf abcKey).enc v ≠ none) ∧ ((bookOf abcKey).codeBits abc.bytes).length ≤ 8 * 1 := by
  exact ⟨rfl, by decide +kernel, by decide +kernel⟩

/-- Vector E13, and an unknown first byte. -/
theorem witness_EncodeUnknownSymbol : (bookOf abcKey).enc 0x44 = none ∧
    ([0x41, 0x42, 0x44, 0x41] : List Byte) = [0x41, 0x42] ++ 0x44 :: [0x41] ∧
    (∀ v ∈ ([0x41, 0x42] : List Byte), (bookOf abcKey).enc v ≠ none) ∧
    ((bookOf abcKey).codeBits [0x41, 0x42]).length ≤ 8 * 1 ∧
    (fresh [0x44]).bytes = [] ++ 0x44 :: [] := by decide +kernel

/-- Vectors X1 (nothing left over) and X7 (one bit left over). -/
theorem witness_DecodeInvertsCodewords :
    (abcCode.dataBits = (bookOf abcKey).codeBits [0x41, 0x41, 0x42, 0x43] ++ [] ∧ 0 < (bookOf abcKey).header.bs) ∧
    (slotOf [0x40] 3).dataBits = (bookOf abcKey).codeBits [0x42] ++ [false] ∧
    [false].length < (bookOf abcKey).header.bs := by decide +kernel

/-- Vectors X12 (cut off), X11 (short codeword without an entry) and X14 (long codeword without an entry). -/
theorem witness_DecodeStopsAtBadCodeword :
    ((slotOf [0x03] 0).dataBits = (bookOf deepKey).codeBits [0x61, 0x61, 0x61] ++ [true, true] ∧
      (slotOf [0x03] 0).fieldAt 6 2 = (bookOf deepKey).header.esc ∧ (bookOf deepKey).header.bl ≠ 0 ∧
      [true, true].length < (bookOf deepKey).header.bl) ∧
    ((slotOf [0x03] 0).dataBits = (bookOf abcKey).codeBits [0x41, 0x41, 0x41] ++ [true, true] ∧
      (bookOf abcKey).header.bl = 0 ∧ (bookOf abcKey).dec ((slotOf [0x03] 0).fieldAt 6 2) 2 = none) ∧
    let key := slotOf [0x06, 0x03, 0x02, 0x04, 0x10, 0x08, 0x13, 0x09, 0x03, 0x14, 0x35, 0x83, 0x80] 2
    (slotOf [0xF0] 4).dataBits = (bookOf key).codeBits [] ++ [true, true, true, true] ∧
      (slotOf [0xF0] 4).fieldAt 0 2 = (bookOf key).header.esc ∧ (bookOf key).header.bl ≤ 4 ∧
      (bookOf key).header.bl ≠ 0 ∧ (bookOf key).dec ((slotOf [0xF0] 4).fieldAt 0 4) 4 = none := by
  decide +kernel

/-- A fresh slot that lists the one counter that is not 0. -/
def zeros : Slot := { slotOf [0, 0, 0] 0 with dirty := false, freq := [3], total := 3 }

/-- A key whose only codeword, for byte 0x41, is nine ones. -/
def wideKey : Slot := slotOf [0x01, 0x01, 0x09, 0x00, 0x41, 0xFF, 0x80] 1

/-- `BUILD`: a key of 42 bits for 5 bytes. `ENCODE`: ten bits for one byte, and nine bits for one byte, of which the first fits.
`DECODE`: the fourth byte of S1 for a slot of three. Each is then raised. -/
theorem witness_CapacityKeepsWhatWasAppended :
    (zeros.dirty = false ∧ zeros.total ≠ 0 ∧
      8 * 5 < 32 + (assign zeros 1 2).k * (8 + (assign zeros 1 2).bs) +
        ((assign zeros 1 2).m - (assign zeros 1 2).k) * (8 + (assign zeros 1 2).bl)) ∧
    ((fresh [0x41, 0x41, 0x42, 0x43, 0x41]).bytes = [0x41, 0x41, 0x42, 0x43] ++ 0x41 :: [] ∧
      (∀ v ∈ ([0x41, 0x41, 0x42, 0x43] : List Byte), (bookOf abcKey).enc v ≠ none) ∧
      (bookOf abcKey).enc 0x41 = some ⟨0x41, 0, 2⟩ ∧
      ((bookOf abcKey).codeBits [0x41, 0x41, 0x42, 0x43]).length ≤ 8 * 1 ∧
      8 * 1 < ((bookOf abcKey).codeBits [0x41, 0x41, 0x42, 0x43]).length + 2) ∧
    ((bookOf wideKey).enc 0x41 = some ⟨0x41, 0x1FF, 9⟩ ∧ 8 * 1 < ((bookOf wideKey).codeBits []).length + 9) ∧
    ((∀ v ∈ ([0x41, 0x41, 0x42] ++ [0x43] : List Byte), (bookOf abcKey).enc v ≠ none) ∧
      abcCode.dataBits = (bookOf abcKey).codeBits ([0x41, 0x41, 0x42] ++ [0x43]) ++ []) ∧
    (∃ t, exec (.build 3 0) { block 5 [zeros, abc, abc, abc] with tfnum := 1, tfden := 2 } = .next t ∧
      (t.status, (t.slot 3).bytes, (t.slot 3).nfb) = (7, [0x01, 0x01, 0x02, 0x00, 0x00], 0)) ∧
    (∃ t, exec (.encode 3 0 1) (block 1 [fresh [0x41], wideKey, abc, abc]) = .next t ∧
      (t.status, (t.slot 3).bytes, (t.slot 3).nfb) = (7, [0x80], 1)) ∧
    ∃ t, exec (.decode 3 2 1) { demo with cap := 3 } = .next t ∧
      (t.status, (t.slot 3).bytes) = (7, [0x41, 0x41, 0x42]) :=
  ⟨by decide +kernel, by decide +kernel, by decide +kernel, by decide +kernel, exists_next (by decide +kernel),
    exists_next (by decide +kernel), exists_next (by decide +kernel)⟩

/-- Keys that fail at an entry: vector K13 (check 7, entry 1), K14 (check 8, entry 4), K15 and K16 (check 9, entry 1). -/
theorem witness_KeyEntryChecks :
    let long : KeyHeader := { m := 5, k := 3, bs := 2, bl := 3 }
    let short : KeyHeader := { m := 3, k := 3, bs := 2, bl := 0 }
    let k13 := slotOf [0x05, 0x03, 0x02, 0x03, 0x61, 0x18, 0xB7, 0x29, 0x8F, 0x32, 0x70] 0
    let k14 := slotOf [0x05, 0x03, 0x02, 0x03, 0x61, 0x18, 0x97, 0x29, 0x8F, 0x32, 0x50] 0
    let k15 := slotOf [0x03, 0x03, 0x02, 0x00, 0x41, 0x10, 0x54, 0x38] 0
    let k16 := slotOf [0x03, 0x03, 0x02, 0x00, 0x41, 0x10, 0x84, 0x38] 0
    (k13.HeaderPasses long ∧ (∀ j, j < 1 → k13.EntryPasses long j) ∧ k13.EscapeAsShort long 1) ∧
    (k14.HeaderPasses long ∧ (∀ j, j < 4 → k14.EntryPasses long j) ∧ k14.LongWithoutEscape long 4) ∧
    (k15.HeaderPasses short ∧ (∀ j, j < 1 → k15.EntryPasses short j) ∧ ¬ k15.EscapeAsShort short 1 ∧
      ¬ k15.LongWithoutEscape short 1 ∧ k15.DuplicateEntry short 1) ∧
    (k16.HeaderPasses short ∧ (∀ j, j < 1 → k16.EntryPasses short j) ∧ ¬ k16.EscapeAsShort short 1 ∧
      ¬ k16.LongWithoutEscape short 1 ∧ k16.DuplicateEntry short 1) :=
  ⟨⟨(headerPasses_iff _ _).mpr rfl, by decide +kernel, by decide +kernel⟩,
    ⟨(headerPasses_iff _ _).mpr rfl, by decide +kernel, by decide +kernel⟩,
    ⟨(headerPasses_iff _ _).mpr rfl, by decide +kernel, by decide +kernel, by decide +kernel, ⟨0, by decide +kernel⟩⟩,
    ⟨(headerPasses_iff _ _).mpr rfl, by decide +kernel, by decide +kernel, by decide +kernel, ⟨0, by decide +kernel⟩⟩⟩

/-- Keys from elsewhere all of whose entries pass: vectors K17 (codewords out of order), K19 and K20 (`bitsShort = 1`). -/
theorem witness_KeyEntryChecks_accepted :
    let k17 := slotOf [0x03, 0x03, 0x02, 0x00, 0x41, 0x90, 0x84, 0x34] 0
    let k19 := slotOf [0x01, 0x01, 0x01, 0x00, 0x41, 0x00] 0
    let k20 := slotOf [0x03, 0x01, 0x01, 0x03, 0x41, 0x21, 0x44, 0x3E] 0
    (k17.HeaderPasses { m := 3, k := 3, bs := 2, bl := 0 } ∧
      ∀ e, e < 3 → k17.EntryPasses { m := 3, k := 3, bs := 2, bl := 0 } e) ∧
    (k19.HeaderPasses { m := 1, k := 1, bs := 1, bl := 0 } ∧
      ∀ e, e < 1 → k19.EntryPasses { m := 1, k := 1, bs := 1, bl := 0 } e) ∧
    (k20.HeaderPasses { m := 3, k := 1, bs := 1, bl := 3 } ∧
      ∀ e, e < 3 → k20.EntryPasses { m := 3, k := 1, bs := 1, bl := 3 } e) ∧
    parseKey k20 = .ok { header := { m := 3, k := 1, bs := 1, bl := 3 }, entries :=
      [⟨0x41, 0, 1⟩, ⟨0x42, 4, 3⟩, ⟨0x43, 7, 3⟩] } := by
  refine ⟨⟨(headerPasses_iff _ _).mpr rfl, ?_⟩, ⟨(headerPasses_iff _ _).mpr rfl, ?_⟩,
    ⟨(headerPasses_iff _ _).mpr rfl, ?_⟩, rfl⟩ <;> decide +kernel

/-- Four slots, the input as short as it can be, the capacity as small as stated. -/
theorem witness_RoundTrip : let s : State := { block 645 [fresh [0x41], abc, abc, abc] with tfnum := 1, tfden := 2 }
    ([0, 1, 2, 3] : List SlotNo).Nodup ∧ (∀ b ∈ ([0, 1, 2, 3] : List SlotNo), b.toNat < s.nbuf) ∧
    1 ≤ (s.slot 0).bytes.length ∧ (s.slot 0).StatsDescribe ∧ 0 < s.tfnum.toNat ∧ s.tfnum.toNat < s.tfden.toNat ∧
    645 ≤ s.cap ∧ 2 * (s.slot 0).bytes.length ≤ s.cap :=
  ⟨by decide, by decide, by decide, (Slot.refresh_describes (slotOf [0x41] 0) (by decide)).1, by decide, by decide,
    by decide, by decide⟩

end Sys2Proof.Tests
end

section
/-!
PROOFS. The state after reset (spec/10_state.md R43), field by field for every configuration: the parameters, the slots, and the
registers.
-/

namespace Sys2Proof

/-- The configuration of `State.reset` is in the range of R6 and R7. -/
theorem Config.largest_valid : Config.largest.Valid := by decide

namespace Machine

/-- A slot as R43 leaves it: no byte, no cursor, dirty. The counters are unspecified there. -/
theorem Slot.createdEmpty_values : Slot.createdEmpty.len = 0 ∧ Slot.createdEmpty.bytes = [] ∧
    Slot.createdEmpty.nfb = 0 ∧ Slot.createdEmpty.dirty = true :=
  ⟨rfl, rfl, rfl, rfl⟩

/-- Reset makes the configured number of slots (R6, R43). -/
@[simp] theorem State.nbuf_resetFor (c : Config) : (State.resetFor c).nbuf = c.nbuf :=
  List.length_replicate

/-- Reset keeps no slot of before: every slot is created empty (R30, R43). -/
theorem State.eq_createdEmpty_of_mem_resetFor {c : Config} {x : Slot} (hx : x ∈ (State.resetFor c).slots) :
    x = Slot.createdEmpty :=
  List.eq_of_mem_replicate hx

/-- The registers of R43 whose reset value is specified (all but `RESF`; `CMD` holds nothing). -/
theorem State.registers_resetFor (c : Config) :
    (State.resetFor c).arg = 0 ∧ (State.resetFor c).tfnum = 4 ∧ (State.resetFor c).tfden = 5 ∧
    (State.resetFor c).status = 0 ∧ (State.resetFor c).einfo = 0 ∧
    (State.resetFor c).res = 0 ∧ (State.resetFor c).res2 = 0 :=
  ⟨rfl, rfl, rfl, rfl, rfl, rfl, rfl⟩

/-- Settles O9: the table of R43, read off `State.resetFor` part by part; `State.reset` is its largest configuration. -/
theorem resetTable : Obligations.ResetTable := by
  refine ⟨fun c _ => ⟨State.nbuf_resetFor c, rfl, fun x hx => ?_, State.registers_resetFor c⟩,
    Config.largest, Config.largest_valid, rfl⟩
  rw [State.eq_createdEmpty_of_mem_resetFor hx]
  exact Slot.createdEmpty_values

end Machine

end Sys2Proof
end

section
/-!
PROOFS. The worked command encodings (spec/30_encoding.md R95).
-/

namespace Sys2Proof

/-- Settles O4, a row of R95 at a time: the fields of the command pack to the word (R80), and the fields cut out of the word are
those of the command, the fields marked `0` in R82 among them. -/
theorem workedEncodings : Obligations.WorkedEncodings := by
  simp only [Obligations.WorkedEncodings, List.forall_mem_cons]
  exact ⟨⟨rfl, rfl⟩, ⟨rfl, rfl⟩, ⟨rfl, rfl⟩, ⟨rfl, rfl⟩, ⟨rfl, rfl⟩, ⟨rfl, rfl⟩, ⟨rfl, rfl⟩, ⟨rfl, rfl⟩,
    List.forall_mem_nil _⟩

end Sys2Proof
end

section
/-!
PROOFS. The bit-pack/unpack inverse law (spec/40_bitbuffer.md R124): the data of an empty slot after a sequence of appends is the bits
of the fields, and a field read at its boundary is cut out of them.
-/

namespace Sys2Proof.Machine

/-- The bits of a sequence of fields are as many as the widths add up to. -/
theorem fieldsBits_length (fields : List (Nat × Nat)) : (fieldsBits fields).length = (fields.map (·.2)).sum := by
  simp [fieldsBits, List.length_flatMap]

/-- Behind the fields before it, a field's bits stand as a piece of the bits of the sequence. -/
theorem fieldsBits_drop_take (before after : List (Nat × Nat)) (v n : Nat) :
    ((fieldsBits (before ++ (v, n) :: after)).drop (before.map (·.2)).sum).take n = fieldBits v n := by
  have hsplit : fieldsBits (before ++ (v, n) :: after) = fieldsBits before ++ (fieldBits v n ++ fieldsBits after) := by
    simp [fieldsBits]
  rw [hsplit, List.drop_left' (fieldsBits_length before), List.take_left' (fieldBits_length v n)]

/-- Where the data bits at `f` are those of a field, the field read there is its value (R121). -/
theorem Slot.fieldAt_of_dataBits {x : Slot} {f n v : Nat} (hf : f + n ≤ x.bitLen)
    (h : (x.dataBits.drop f).take n = fieldBits v n) : x.fieldAt f n = v % 2 ^ n :=
  fieldBits_injective _ _ n (x.fieldAt_lt f n) (Nat.mod_lt _ (Nat.two_pow_pos n)) <|
    calc fieldBits (x.fieldAt f n) n = fieldBits v n := (x.fieldBits_fieldAt f n hf).trans h
      _ = fieldBits (v % 2 ^ n) n := (fieldBits_low v n).symm

section Empty
variable {x : Slot} (hb : x.bytes = []) (h0 : x.nfb = 0)
include hb

/-- An empty slot has zero pad bits, because it has no bits. -/
theorem Slot.padZero_of_empty : x.PadZero := fun i _ => x.bitAt_of_len_le i (by simp [Slot.len, hb])

include h0

/-- An empty slot has no occupied bit (R24). -/
theorem Slot.bitLen_of_empty : x.bitLen = 0 := by simp [Slot.bitLen, Slot.len, hb, h0]

/-- Appends to an empty slot that all succeed leave it with the bits of the fields as its data, and with zero pad bits. -/
theorem Slot.appendFields_empty {cap : Nat} {fields : List (Nat × Nat)} {y : Slot} (hw : ∀ f ∈ fields, f.2 ≤ 16)
    (h : x.appendFields cap fields = .done y) : y.dataBits = fieldsBits fields ∧ y.CursorOk ∧ y.PadZero := by
  have hlen := Slot.bitLen_of_empty hb h0
  have hdata : x.dataBits = [] := List.eq_nil_of_length_eq_zero (by simp [hlen])
  obtain ⟨z, _, _, _, _, hfull, _⟩ | ⟨z, hdone, hext, _⟩ :=
    x.appendFields_spec cap fields hw (fun hne => absurd h0 hne) (by omega)
  case inl => rw [h] at hfull; cases hfull
  case inr =>
    obtain rfl : y = z := Appended.done.inj (h.symm.trans hdone)
    exact ⟨by simpa [hdata] using hext.dataBits, hext.cursor, hext.padZero (Slot.padZero_of_empty hb)⟩

end Empty

end Sys2Proof.Machine

namespace Sys2Proof

/-- Settles O29: the data of the slot is the bits of the fields, so its length is the total width, from which the number of bytes and
the cursor follow; a field starts behind the widths before it, and both reads return the field there. -/
theorem bitPackInverse : Obligations.BitPackInverse := by
  intro cap fields x y hb h0 hw h
  obtain ⟨hdata, hcursor, hpad⟩ := Machine.Slot.appendFields_empty hb h0 (fun f hf => (hw f hf).2) h
  have hlen : y.bitLen = (fields.map (·.2)).sum := by rw [← y.dataBits_length, hdata, Machine.fieldsBits_length]
  refine ⟨hlen, hlen ▸ y.len_eq hcursor, hlen ▸ y.nfb_eq hcursor, hpad, fun before after v n hsplit => ?_⟩
  have hin : (before.map (·.2)).sum + n ≤ y.bitLen := by rw [hlen, hsplit]; simp
  have hfield : y.fieldAt (before.map (·.2)).sum n = v % 2 ^ n :=
    Machine.Slot.fieldAt_of_dataBits hin (by rw [hdata, hsplit, Machine.fieldsBits_drop_take])
  exact ⟨by rw [y.readWide_eq, if_pos hin, hfield], fun _ => by rw [y.readBits_eq, if_pos hin, hfield]⟩

end Sys2Proof
end

section
/-!
PROOFS. The normalisation law: the probabilities of a refreshed slot (spec/41_statistics.md R158).
-/

namespace Sys2Proof.Machine

/-- `REFRESH` of a slot in range completes with that slot refreshed (R151). -/
theorem exec_refresh_eq_done (s : State) (bd : SlotNo) (h : bd.toNat < s.nbuf) :
    exec (.refresh bd) s = (s.setSlot bd (s.slot bd).refresh).done := by
  have hexec : exec (.refresh bd) s = execRefresh bd s := rfl
  rw [hexec, execRefresh, (hasSlot_iff s bd).mpr h, checked_true]

/-- A completed `REFRESH` leaves in the slot what `Slot.refresh` makes of it. -/
theorem slot_of_exec_refresh {s t : State} {bd : SlotNo} (h : bd.toNat < s.nbuf) (ht : exec (.refresh bd) s = .next t) :
    t.slot bd = (s.slot bd).refresh := by
  rw [exec_refresh_eq_done s bd h, State.done_eq_next] at ht
  rw [← ht, State.succeed_slot, State.slot_setSlot_same s bd _ h]

/-- The counters over a common denominator add up to the sum of the counters over it. -/
theorem Slot.sum_freqOf_div (x : Slot) (d : ℚ) : (allBytes.map fun v => (x.freqOf v : ℚ) / d).sum = (x.freqSum : ℚ) / d := by
  have hcast : (x.freqSum : ℚ) = (allBytes.map fun v => (x.freqOf v : ℚ)).sum := by
    rw [Slot.freqSum, Nat.cast_list_sum, List.map_map]; rfl
  simp only [div_eq_mul_inv, List.sum_map_mul_right, hcast]

/-- Where the counters add up to a nonzero total, the probabilities add up to 1 (R158). -/
theorem Slot.sum_probabilities {x : Slot} (hsum : x.freqSum = x.total.toNat) (h0 : x.total.toNat ≠ 0) :
    (allBytes.map fun v => (x.freqOf v : ℚ) / (x.total.toNat : ℚ)).sum = 1 := by
  rw [x.sum_freqOf_div, hsum, div_self (Nat.cast_ne_zero.mpr h0)]

end Sys2Proof.Machine

namespace Sys2Proof

/-- Settles O40: a refresh counts every byte once, so the counters add up to the total, which is the length and is not zero. -/
theorem probabilitiesSumToOne : Obligations.ProbabilitiesSumToOne := by
  intro s t bd hbd hne hlen ht
  rw [Machine.slot_of_exec_refresh hbd ht]
  obtain ⟨_, hsum, _⟩ := (s.slot bd).refresh_describes hlen
  have htotal : (s.slot bd).refresh.total.toNat = (s.slot bd).bytes.length := (s.slot bd).total_refresh hlen
  have h0 : (s.slot bd).refresh.total.toNat ≠ 0 := by
    rw [htotal]; exact mt List.length_eq_zero_iff.mp hne
  exact ⟨hsum, htotal, Machine.Slot.sum_probabilities hsum h0⟩

end Sys2Proof
end

section
/-!
PROOFS. The ordering of the counted byte values (spec/42_codebook_builder.md R171): it is the sort of the entries with a nonzero
frequency, of which there is one for each counted byte value.
-/

namespace Sys2Proof.Machine

/-- The entries that the ordering sorts, by rising byte value. -/
def Slot.countedSymbols (x : Slot) : List Symbol :=
  (allBytes.map fun v => { value := v, freq := x.freqOf v }).filter fun a => decide (0 < a.freq)

theorem ordering_eq_sortSymbols (x : Slot) : ordering x = sortSymbols x.countedSymbols := rfl

/-- The entry of a byte value carries its counter. -/
theorem Slot.mem_countedSymbols (x : Slot) (a : Symbol) :
    a ∈ x.countedSymbols ↔ a.freq = x.freqOf a.value ∧ 0 < a.freq := by
  rw [Slot.countedSymbols, List.mem_filter, List.mem_map, decide_eq_true_eq]
  refine and_congr_left fun _ => ⟨?_, fun h => ⟨a.value, mem_allBytes _, by rw [← h]⟩⟩
  rintro ⟨v, _, rfl⟩
  rfl

/-- The byte values of the entries stand in them as in the list of all byte values, with some left out. -/
theorem Slot.countedSymbols_values_sublist (x : Slot) : (x.countedSymbols.map (·.value)).Sublist allBytes := by
  have hall : (allBytes.map fun v => ({ value := v, freq := x.freqOf v } : Symbol)).map (·.value) = allBytes := by
    rw [List.map_map]; exact List.map_id _
  exact hall ▸ List.filter_sublist.map _

/-- No byte value has two entries. -/
theorem Slot.countedSymbols_values_nodup (x : Slot) : (x.countedSymbols.map (·.value)).Nodup :=
  allBytes_nodup.sublist x.countedSymbols_values_sublist

/-- There are no more entries than byte values. -/
theorem Slot.countedSymbols_length_le (x : Slot) : x.countedSymbols.length ≤ 256 := by
  simpa using x.countedSymbols_values_sublist.length_le

/-- Where something was counted the ordering is not empty: an empty one would add up to 0. -/
theorem one_le_ordering_length {x : Slot} (h : 1 ≤ x.freqSum) : 1 ≤ (ordering x).length := by
  refine List.length_pos_iff.mpr fun hnil => ?_
  have hsum : x.freqSum = 0 := by rw [← ordering_sum, hnil]; rfl
  omega

end Sys2Proof.Machine

namespace Sys2Proof

/-- Settles O46: the sort of entries with distinct byte values is sorted, and as a permutation of them it keeps their membership,
their distinctness and their number. -/
theorem orderingIsSorted : Obligations.OrderingIsSorted := by
  intro x
  have hperm : (Machine.ordering x).Perm x.countedSymbols := Machine.ordering_perm x
  have hnodup := x.countedSymbols_values_nodup
  refine ⟨?sorted, fun a => hperm.mem_iff.trans (x.mem_countedSymbols a), (hperm.map _).nodup_iff.mpr hnodup,
    Machine.one_le_ordering_length, hperm.length_eq ▸ x.countedSymbols_length_le⟩
  case sorted =>
    rw [Machine.ordering_eq_sortSymbols]
    exact (Machine.sortSymbols_sorted _ hnodup).imp fun hbefore => of_decide_eq_true hbefore

end Sys2Proof
end

section
/-!
PROOFS. Reading back a key (spec/30_encoding.md R85 to R88, spec/43_codec.md R200, R201): a slot that holds the header and the
entries of a well-formed codebook parses to that codebook, whatever put them there.
-/

namespace Sys2Proof.Machine

/-! ### The layout of a key -/

/-- A codebook as a key can say it: the invariants of R42, the header in the ranges of R200, and the entries in two tiers. -/
structure Codebook.WellFormed (c : Codebook) : Prop where
  sound : c.Sound
  count : c.entries.length = c.header.m
  counts : 1 ≤ c.header.k ∧ c.header.k ≤ c.header.m ∧ c.header.m ≤ 256
  short_width : 1 ≤ c.header.bs ∧ c.header.bs ≤ 16
  long_width : c.header.bl = 0 ∧ c.header.k = c.header.m ∨ c.header.bs < c.header.bl ∧ c.header.bl ≤ 16
  width : ∀ (e : Nat) (he : e < c.entries.length), c.entries[e].length = c.header.entryWidth e

/-- The four fields of a header (R85). -/
def KeyHeader.fields (h : KeyHeader) : List (Nat × Nat) := [(h.m, 8), (h.k, 8), (h.bs, 8), (h.bl, 8)]

/-- The two fields of an entry: its byte value and its codeword (R86). -/
def CodeEntry.fields (e : CodeEntry) : List (Nat × Nat) := [(e.value.toNat, 8), (e.code, e.length)]

/-- The fields of a key before its entry `e`. -/
def Codebook.fieldsBefore (c : Codebook) (e : Nat) : List (Nat × Nat) :=
  c.header.fields ++ (c.entries.take e).flatMap CodeEntry.fields

/-- The fields of a key (R85, R86). -/
def Codebook.keyFields (c : Codebook) : List (Nat × Nat) := c.header.fields ++ c.entries.flatMap CodeEntry.fields

theorem Codebook.keyFields_split (c : Codebook) (e : Nat) (he : e < c.entries.length) :
    c.keyFields = c.fieldsBefore e ++ c.entries[e].fields ++ (c.entries.drop (e + 1)).flatMap CodeEntry.fields := by
  have hsplit : c.entries = c.entries.take e ++ c.entries[e] :: c.entries.drop (e + 1) := by
    rw [← List.drop_eq_getElem_cons he, List.take_append_drop]
  calc c.keyFields
      = c.header.fields ++ (c.entries.take e ++ c.entries[e] :: c.entries.drop (e + 1)).flatMap CodeEntry.fields := by
        rw [← hsplit, Codebook.keyFields]
    _ = _ := by simp only [Codebook.fieldsBefore, List.flatMap_append, List.flatMap_cons, List.append_assoc]

/-- The fields before an entry end where the entry starts (R87). -/
theorem Codebook.WellFormed.fieldsBefore_width {c : Codebook} (hc : c.WellFormed) (e : Nat) (he : e ≤ c.entries.length) :
    ((c.fieldsBefore e).map (·.2)).sum = c.header.entryBit e := by
  induction e with
  | zero => simp [Codebook.fieldsBefore, KeyHeader.fields, KeyHeader.entryBit]
  | succ e ih =>
    have hstep : c.fieldsBefore (e + 1) = c.fieldsBefore e ++ c.entries[e].fields := by
      simp only [Codebook.fieldsBefore, ← List.take_append_getElem he, List.flatMap_append, List.append_assoc]
      simp
    rw [hstep, List.map_append, List.sum_append, ih (by omega), c.header.entryBit_succ, ← hc.width e he]
    simp [CodeEntry.fields, Nat.add_assoc]

theorem KeyHeader.entryBit_end {h : KeyHeader} (hk : h.k ≤ h.m) : h.entryBit h.m = h.keyBits := by
  simp only [KeyHeader.entryBit, KeyHeader.keyBits]
  split
  · rw [show h.m = h.k by omega]; simp
  · rfl

/-- A key is as long as its header says (R87). -/
theorem Codebook.WellFormed.keyBits {c : Codebook} (hc : c.WellFormed) :
    (fieldsBits c.keyFields).length = c.header.keyBits := by
  have hall : c.keyFields = c.fieldsBefore c.header.m := by
    rw [Codebook.fieldsBefore, ← hc.count, List.take_length, Codebook.keyFields]
  rw [fieldsBits_length, hall, hc.fieldsBefore_width _ hc.count.ge, KeyHeader.entryBit_end hc.counts.2.1]

/-! ### The header bytes -/

/-- A count from 1 to 256 is read back from its low eight bits (R88). -/
theorem cnt_ofNat {n : Nat} (h1 : 1 ≤ n) (h256 : n ≤ 256) : cnt (BitVec.ofNat 8 n) = n := by
  have hzero : BitVec.ofNat 8 n = 0 ↔ n % 256 = 0 := by simp [← BitVec.toNat_inj]
  simp only [cnt, hzero, BitVec.toNat_ofNat]
  split <;> omega

/-- A byte is made from the low eight bits of a number. -/
theorem byte_ofNat_mod (n : Nat) : (BitVec.ofNat 8 (n % 2 ^ 8) : Byte) = BitVec.ofNat 8 n :=
  BitVec.eq_of_toNat_eq (by simp)

/-- A header byte is the field of eight bits at its place (R85). -/
theorem Slot.headerByte_eq (x : Slot) (a : Nat) :
    x.headerByte a = BitVec.ofNat 8 (x.fieldAt (8 * a) 8) := by
  have hget : x.headerByte a = x.bytes.getD a 0 := by simp [Slot.headerByte, memRead]
  have hfield : x.fieldAt (8 * a) 8 = (x.bytes.getD a 0).toNat % 2 ^ 8 := by
    refine x.fieldAt_eq _ _ _ fun j hj => ?_
    rw [Slot.bitAt, show (8 * a + j) / 8 = a by omega, show 7 - (8 * a + j) % 8 = 8 - 1 - j by omega]
    rfl
  rw [hget, hfield, byte_ofNat_mod, BitVec.ofNat_toNat, BitVec.setWidth_eq]

/-- A field of a sequence of fields reads as its value, at the bit where the widths before it end. -/
theorem Slot.fieldAt_of_fieldsBits {x : Slot} {fields : List (Nat × Nat)} (hx : x.dataBits = fieldsBits fields)
    (before after : List (Nat × Nat)) (v n : Nat) (hsplit : fields = before ++ (v, n) :: after) :
    x.fieldAt (before.map (·.2)).sum n = v % 2 ^ n := by
  subst hsplit
  refine Slot.fieldAt_of_dataBits ?_ (by rw [hx, fieldsBits_drop_take])
  rw [← x.dataBits_length, hx, fieldsBits_length]
  simp

section Parse
variable {c : Codebook} (hc : c.WellFormed) {x : Slot} (hcur : x.CursorOk) (hx : x.dataBits = fieldsBits c.keyFields)
include hc hx

theorem Codebook.WellFormed.bitLen_of_dataBits : x.bitLen = c.header.keyBits := by
  rw [← x.dataBits_length, hx, hc.keyBits]

/-- The entry in place `e` of the slot is entry `e` of the codebook. -/
theorem Codebook.WellFormed.keyEntry_eq (e : Nat) (he : e < c.entries.length) :
    x.keyEntry c.header e = c.entries[e] := by
  have hfits := (hc.sound.fits _ (List.getElem_mem he)).1
  have hstart := hc.fieldsBefore_width e he.le
  have hvalue : x.fieldAt (c.header.entryBit e) 8 = c.entries[e].value.toNat % 2 ^ 8 := by
    rw [← hstart]
    exact Slot.fieldAt_of_fieldsBits hx _ _ _ _ (by rw [c.keyFields_split e he, List.append_assoc]; rfl)
  have hcode : x.fieldAt (c.header.entryBit e + 8) c.entries[e].length = c.entries[e].code := by
    have := Slot.fieldAt_of_fieldsBits hx (c.fieldsBefore e ++ [(c.entries[e].value.toNat, 8)]) _ c.entries[e].code
      c.entries[e].length (by rw [c.keyFields_split e he]; simp [CodeEntry.fields]; rfl)
    rwa [List.map_append, List.sum_append, hstart, Nat.mod_eq_of_lt hfits] at this
  rw [Slot.keyEntry, ← hc.width e he, hvalue, hcode, byte_ofNat_mod, BitVec.ofNat_toNat, BitVec.setWidth_eq]

include hcur

/-- The header bytes of the slot say the header of the codebook (R85, R88). -/
theorem Codebook.WellFormed.keyHeader_eq : c.header = x.keyHeader ∧ 4 ≤ x.len := by
  obtain ⟨hk1, hkm, hm⟩ := hc.counts
  obtain ⟨_, hbs⟩ := hc.short_width
  have hbl : c.header.bl ≤ 16 := by have := hc.long_width; omega
  have hlen : 4 ≤ x.len := by
    have := hc.bitLen_of_dataBits hx
    rw [x.len_eq hcur, this, KeyHeader.keyBits]
    omega
  have hbyte : ∀ (before : List (Nat × Nat)) (v : Nat) (after : List (Nat × Nat)) (a : Nat),
      c.header.fields = before ++ (v, 8) :: after → (before.map (·.2)).sum = 8 * a →
      x.headerByte a = BitVec.ofNat 8 v := by
    intro before v after a hsplit hsum
    have hfield := Slot.fieldAt_of_fieldsBits hx before (after ++ c.entries.flatMap CodeEntry.fields) v 8
      (by simp [Codebook.keyFields, hsplit])
    rw [x.headerByte_eq, ← hsum, hfield, byte_ofNat_mod]
  have h0 := hbyte [] _ _ 0 rfl rfl
  have h1 := hbyte [_] _ _ 1 rfl rfl
  have h2 := hbyte [_, _] _ _ 2 rfl rfl
  have h3 := hbyte [_, _, _] _ _ 3 rfl rfl
  refine ⟨?_, hlen⟩
  rw [Slot.keyHeader, h0, h1, h2, h3, cnt_ofNat (by omega) hm, cnt_ofNat hk1 (by omega)]
  simp only [BitVec.toNat_ofNat, Nat.mod_eq_of_lt (show c.header.bs < 2 ^ 8 by omega),
    Nat.mod_eq_of_lt (show c.header.bl < 2 ^ 8 by omega)]

theorem Codebook.WellFormed.parseHeader_eq : parseHeader x = .ok c.header := by
  obtain ⟨hheader, hlen⟩ := hc.keyHeader_eq hcur hx
  obtain ⟨hbs1, hbs16⟩ := hc.short_width
  have hlong := hc.long_width
  exact (parseHeader_ok x _).mpr ⟨hheader, hlen, hbs1, hbs16, by omega, hc.counts.2.1, by omega,
    (hc.bitLen_of_dataBits hx).ge⟩

omit hcur

/-- Every entry passes checks 7, 8 and 9 (R201), which are the codebook invariants of R42. -/
theorem Codebook.WellFormed.entryPasses (e : Nat) (he : e < c.entries.length) : x.EntryPasses c.header e := by
  have hkey := hc.keyEntry_eq hx e he
  have hmem := List.getElem_mem he
  have hwidth := hc.width e he
  refine ⟨fun ⟨hshort, hesc, hbl⟩ => ?notEscape, fun ⟨hlong, hpre⟩ => ?hasEscape, fun ⟨j, hj, hdup⟩ => ?noDuplicate⟩
  case notEscape =>
    rw [KeyHeader.entryWidth, if_pos hshort] at hwidth
    exact hc.sound.short_not_escape hbl _ hmem hwidth (hkey ▸ hesc)
  case hasEscape =>
    rw [KeyHeader.entryWidth, if_neg (by omega)] at hwidth
    exact hpre (hkey ▸ hc.sound.long_has_escape _ hmem hwidth)
  case noDuplicate =>
    rw [hkey, hc.keyEntry_eq hx j (by omega)] at hdup
    have hsame : j = e := by
      rcases hdup with hvalue | ⟨hcode, hlength⟩
      · exact (hc.sound.values_distinct.getElem_inj_iff (hi := by simp; omega) (hj := by simpa)).mp (by simpa)
      · exact (hc.sound.codewords_distinct.getElem_inj_iff (hi := by simp; omega) (hj := by simpa)).mp (by simp [hcode, hlength])
    omega

end Parse

/-- Where all entries pass their checks, the entry loop finds them as they stand (R201). -/
theorem parseEntries_of_entryPasses {x : Slot} {h : KeyHeader} (hk : h.k ≤ h.m) (hroom : h.keyBits ≤ x.bitLen)
    (hpass : ∀ e, e < h.m → x.EntryPasses h e) (count : Nat) : ∀ e, e + count = h.m →
    parseEntries x h count e (h.entryBit e) ((List.range e).map (x.keyEntry h)) =
      .ok ((List.range h.m).map (x.keyEntry h)) := by
  induction count with
  | zero => rintro e rfl; rfl
  | succ count ih =>
    intro e he
    obtain ⟨h7, h8, h9⟩ := hpass e (by omega)
    have hin : h.entryBit (e + 1) ≤ x.bitLen := (h.entryBit_le hk (e + 1) (by omega)).trans hroom
    rw [parseEntries_succ x h count e hin, if_neg h7, if_neg h8, if_neg (mt (clash_iff x h e).mp h9)]
    exact ih (e + 1) (by omega)

/-- A slot whose data are the fields of a well-formed codebook parses to that codebook. -/
theorem Codebook.WellFormed.parseKey_eq {c : Codebook} (hc : c.WellFormed) {x : Slot} (hcur : x.CursorOk)
    (hx : x.dataBits = fieldsBits c.keyFields) : parseKey x = .ok c := by
  have hpass : ∀ e, e < c.header.m → x.EntryPasses c.header e := fun e he => hc.entryPasses hx e (hc.count.symm ▸ he)
  have hfound := parseEntries_of_entryPasses hc.counts.2.1 (hc.bitLen_of_dataBits hx).ge hpass c.header.m 0 (by omega)
  have hentries : (List.range c.header.m).map (x.keyEntry c.header) = c.entries :=
    List.ext_getElem (by simp [hc.count]) fun e _ he => by simp [hc.keyEntry_eq hx e he]
  have hstart : c.header.entryBit 0 = 32 := by simp [KeyHeader.entryBit]
  rw [hentries, hstart] at hfound
  exact (parseKey_ok x c).mpr ⟨hc.parseHeader_eq hcur hx, hfound⟩

end Sys2Proof.Machine
end

section
/-!
PROOFS. The key of an assignment (spec/42_codebook_builder.md R171 to R180): what `Assign` finds lies in the bounds of a key, its
codebook is well formed, and the fields that `BUILD` appends are those of that codebook.
-/

namespace Sys2Proof.Machine

/-! ### The two tiers -/

/-- What steps 1 to 7 leave (R180): distinct values, counts and widths in range, and either short entries only, or one short entry
for each codeword but the escape and long ones within their index. -/
structure Assignment.Bounded (a : Assignment) : Prop where
  values_distinct : (a.ord.map (·.value)).Nodup
  length : a.ord.length = a.m
  counts : 1 ≤ a.k ∧ a.k ≤ a.m ∧ a.m ≤ 256
  short_width : 2 ≤ a.bs ∧ a.bs ≤ 9
  tiers : a.bl = 0 ∧ a.k = a.m ∧ a.m ≤ 2 ^ a.bs ∨
    a.k = 2 ^ a.bs - 1 ∧ 2 ^ a.bs < a.m ∧ a.bs < a.bl ∧ a.bl ≤ a.bs + 8 ∧ a.m - a.k ≤ 2 ^ (a.bl - a.bs)

/-- Steps 4 and 5 (R174, R175): all values are short where they fit, else one for each codeword but the escape. -/
theorem shortCount_eq (m bs : Nat) : shortCount m bs = if m ≤ 2 ^ bs then m else 2 ^ bs - 1 := by
  have : 1 ≤ 2 ^ bs := Nat.one_le_two_pow
  simp only [shortCount]
  split_ifs <;> omega

/-- The index of at most 256 long entries takes at most eight bits (R176). -/
theorem longWidth_le {bs r : Nat} (hr : r ≤ 256) : longWidth bs r ≤ bs + 8 := by
  have hindex : clog2 r ≤ 8 := (clog2_le_iff r 8).mpr hr
  simp only [longWidth]
  split <;> omega

/-- The index of two or more long entries takes at least one bit (R176). -/
theorem lt_longWidth {bs r : Nat} (hr : 2 ≤ r) : bs < longWidth bs r := by
  have hindex : ¬ clog2 r ≤ 0 := fun h => by have := (clog2_le_iff r 0).mp h; omega
  rw [longWidth, if_pos (by omega)]
  omega

/-- Steps 4 to 6 (R174 to R176): one tier where the values fit, else two, the long one with room for its indices. -/
theorem tiers_of_widths {m bs : Nat} (hbs : 2 ≤ bs) (hm : m ≤ 256) :
    longWidth bs (m - shortCount m bs) = 0 ∧ shortCount m bs = m ∧ m ≤ 2 ^ bs ∨
      shortCount m bs = 2 ^ bs - 1 ∧ 2 ^ bs < m ∧ bs < longWidth bs (m - shortCount m bs) ∧
        longWidth bs (m - shortCount m bs) ≤ bs + 8 ∧
        m - shortCount m bs ≤ 2 ^ (longWidth bs (m - shortCount m bs) - bs) := by
  have hpow : 2 ^ 2 ≤ 2 ^ bs := Nat.pow_le_pow_right (by omega) hbs
  rw [shortCount_eq]
  split
  · next hfit => exact .inl ⟨by simp [longWidth], rfl, hfit⟩
  · exact .inr ⟨rfl, by omega, lt_longWidth (by omega), longWidth_le (by omega), ((longWidth_spec bs _).2 (by omega)).2⟩

/-- What steps 4 to 6 make of an ordering and `bitsShort`. -/
def Assignment.ofWidth (ord : List Symbol) (bs : Nat) : Assignment :=
  { ord := ord, m := ord.length, k := shortCount ord.length bs, bs := bs
    bl := longWidth bs (ord.length - shortCount ord.length bs) }

theorem assign_eq_ofWidth (x : Slot) (num den : Nat) :
    assign x num den = .ofWidth (ordering x) (shortWidth (walk num den x.total.toNat 0 (ordering x))) := rfl

theorem Assignment.ofWidth_bounded {ord : List Symbol} {bs : Nat} (hnodup : (ord.map (·.value)).Nodup)
    (hm1 : 1 ≤ ord.length) (hm : ord.length ≤ 256) (hbs2 : 2 ≤ bs) (hbs9 : bs ≤ 9) :
    (Assignment.ofWidth ord bs).Bounded := by
  have hpow : 2 ^ 2 ≤ 2 ^ bs := Nat.pow_le_pow_right (by omega) hbs2
  have htiers := tiers_of_widths hbs2 hm
  have hk : 1 ≤ shortCount ord.length bs := by omega
  exact ⟨hnodup, rfl, ⟨hk, (shortCount_spec _ _).1, hm⟩, ⟨hbs2, hbs9⟩, htiers⟩

/-- Steps 1 to 7 stay in the bounds of R180, where something was counted. -/
theorem assign_bounded {x : Slot} (num den : Nat) (hx : 1 ≤ x.freqSum) : (assign x num den).Bounded := by
  obtain ⟨_, _, hnodup, hpos, hm⟩ := orderingIsSorted x
  have hwalk := (walk_spec num den x.total.toNat (ordering x) 0).2.1
  obtain ⟨hbs2, _, hbsMin⟩ := shortWidth_spec (walk num den x.total.toNat 0 (ordering x))
  rw [assign_eq_ofWidth]
  exact Assignment.ofWidth_bounded hnodup (hpos hx) hm hbs2 (hbsMin 9 (by omega) (by omega))

section Bounds
variable {a : Assignment} (ha : a.Bounded)
include ha

theorem Assignment.Bounded.longWidth_le_15 : a.bl ≤ 15 := by
  obtain ⟨_, _, hm⟩ := ha.counts
  obtain ⟨hbl, _⟩ | ⟨_, hlong, _, hbl, _⟩ := ha.tiers
  · omega
  · have hbs : a.bs < 8 := (Nat.pow_lt_pow_iff_right (show 1 < 2 by omega)).mp (hlong.trans_le hm)
    omega

/-- No key of `BUILD` is longer than 645 bytes (R180). -/
theorem Assignment.Bounded.keyBits_le : a.codebook.header.keyBits ≤ 8 * 645 := by
  obtain ⟨_, hkm, hm⟩ := ha.counts
  obtain ⟨hbs2, hbs9⟩ := ha.short_width
  simp only [KeyHeader.keyBits, Assignment.codebook]
  obtain ⟨_, hk, _⟩ | ⟨hk, hlong, _, hbl, _⟩ := ha.tiers
  · calc 32 + a.k * (8 + a.bs) + (a.m - a.k) * (8 + a.bl)
        = 32 + a.m * (8 + a.bs) := by simp [hk]
      _ ≤ 32 + 256 * (8 + 9) := by gcongr
      _ ≤ 8 * 645 := by omega
  · have hbs : a.bs < 8 := (Nat.pow_lt_pow_iff_right (show 1 < 2 by omega)).mp (hlong.trans_le hm)
    calc 32 + a.k * (8 + a.bs) + (a.m - a.k) * (8 + a.bl)
        ≤ 32 + (2 ^ a.bs - 1) * (8 + a.bs) + (257 - 2 ^ a.bs) * (8 + (a.bs + 8)) :=
          Nat.add_le_add (by rw [hk]) (Nat.mul_le_mul (by omega) (by omega))
      _ ≤ 8 * 645 := by interval_cases a.bs <;> decide

end Bounds

/-! ### The codebook of an assignment (R177) -/

/-- The index behind a codeword's escape does not reach into the escape. -/
theorem mul_two_pow_add_div {v n : Nat} (hv : v < 2 ^ n) {u : Nat} : (u * 2 ^ n + v) / 2 ^ n = u := by
  rw [Nat.mul_comm, Nat.mul_add_div (Nat.two_pow_pos n), Nat.div_eq_of_lt hv, Nat.add_zero]

/-- Entry `i` of the codebook, made from value `i` of the ordering. -/
def Assignment.entry (a : Assignment) (i : Nat) (y : Symbol) : CodeEntry :=
  if i < a.k then { value := y.value, code := i, length := a.bs }
  else { value := y.value, code := (2 ^ a.bs - 1) * 2 ^ (a.bl - a.bs) + (i - a.k), length := a.bl }

theorem Assignment.codebook_entries (a : Assignment) : a.codebook.entries = a.ord.mapIdx a.entry := rfl

theorem Assignment.entry_short {a : Assignment} {i : Nat} (hi : i < a.k) (y : Symbol) :
    a.entry i y = { value := y.value, code := i, length := a.bs } := if_pos hi

theorem Assignment.entry_long {a : Assignment} {i : Nat} (hi : a.k ≤ i) (y : Symbol) :
    a.entry i y = { value := y.value, code := (2 ^ a.bs - 1) * 2 ^ (a.bl - a.bs) + (i - a.k), length := a.bl } :=
  if_neg (by omega)

theorem Assignment.entry_value (a : Assignment) (i : Nat) (y : Symbol) : (a.entry i y).value = y.value := by
  rw [Assignment.entry]; split <;> rfl

theorem Assignment.codebook_values (a : Assignment) : a.codebook.entries.map (·.value) = a.ord.map (·.value) :=
  List.ext_getElem (by simp [Assignment.codebook_entries]) fun i _ _ => by
    simp [Assignment.codebook_entries, Assignment.entry_value]

section Codebook
variable {a : Assignment} (ha : a.Bounded)
include ha

/-- A long codeword is the escape pattern followed by an index that fits (R176, R177). -/
theorem Assignment.Bounded.long_code {i : Nat} (hi : i < a.m) (hk : a.k ≤ i) :
    i - a.k < 2 ^ (a.bl - a.bs) ∧ a.bs < a.bl := by
  have := ha.tiers
  omega

/-- An entry of the codebook is short or long, according to its place. -/
theorem Assignment.Bounded.mem_codebook {e : CodeEntry} (he : e ∈ a.codebook.entries) :
    ∃ i y, i < a.m ∧ e = a.entry i y := by
  rw [Assignment.codebook_entries] at he
  obtain ⟨i, hi, rfl⟩ := List.mem_mapIdx.mp he
  exact ⟨i, _, ha.length ▸ hi, rfl⟩

/-- Entries in different places have different codewords, or different lengths. -/
theorem Assignment.Bounded.entry_codeword_ne {i j : Nat} (hij : i < j) (hj : j < a.m) (y z : Symbol) :
    ((a.entry i y).code, (a.entry i y).length) ≠ ((a.entry j z).code, (a.entry j z).length) := by
  rcases Nat.lt_or_ge j a.k with hjk | hjk
  · simp [Assignment.entry_short hjk, Assignment.entry_short (hij.trans hjk), hij.ne]
  · obtain ⟨_, hwidth⟩ := ha.long_code hj hjk
    rcases Nat.lt_or_ge i a.k with hik | hik
    · simp [Assignment.entry_short hik, Assignment.entry_long hjk, hwidth.ne]
    · simp only [Assignment.entry_long hik, Assignment.entry_long hjk, ne_eq, Prod.mk.injEq, and_true]
      omega

/-- The codewords of the codebook fit their lengths. -/
theorem Assignment.Bounded.entry_fits {i : Nat} (hi : i < a.m) (y : Symbol) :
    (a.entry i y).code < 2 ^ (a.entry i y).length ∧ 1 ≤ (a.entry i y).length ∧ (a.entry i y).length ≤ 16 := by
  obtain ⟨hbs2, hbs9⟩ := ha.short_width
  have hbl := ha.longWidth_le_15
  rcases Nat.lt_or_ge i a.k with hk | hk
  · have hcode : i < 2 ^ a.bs := by have := ha.tiers; omega
    rw [Assignment.entry_short hk]
    exact ⟨hcode, show 1 ≤ a.bs by omega, show a.bs ≤ 16 by omega⟩
  · obtain ⟨hindex, hwidth⟩ := ha.long_code hi hk
    rw [Assignment.entry_long hk]
    refine ⟨?_, show 1 ≤ a.bl by omega, show a.bl ≤ 16 by omega⟩
    calc (2 ^ a.bs - 1) * 2 ^ (a.bl - a.bs) + (i - a.k)
        < (2 ^ a.bs - 1) * 2 ^ (a.bl - a.bs) + 2 ^ (a.bl - a.bs) := by omega
      _ = (2 ^ a.bs - 1 + 1) * 2 ^ (a.bl - a.bs) := by ring
      _ = 2 ^ a.bl := by
        rw [Nat.sub_add_cancel Nat.one_le_two_pow, ← pow_add, Nat.add_sub_cancel' hwidth.le]

/-- The codebook of an assignment meets the invariants of R42. -/
theorem Assignment.Bounded.codebook_sound : a.codebook.Sound where
  values_distinct := a.codebook_values ▸ ha.values_distinct
  codewords_distinct := by
    rw [List.Nodup, List.pairwise_iff_getElem]
    intro i j _ hj hij
    simp only [Assignment.codebook_entries, List.length_map, List.length_mapIdx, ha.length] at hj
    simp only [Assignment.codebook_entries, List.getElem_map, List.getElem_mapIdx]
    exact ha.entry_codeword_ne hij hj _ _
  short_or_long e he := by
    obtain ⟨i, y, hi, rfl⟩ := ha.mem_codebook he
    rcases Nat.lt_or_ge i a.k with hk | hk
    · exact .inl (by rw [Assignment.entry_short hk]; rfl)
    · have hwidth : a.bl ≠ 0 := by have := ha.long_code hi hk; omega
      exact .inr ⟨hwidth, by rw [Assignment.entry_long hk]; rfl⟩
  fits e he := by
    obtain ⟨i, y, hi, rfl⟩ := ha.mem_codebook he
    exact ha.entry_fits hi y
  long_has_escape e he hlength := by
    obtain ⟨i, y, hi, rfl⟩ := ha.mem_codebook he
    change (a.entry i y).length = a.bl at hlength
    change (a.entry i y).code / 2 ^ (a.bl - a.bs) = 2 ^ a.bs - 1
    rcases Nat.lt_or_ge i a.k with hk | hk
    · rw [Assignment.entry_short hk] at hlength
      have hshort : a.bs = a.bl := hlength
      have := ha.short_width
      have := ha.tiers
      omega
    · rw [Assignment.entry_long hk, mul_two_pow_add_div (ha.long_code hi hk).1]
  short_not_escape hbl e he hlength := by
    obtain ⟨i, y, hi, rfl⟩ := ha.mem_codebook he
    change a.bl ≠ 0 at hbl
    change (a.entry i y).length = a.bs at hlength
    change (a.entry i y).code ≠ 2 ^ a.bs - 1
    rcases Nat.lt_or_ge i a.k with hk | hk
    · rw [Assignment.entry_short hk]
      have := ha.tiers
      exact Nat.ne_of_lt (show i < 2 ^ a.bs - 1 by omega)
    · rw [Assignment.entry_long hk] at hlength
      have hlong : a.bl = a.bs := hlength
      have := ha.long_code hi hk
      omega

/-- The codebook of an assignment is one that a key can say. -/
theorem Assignment.Bounded.codebook_wellFormed : a.codebook.WellFormed where
  sound := ha.codebook_sound
  count := by rw [Assignment.codebook_entries, List.length_mapIdx, ha.length]; rfl
  counts := ha.counts
  short_width := by
    have := ha.short_width
    exact ⟨by change 1 ≤ a.bs; omega, by change a.bs ≤ 16; omega⟩
  long_width := by
    have hbl := ha.longWidth_le_15
    change a.bl = 0 ∧ a.k = a.m ∨ a.bs < a.bl ∧ a.bl ≤ 16
    have := ha.tiers
    omega
  width i hi := by
    simp only [Assignment.codebook_entries, List.getElem_mapIdx]
    change _ = if i < a.k then a.bs else a.bl
    rw [Assignment.entry]
    split <;> rfl

end Codebook

/-! ### The fields that `BUILD` appends (R178) -/

/-- Two fields one after the other are one field. -/
theorem fieldBits_append (u v m n : Nat) (hv : v < 2 ^ n) :
    fieldBits u m ++ fieldBits v n = fieldBits (u * 2 ^ n + v) (m + n) := by
  have htop : (u * 2 ^ n + v) / 2 ^ n = u := mul_two_pow_add_div hv
  have hlow : (u * 2 ^ n + v) % 2 ^ n = v := by
    rw [Nat.mul_comm, Nat.mul_add_mod, Nat.mod_eq_of_lt hv]
  simp only [fieldBits, List.range_add, List.map_append, List.map_map]
  congr 1
  · refine List.map_congr_left fun j hj => ?_
    have := List.mem_range.mp hj
    conv_lhs => rw [← htop, Nat.testBit_div_two_pow, show m - 1 - j + n = m + n - 1 - j by omega]
  · refine List.map_congr_left fun j hj => ?_
    have := List.mem_range.mp hj
    conv_lhs => rw [← hlow, Nat.testBit_mod_two_pow]
    simp [show n - 1 - j < n by omega, show m + n - 1 - (m + j) = n - 1 - j by omega]

theorem fieldsBits_append (fs gs : List (Nat × Nat)) : fieldsBits (fs ++ gs) = fieldsBits fs ++ fieldsBits gs :=
  List.flatMap_append

theorem fieldsBits_cons (v w : Nat) (fs : List (Nat × Nat)) : fieldsBits ((v, w) :: fs) = fieldBits v w ++ fieldsBits fs := rfl

/-- The fields of short entries have the bits of those entries. -/
theorem Assignment.fieldsBits_shortEntryFields (a : Assignment) (l : List Symbol) : ∀ i, i + l.length ≤ a.k →
    fieldsBits (shortEntryFields a.bs i l) =
      fieldsBits ((l.mapIdx fun j => a.entry (i + j)).flatMap CodeEntry.fields) := by
  induction l with
  | nil => exact fun _ _ => rfl
  | cons y l ih =>
    intro i hi
    rw [List.length_cons] at hi
    have hrest : (fun j => a.entry (i + (j + 1))) = fun j => a.entry (i + 1 + j) := by
      funext j; rw [Nat.add_right_comm, Nat.add_assoc]
    simp only [shortEntryFields, List.mapIdx_cons, List.flatMap_cons, fieldsBits_append, fieldsBits_cons,
      ih (i + 1) (by omega), hrest, Nat.add_zero, Assignment.entry_short (show i < a.k by omega), CodeEntry.fields,
      List.append_assoc]
    rfl

/-- The fields of long entries have the bits of those entries, the escape and the index in one codeword. -/
theorem Assignment.fieldsBits_longEntryFields (a : Assignment) (hbl : a.bs ≤ a.bl) (l : List Symbol) : ∀ i,
    i + l.length ≤ 2 ^ (a.bl - a.bs) →
    fieldsBits (longEntryFields a.bs a.bl i l) =
      fieldsBits ((l.mapIdx fun j => a.entry (a.k + i + j)).flatMap CodeEntry.fields) := by
  induction l with
  | nil => exact fun _ _ => rfl
  | cons y l ih =>
    intro i hi
    rw [List.length_cons] at hi
    have hrest : (fun j => a.entry (a.k + i + (j + 1))) = fun j => a.entry (a.k + (i + 1) + j) := by
      funext j; congr 1; omega
    have hcode := fieldBits_append (2 ^ a.bs - 1) i a.bs (a.bl - a.bs) (by omega)
    rw [Nat.add_sub_cancel' hbl] at hcode
    simp only [longEntryFields, List.mapIdx_cons, List.flatMap_cons, fieldsBits_append, fieldsBits_cons,
      ih (i + 1) (by omega), hrest, Nat.add_zero, Assignment.entry_long (show a.k ≤ a.k + i by omega), CodeEntry.fields,
      Nat.add_sub_cancel_left, ← hcode, List.append_assoc]
    rfl

/-- The fields that `BUILD` appends have the bits of the key of the codebook (R178). -/
theorem Assignment.Bounded.fieldsBits_keyFields {a : Assignment} (ha : a.Bounded) :
    fieldsBits a.keyFields = fieldsBits a.codebook.keyFields := by
  obtain ⟨_, hkm, _⟩ := ha.counts
  have hm := ha.length
  have hheader : fieldsBits [(low a.m 8, 8), (low a.k 8, 8), (a.bs, 8), (a.bl, 8)] =
      fieldsBits a.codebook.header.fields := by
    simp only [fieldsBits_cons, fieldBits_low]; rfl
  have hshort : fieldsBits (shortEntryFields a.bs 0 (a.ord.take a.k)) =
      fieldsBits (((a.ord.take a.k).mapIdx a.entry).flatMap CodeEntry.fields) := by
    have := a.fieldsBits_shortEntryFields (a.ord.take a.k) 0 (by simp)
    simpa only [Nat.zero_add] using this
  have hlong : fieldsBits (longEntryFields a.bs a.bl 0 (a.ord.drop a.k)) =
      fieldsBits (((a.ord.drop a.k).mapIdx fun j => a.entry (j + a.k)).flatMap CodeEntry.fields) := by
    obtain ⟨_, hk, _⟩ | ⟨_, _, hwidth, _, hindex⟩ := ha.tiers
    · rw [List.drop_eq_nil_of_le (by omega)]; rfl
    · have := a.fieldsBits_longEntryFields hwidth.le (a.ord.drop a.k) 0 (by rw [List.length_drop, hm]; omega)
      simpa only [Nat.add_zero, Nat.add_comm _ a.k] using this
  have hentries : a.codebook.entries =
      (a.ord.take a.k).mapIdx a.entry ++ (a.ord.drop a.k).mapIdx fun j => a.entry (j + a.k) := by
    have hsplit := List.mapIdx_append (f := a.entry) (xs := a.ord.take a.k) (ys := a.ord.drop a.k)
    rwa [List.take_append_drop, List.length_take, Nat.min_eq_left (by omega)] at hsplit
  simp only [Assignment.keyFields, Codebook.keyFields, fieldsBits_append, hheader, hshort, hlong, hentries,
    List.flatMap_append, List.append_assoc]

end Sys2Proof.Machine
end

section
/-!
PROOFS. The round trip (spec/43_codec.md R202 to R206): `ENCODE` lays out the codewords of its input, and `DECODE` takes them apart
again, for every well-formed codebook; then the three commands in a row.
-/

namespace Sys2Proof.Machine

/-! ### The two maps of a codebook (R201) -/

theorem Codebook.enc_ne_none_iff (c : Codebook) (v : Byte) : c.enc v ≠ none ↔ v ∈ c.entries.map (·.value) := by
  rw [Codebook.enc, ← Option.isSome_iff_ne_none, List.find?_isSome, List.mem_map]
  simp only [beq_iff_eq]

/-- The maps are inverse: the codeword of a byte value decodes to it (R41). -/
theorem Codebook.Sound.dec_of_enc {c : Codebook} (hc : c.Sound) {v : Byte} {e : CodeEntry} (he : c.enc v = some e) :
    c.dec e.code e.length = some v := by
  obtain ⟨hmem, hvalue⟩ := enc_some c v e he
  have hfound : (c.entries.find? fun f => f.code == e.code && f.length == e.length) ≠ none := fun hnone => by
    simpa using List.find?_eq_none.mp hnone e hmem
  obtain ⟨f, hf⟩ := Option.ne_none_iff_exists'.mp hfound
  have hkey : f.code = e.code ∧ f.length = e.length := by simpa using List.find?_some hf
  have hsame : f = e := List.inj_on_of_nodup_map hc.codewords_distinct (List.mem_of_find?_eq_some hf) hmem
    (by simp [hkey])
  rw [Codebook.dec, hf, Option.map_some, hsame, hvalue]

@[simp] theorem CodeEntry.bits_length (e : CodeEntry) : e.bits.length = e.length := fieldBits_length _ _

theorem Codebook.codeBits_cons {c : Codebook} {v : Byte} {e : CodeEntry} (he : c.enc v = some e) (l : List Byte) :
    c.codeBits (v :: l) = e.bits ++ c.codeBits l := by
  simp [Codebook.codeBits, he]

/-- No byte takes more than sixteen bits (R41). -/
theorem Codebook.Sound.codeBits_length_le {c : Codebook} (hc : c.Sound) (l : List Byte) :
    (c.codeBits l).length ≤ 16 * l.length := by
  induction l with
  | nil => exact Nat.zero_le _
  | cons v l ih =>
    have hhead : (match c.enc v with | some e => e.bits | none => []).length ≤ 16 := by
      split
      · next e he => simpa using (hc.fits e (enc_some c v e he).1).2.2
      · simp
    have hcons : c.codeBits (v :: l) = (match c.enc v with | some e => e.bits | none => []) ++ c.codeBits l := rfl
    rw [hcons, List.length_append, List.length_cons]
    omega

/-! ### `ENCODE` -/

/-- With a codebook that covers the input and room for the output, the loop of `ENCODE` lays out all codewords (R202). -/
theorem Codebook.Sound.encodeLoop_eq {c : Codebook} (hc : c.Sound) (cap : Nat) (bd : SlotNo) {input : List Byte} {x : Slot}
    (hcover : c.Covers input) (hb : x.bytes = []) (h0 : x.nfb = 0) (hroom : (c.codeBits input).length ≤ 8 * cap) :
    ∃ y, encodeLoop cap c bd 0 input x = (y, none) ∧ y.dataBits = c.codeBits input := by
  have hlen := Slot.bitLen_of_empty hb h0
  have hdata : x.dataBits = [] := List.eq_nil_of_length_eq_zero (by simp [hlen])
  obtain ⟨y, bits, hext, _, hend⟩ :=
    encodeLoop_spec cap c bd (fun e he => (hc.fits e he).2) input 0 x fun hne => absurd h0 hne
  refine ⟨y, ?_⟩
  rcases hend with ⟨hloop, _, rfl⟩ | ⟨before, v, after, _, rfl, _, hnone, _⟩ |
    ⟨before, v, after, e, _, rfl, _, he, hfull, _⟩
  · exact ⟨hloop, by rw [hext.dataBits, hdata, List.nil_append]⟩
  · exact absurd hnone (hcover v (by simp))
  · have hsplit : c.codeBits (before ++ v :: after) = c.codeBits before ++ c.codeBits (v :: after) :=
      List.flatMap_append
    rw [hsplit, Codebook.codeBits_cons he] at hroom
    simp only [List.length_append, CodeEntry.bits_length] at hroom
    omega

/-! ### `DECODE` -/

/-- The top of a field is the field of its first bits. -/
theorem Slot.fieldAt_div (x : Slot) (f m n : Nat) : x.fieldAt f (m + n) / 2 ^ n = x.fieldAt f m := by
  rw [x.fieldAt_add f m n, mul_two_pow_add_div (x.fieldAt_lt _ n)]

section Decode
variable {c : Codebook} (hc : c.WellFormed) {input : Slot}
include hc

/-- `bitsShort` bits are there wherever a codeword is, which is what the loop of `DECODE` asks (R204). -/
theorem Codebook.WellFormed.bs_le_length {e : CodeEntry} (he : e ∈ c.entries) : c.header.bs ≤ e.length := by
  have hlong := hc.long_width
  rcases hc.sound.short_or_long e he with hlength | ⟨hbl, hlength⟩ <;> omega

/-- Where the codeword of an entry stands in the input, it is found as it is: the escape tells the tiers apart (R91, R203, R205). -/
theorem Codebook.WellFormed.nextCodeword_of_dataBits {e : CodeEntry} (he : e ∈ c.entries) {p : Nat} {rest : List Bool}
    (hin : p + e.length ≤ input.bitLen) (hp : input.dataBits.drop p = e.bits ++ rest) :
    nextCodeword c.header input p = .ok (e.code, e.length) := by
  have hlong := hc.long_width
  have hbs := hc.bs_le_length he
  have hfield : input.fieldAt p e.length = e.code := by
    have := Slot.fieldAt_of_dataBits (v := e.code) hin (by rw [hp, List.take_left' e.bits_length]; rfl)
    rwa [Nat.mod_eq_of_lt (hc.sound.fits e he).1] at this
  rw [nextCodeword_eq c.header input p (by omega) (by omega)]
  rcases hc.sound.short_or_long e he with hlength | ⟨hbl, hlength⟩
  · have hshort : ¬ (input.fieldAt p c.header.bs = c.header.esc ∧ c.header.bl ≠ 0) := fun ⟨hesc, hbl⟩ =>
      hc.sound.short_not_escape hbl e he hlength (by rw [← hfield, hlength, hesc])
    rw [if_neg hshort, ← hlength, hfield]
  · have hesc : input.fieldAt p c.header.bs = c.header.esc := by
      have htop := input.fieldAt_div p c.header.bs (c.header.bl - c.header.bs)
      rw [Nat.add_sub_cancel' (by omega), ← hlength, hfield] at htop
      rw [← htop, ← hc.sound.long_has_escape e he hlength, hlength]
    rw [if_pos ⟨hesc, hbl⟩, ← hlength, if_pos hin, hfield]

/-- The loop of `DECODE` takes the codewords of some bytes for those bytes, and stops at fewer than `bitsShort` bits (R204). -/
theorem Codebook.WellFormed.decodeLoop_eq (cap : Nat) (bd : SlotNo) {tail : List Bool} (htail : tail.length < c.header.bs)
    (output : List Byte) : ∀ (fuel p : Nat) (x : Slot), c.Covers output → x.nfb = 0 → x.dirty = true →
    input.dataBits.drop p = c.codeBits output ++ tail → input.bitLen ≤ p + fuel → x.len + output.length ≤ cap →
    decodeLoop cap c bd input fuel p x = ({ x with bytes := x.bytes ++ output }, none) := by
  induction output with
  | nil =>
    intro fuel p x _ h0 _ hp _ _
    have hrest : input.bitLen - p = tail.length := by simpa [Codebook.codeBits] using congrArg List.length hp
    rw [List.append_nil]
    cases fuel with
    | zero => rfl
    | succ fuel => rw [decodeLoop_succ _ _ _ _ _ _ _ h0, if_neg (by omega)]
  | cons v output ih =>
    intro fuel p x hcover h0 hd hp hfuel hcap
    obtain ⟨e, he⟩ := Option.ne_none_iff_exists'.mp (hcover v (by simp))
    obtain ⟨hmem, _⟩ := enc_some c v e he
    obtain ⟨_, hlength, _⟩ := hc.sound.fits e hmem
    rw [Codebook.codeBits_cons he, List.append_assoc] at hp
    have hrest : input.bitLen - p = e.length + (c.codeBits output ++ tail).length := by
      simpa using congrArg List.length hp
    have hin : p + e.length ≤ input.bitLen := by omega
    have hnext : input.dataBits.drop (p + e.length) = c.codeBits output ++ tail := by
      rw [← List.drop_drop, hp, List.drop_left' e.bits_length]
    obtain ⟨fuel, rfl⟩ := Nat.exists_eq_add_of_le' (show 1 ≤ fuel by omega)
    have hbs := hc.bs_le_length hmem
    rw [List.length_cons] at hcap
    rw [decodeLoop_succ _ _ _ _ _ _ _ h0, if_pos (by omega), hc.nextCodeword_of_dataBits hmem hin hp]
    simp only [hc.sound.dec_of_enc he]
    rw [if_neg (by omega), ih fuel _ _ (fun w hw => hcover w (by simp [hw])) rfl rfl hnext (by omega)
      (by simp only [Slot.len, List.length_append, List.length_singleton] at hcap ⊢; omega)]
    simp [h0, hd]

end Decode

/-! ### `BUILD` -/

/-- Appends to an empty slot succeed where the fields fit the slot, and leave their bits as its data. -/
theorem Slot.appendFields_of_fits {x : Slot} (hb : x.bytes = []) (h0 : x.nfb = 0) {cap : Nat} {fields : List (Nat × Nat)}
    (hw : ∀ f ∈ fields, f.2 ≤ 16) (hroom : (fieldsBits fields).length ≤ 8 * cap) :
    ∃ y, x.appendFields cap fields = .done y ∧ y.dataBits = fieldsBits fields ∧ y.CursorOk := by
  have hlen := Slot.bitLen_of_empty hb h0
  obtain ⟨y, before, v, n, after, _, hpieces, hext, _, _, hfull⟩ | ⟨y, hdone, _⟩ :=
    x.appendFields_spec cap fields hw (fun hne => absurd h0 hne) (by omega)
  · have hbits : fieldsBits fields = fieldsBits before ++ (fieldBits v n ++ fieldsBits after) := by
      rw [← fieldsBits_pieces, hpieces, fieldsBits_append, fieldsBits_cons]
    rw [hext.bitLen, hlen] at hfull
    rw [hbits, List.length_append, List.length_append, fieldBits_length] at hroom
    omega
  · obtain ⟨hdata, hcur, _⟩ := Slot.appendFields_empty hb h0 hw hdone
    exact ⟨y, hdone, hdata, hcur⟩

theorem mem_shortEntryFields {bs : Nat} {l : List Symbol} {f : Nat × Nat} : ∀ {i : Nat}, f ∈ shortEntryFields bs i l →
    f.2 = 8 ∨ f.2 = bs := by
  induction l with
  | nil => simp [shortEntryFields]
  | cons y l ih =>
    intro i hf
    simp only [shortEntryFields, List.mem_cons] at hf
    obtain rfl | rfl | hf := hf
    · exact .inl rfl
    · exact .inr rfl
    · exact ih hf

theorem mem_longEntryFields {bs bl : Nat} {l : List Symbol} {f : Nat × Nat} : ∀ {i : Nat}, f ∈ longEntryFields bs bl i l →
    f.2 = 8 ∨ f.2 = bs ∨ f.2 = bl - bs := by
  induction l with
  | nil => simp [longEntryFields]
  | cons y l ih =>
    intro i hf
    simp only [longEntryFields, List.mem_cons] at hf
    obtain rfl | rfl | rfl | hf := hf
    · exact .inl rfl
    · exact .inr (.inl rfl)
    · exact .inr (.inr rfl)
    · exact ih hf

/-- No field of a key of `BUILD` is wider than an append takes (R122). -/
theorem Assignment.Bounded.width_le {a : Assignment} (ha : a.Bounded) : ∀ f ∈ a.keyFields, f.2 ≤ 16 := by
  have hbs := ha.short_width.2
  have hbl := ha.longWidth_le_15
  intro f hf
  simp only [Assignment.keyFields, List.mem_append] at hf
  obtain (hf | hf) | hf := hf
  · have : f.2 = 8 := by simp only [List.mem_cons, List.not_mem_nil, or_false] at hf; rcases hf with rfl | rfl | rfl | rfl <;> rfl
    omega
  · have := mem_shortEntryFields hf
    omega
  · have := mem_longEntryFields hf
    omega

/-- Serialization succeeds in 645 bytes, and the slot then parses to the codebook of the assignment (R178, R201). -/
theorem Assignment.Bounded.serialize_parses {a : Assignment} (ha : a.Bounded) {cap : Nat} (hcap : 645 ≤ cap) (x : Slot) :
    ∃ y, serialize cap x.cleared a = .done y ∧ parseKey y = .ok a.codebook := by
  have hc := ha.codebook_wellFormed
  have hroom : (fieldsBits a.keyFields).length ≤ 8 * cap := by
    have := ha.keyBits_le
    rw [ha.fieldsBits_keyFields, hc.keyBits]
    omega
  obtain ⟨y, hdone, hdata, hcur⟩ := Slot.appendFields_of_fits x.cleared_bytes x.cleared_nfb ha.width_le hroom
  exact ⟨y, hdone, hc.parseKey_eq hcur (hdata.trans ha.fieldsBits_keyFields)⟩

/-- The codebook of an assignment has an entry for every byte value that was counted (R180). -/
theorem assign_codebook_enc (x : Slot) (num den : Nat) (v : Byte) :
    (assign x num den).codebook.enc v ≠ none ↔ 0 < x.freqOf v := by
  have hord : (assign x num den).ord = ordering x := rfl
  have hmem := (orderingIsSorted x).2.1
  rw [Codebook.enc_ne_none_iff, Assignment.codebook_values, hord, List.mem_map]
  refine ⟨?_, fun h => ⟨{ value := v, freq := x.freqOf v }, (hmem _).mpr ⟨rfl, h⟩, rfl⟩⟩
  rintro ⟨y, hy, rfl⟩
  obtain ⟨hfreq, hpos⟩ := (hmem y).mp hy
  exact hfreq ▸ hpos

/-- Where the statistics describe the bytes, the codebook covers them (R180). -/
theorem Slot.StatsDescribe.covers {x : Slot} (h : x.StatsDescribe) (num den : Nat) :
    (assign x num den).codebook.Covers x.bytes := fun v hv => by
  obtain ⟨_, _, hcount⟩ := h
  rw [assign_codebook_enc, hcount]
  exact List.count_pos_iff.mpr hv

/-! ### The three commands, each as it succeeds -/

/-- `t` is `s` after a command that succeeded and wrote `x` to slot `b`, as far as the next command sees it. -/
structure State.Wrote (s t : State) (b : SlotNo) (x : Slot) : Prop where
  status : t.status = 0
  nbuf : t.nbuf = s.nbuf
  cap : t.cap = s.cap
  same : t.slot b = x
  other : ∀ j, j ≠ b → t.slot j = s.slot j

/-- The success end of a command that writes one slot. -/
theorem State.wrote_done (s : State) {b : SlotNo} (hb : b.toNat < s.nbuf) (x : Slot) :
    ∃ t, (s.setSlot b x).done = .next t ∧ s.Wrote t b x :=
  ⟨(s.setSlot b x).succeed, rfl, rfl, s.setSlot_nbuf b x, rfl, s.slot_setSlot_same b x hb,
    fun j hj => s.slot_setSlot_other b x j hj⟩

/-- Statistics that describe a non-empty slot count something, so `Assign` stays in the bounds of R180. -/
theorem Slot.StatsDescribe.bounded {x : Slot} (h : x.StatsDescribe) (hlen : 1 ≤ x.bytes.length) (num den : Nat) :
    (assign x num den).Bounded := by
  have ⟨_, htotal, _⟩ := h
  exact assign_bounded num den (by rw [h.freqSum, htotal]; exact hlen)

/-- `BUILD` from statistics that describe a non-empty slot writes a key of the codebook of its assignment (R170). -/
theorem build_writes_key {s : State} {bd ba : SlotNo} (hbd : bd.toNat < s.nbuf) (hba : ba.toNat < s.nbuf) (hne : bd ≠ ba)
    (h0 : 0 < s.tfnum.toNat) (h1 : s.tfnum.toNat < s.tfden.toNat) (hstats : (s.slot ba).StatsDescribe)
    (hlen : 1 ≤ (s.slot ba).bytes.length) (hcap : 645 ≤ s.cap) :
    ∃ t key, exec (.build bd ba) s = .next t ∧ s.Wrote t bd key ∧
      parseKey key = .ok (assign (s.slot ba) s.tfnum.toNat s.tfden.toNat).codebook := by
  have ⟨hfresh, htotal, _⟩ := hstats
  have hdefined : (s.slot ba).total ≠ 0 := fun hzero => by
    have hempty : (s.slot ba).bytes.length = 0 := htotal.symm.trans (by rw [hzero]; rfl)
    omega
  obtain ⟨key, hkey, hparse⟩ := (hstats.bounded hlen s.tfnum.toNat s.tfden.toNat).serialize_parses hcap (s.slot bd)
  obtain ⟨t, ht, hwrote⟩ := s.wrote_done hbd key
  refine ⟨t, key, ?_, hwrote, hparse⟩
  have hexec : exec (.build bd ba) s = execBuild bd ba s := rfl
  rw [hexec, execBuild, (buildOperands_iff s bd ba).mpr ⟨hbd, hba, hne, h0, h1⟩, checked_true,
    ifFresh_of_fresh s ba _ hfresh, bne_iff_ne.mpr hdefined, ifDefined_true, hkey]
  exact ht

section Codec
variable {s : State} {bd ba bk : SlotNo} (hbd : bd.toNat < s.nbuf) (hba : ba.toNat < s.nbuf) (hbk : bk.toNat < s.nbuf)
  (hda : bd ≠ ba) (hdk : bd ≠ bk) {c : Codebook} (hc : c.WellFormed) (hparse : parseKey (s.slot bk) = .ok c)
include hbd hba hbk hda hdk hc hparse

/-- `ENCODE` with a key that covers its input, with two bytes of room for each, writes the codewords (R202). -/
theorem encode_writes_codewords (hcover : c.Covers (s.slot ba).bytes) (hroom : 2 * (s.slot ba).bytes.length ≤ s.cap) :
    ∃ t code, exec (.encode bd ba bk) s = .next t ∧ s.Wrote t bd code ∧
      code.dataBits = c.codeBits (s.slot ba).bytes := by
  have hbits := hc.sound.codeBits_length_le (s.slot ba).bytes
  obtain ⟨y, hloop, hdata⟩ :=
    hc.sound.encodeLoop_eq s.cap bd hcover (s.slot bd).cleared_bytes (s.slot bd).cleared_nfb (by omega)
  obtain ⟨t, ht, hwrote⟩ := s.wrote_done hbd y.refresh
  refine ⟨t, y.refresh, ?_, hwrote, hdata⟩
  have hexec : exec (.encode bd ba bk) s = execEncode bd ba bk s := rfl
  rw [hexec, execEncode, (codecOperands_iff s bd ba bk).mpr ⟨hbd, hba, hbk, hda, hdk⟩, checked_true, hparse]
  simp only [hloop]
  exact ht

/-- `DECODE` of the codewords of some bytes writes those bytes (R203). -/
theorem decode_writes_bytes {output : List Byte} (hcover : c.Covers output)
    (hdata : (s.slot ba).dataBits = c.codeBits output) (hroom : output.length ≤ s.cap) :
    ∃ t out, exec (.decode bd ba bk) s = .next t ∧ s.Wrote t bd out ∧ out.bytes = output ∧ out.nfb = 0 := by
  have hloop : decodeLoop s.cap c bd (s.slot ba) (s.slot ba).bitLen 0 (s.slot bd).cleared =
      ({ (s.slot bd).cleared with bytes := output }, none) :=
    hc.decodeLoop_eq s.cap bd (tail := []) hc.short_width.1 output _ 0 _ hcover rfl rfl
      (by rw [List.drop_zero, hdata, List.append_nil]) (by omega) (by simpa [Slot.len] using hroom)
  obtain ⟨t, ht, hwrote⟩ := s.wrote_done hbd { (s.slot bd).cleared with bytes := output }
  refine ⟨t, _, ?_, hwrote, rfl, rfl⟩
  have hexec : exec (.decode bd ba bk) s = execDecode bd ba bk s := rfl
  rw [hexec, execDecode, (codecOperands_iff s bd ba bk).mpr ⟨hbd, hba, hbk, hda, hdk⟩, checked_true, hparse]
  simp only [hloop]
  exact ht

end Codec

end Sys2Proof.Machine

namespace Sys2Proof
open Machine

/-- Settles O59: the key that `BUILD` writes parses to the codebook of its assignment, which covers the input; `ENCODE` lays out the
codewords, sixteen bits a byte at most, and `DECODE` finds exactly these codewords and nothing after them. -/
theorem roundTrip : Obligations.RoundTrip := by
  intro s a k e r ha hk he hr hnodup hlen hstats h0 h1 hkey hout
  simp only [List.nodup_cons, List.mem_cons, List.not_mem_nil, or_false, not_or] at hnodup
  obtain ⟨⟨hak, hae, har⟩, ⟨hke, hkr⟩, her, _⟩ := hnodup
  have hc := (hstats.bounded hlen s.tfnum.toNat s.tfden.toNat).codebook_wellFormed
  have hcovers := hstats.covers s.tfnum.toNat s.tfden.toNat
  obtain ⟨t, key, hbuild, ht, hparse⟩ := build_writes_key hk ha (Ne.symm hak) h0 h1 hstats hlen hkey
  generalize (assign (s.slot a) s.tfnum.toNat s.tfden.toNat).codebook = book at hc hcovers hparse
  have hinput : t.slot a = s.slot a := ht.other a hak
  have htn := ht.nbuf
  have htcap := ht.cap
  obtain ⟨u, code, hencode, hu, hcode⟩ := encode_writes_codewords (by omega) (by omega) (by omega) (Ne.symm hae)
    (Ne.symm hke) hc (ht.same ▸ hparse) (hinput ▸ hcovers) (by rw [hinput]; omega)
  have hun := hu.nbuf
  have hucap := hu.cap
  have hukey : u.slot k = key := (hu.other k hke).trans ht.same
  obtain ⟨v, out, hdecode, hv, hbytes, hnfb⟩ := decode_writes_bytes (by omega) (by omega) (by omega) (Ne.symm her)
    (Ne.symm hkr) hc (hukey ▸ hparse) hcovers (by rw [hu.same, hcode, hinput]) (by omega)
  exact ⟨t, u, v, hbuild, ht.status, hencode, hu.status, hdecode, hv.status, hv.same ▸ hbytes, hv.same ▸ hnfb⟩

end Sys2Proof
end

section
/-!
PROOFS. The failure kinds that a command's tests raise (spec/60_exceptions.md R243, R246, R250, R252): every command is its operand
test before a body that never raises `BadOperand`, and a command that reads statistics has the freshness test and the definedness
test in front of that body.
-/

namespace Sys2Proof
open Machine

/-- The operand test of a command (R250): every used field inside its domain and, for `BUILD`, the target fraction in (0,1). -/
def Instr.operandsOk (s : State) : Instr → Bool
  | .build bd ba => (Instr.build bd ba).wellFormed s.nbuf && s.targetInRange
  | i => i.wellFormed s.nbuf

/-- The slot whose statistics a command reads (spec/41_statistics.md R159), if it reads any. -/
def Instr.statisticsSlot : Instr → Option SlotNo
  | .freq b _ | .prob b _ | .info b _ | .byteent b | .bitent b | .build _ b => some b
  | .append .. | .readbits .. | .rdbyte .. | .wrbyte .. | .clear .. | .copy .. | .load .. | .save .. | .stat ..
  | .refresh .. | .markdirty .. | .encode .. | .decode .. => none

/-- The quotient or logarithm that a command needs exists (R246); `FREQ` needs none. -/
def Instr.statisticDefined (s : State) : Instr → Bool
  | .prob b _ | .byteent b | .bitent b | .build _ b => (s.slot b).total != 0
  | .info b v => (s.slot b).total != 0 && (s.slot b).freqOf v != 0
  | .append .. | .readbits .. | .rdbyte .. | .wrbyte .. | .clear .. | .copy .. | .load .. | .save .. | .stat ..
  | .refresh .. | .markdirty .. | .freq .. | .encode .. | .decode .. => true

namespace Machine

/-! ### The operand test against the two conditions of R250 -/

theorem State.targetInRange_eq_false_iff (s : State) :
    s.targetInRange = false ↔ s.tfnum = 0 ∨ s.tfden.toNat ≤ s.tfnum.toNat := by
  have hzero : s.tfnum = 0 ↔ s.tfnum.toNat = 0 := by simp [← BitVec.toNat_inj]
  rw [State.targetInRange, decide_eq_false_iff_not, hzero]
  omega

/-- The operand test fails on a field or on the target fraction (R250). -/
theorem operandsOk_eq_false_iff (i : Instr) (s : State) :
    i.operandsOk s = false ↔ i.wellFormed s.nbuf = false ∨
      (∃ bd ba, i = .build bd ba) ∧ (s.tfnum = 0 ∨ s.tfden.toNat ≤ s.tfnum.toNat) := by
  rw [← s.targetInRange_eq_false_iff]
  cases i with
  | build bd ba =>
    have hbuild : ∃ x y, Instr.build bd ba = .build x y := ⟨bd, ba, rfl⟩
    rw [Instr.operandsOk, Bool.and_eq_false_iff, and_iff_right hbuild]
  | _ => simp [Instr.operandsOk]

/-! ### The kind of each failure (R241) -/

@[simp] theorem outOfRange_kind (n : Nat) : (outOfRange n).kind = .outOfRange := rfl
@[simp] theorem staleStatistics_kind (b : SlotNo) : (staleStatistics b).kind = .staleStatistics := rfl
@[simp] theorem invalidKey_kind (n : Nat) : (invalidKey n).kind = .invalidKey := rfl
@[simp] theorem unknownCodeword_kind (p : Nat) : (unknownCodeword p).kind = .unknownCodeword := rfl
@[simp] theorem undefinedStatistic_kind (b : SlotNo) : (undefinedStatistic b).kind = .undefinedStatistic := rfl
@[simp] theorem unknownSymbol_kind (i : Nat) : (unknownSymbol i).kind = .unknownSymbol := rfl
@[simp] theorem capacityExceeded_kind (b : SlotNo) : (capacityExceeded b).kind = .capacityExceeded := rfl
@[simp] theorem badOperand_kind (i : Instr) : (badOperand i).kind = .badOperand := rfl

/-! ### What the reads, the key parser and the loops raise -/

theorem Slot.readBits_error {x : Slot} {f n : Nat} {e : Failure} (h : x.readBits f n = .error e) : e = outOfRange f := by
  rw [Slot.readBits_eq] at h
  split at h
  · cases h
  · exact (Except.error.inj h).symm

theorem Slot.readWide_error {x : Slot} {f w : Nat} {e : Failure} (h : x.readWide f w = .error e) : e = outOfRange f := by
  rw [Slot.readWide_eq] at h
  split at h
  · cases h
  · exact (Except.error.inj h).symm

theorem parseHeader_error {x : Slot} {f : Failure} (h : parseHeader x = .error f) : f.kind = .invalidKey := by
  simp only [parseHeader] at h
  split_ifs at h <;> exact Except.error.inj h ▸ rfl

/-- An entry is refused by a check of the parser, or by a read beyond the data. -/
theorem parseEntry_error {x : Slot} {h : KeyHeader} {e q : Nat} {f : Failure} (hp : parseEntry x h e q = .error f) :
    f.kind = .invalidKey ∨ f.kind = .outOfRange := by
  simp only [parseEntry, bind, Except.bind, pure, Except.pure] at hp
  split at hp
  case h_1 g hv =>
    obtain rfl := Except.error.inj hp
    simp [Slot.readBits_error hv]
  case h_2 v hv =>
    split at hp
    all_goals
      split at hp
      · next g hc =>
        obtain rfl := Except.error.inj hp
        simp [Slot.readWide_error hc]
      · split at hp
        · obtain rfl := Except.error.inj hp
          simp
        · cases hp

theorem parseEntries_error {x : Slot} {h : KeyHeader} {f : Failure} (count : Nat) : ∀ {e q : Nat} {found : List CodeEntry},
    parseEntries x h count e q found = .error f → f.kind = .invalidKey ∨ f.kind = .outOfRange := by
  induction count with
  | zero => exact fun hp => nomatch hp
  | succ count ih =>
    intro e q found hp
    simp only [parseEntries] at hp
    split at hp
    · next g hg => exact parseEntry_error (Except.error.inj hp ▸ hg)
    · split at hp
      · exact .inl (Except.error.inj hp ▸ rfl)
      · exact ih hp

theorem parseKey_error {x : Slot} {f : Failure} (h : parseKey x = .error f) :
    f.kind = .invalidKey ∨ f.kind = .outOfRange := by
  simp only [parseKey] at h
  split at h
  · next g hg => exact .inl (parseHeader_error (Except.error.inj h ▸ hg))
  · split at h
    · next g hg => exact parseEntries_error _ (Except.error.inj h ▸ hg)
    · cases h

/-- The loop of `ENCODE` ends in `UnknownSymbol` or `CapacityExceeded` where it fails (R202). -/
theorem encodeLoop_error {cap : Nat} {book : Codebook} {bd : SlotNo} {y : Slot} {f : Failure} (input : List Byte) :
    ∀ {i : Nat} {x : Slot}, encodeLoop cap book bd i input x = (y, some f) →
      f.kind = .unknownSymbol ∨ f.kind = .capacityExceeded := by
  induction input with
  | nil => exact fun h => nomatch h
  | cons v rest ih =>
    intro i x h
    simp only [encodeLoop] at h
    split at h
    · cases h; simp
    · split at h
      · cases h; simp
      · exact ih h

theorem nextCodeword_error {h : KeyHeader} {input : Slot} {p : Nat} {f : Failure} (hn : nextCodeword h input p = .error f) :
    f.kind = .outOfRange := by
  simp only [nextCodeword, bind, Except.bind, pure, Except.pure] at hn
  split at hn
  · next g hg => rw [← Except.error.inj hn, Slot.readWide_error hg, outOfRange_kind]
  · split_ifs at hn
    · rw [← Except.error.inj hn, outOfRange_kind]
    · split at hn
      · next g hg => rw [← Except.error.inj hn, Slot.readWide_error hg, outOfRange_kind]
      · cases hn

/-- The loop of `DECODE` ends in `OutOfRange`, `UnknownCodeword` or `CapacityExceeded` where it fails (R203). -/
theorem decodeLoop_error {cap : Nat} {book : Codebook} {bd : SlotNo} {input y : Slot} {f : Failure} (fuel : Nat) :
    ∀ {p : Nat} {x : Slot}, decodeLoop cap book bd input fuel p x = (y, some f) →
      f.kind = .outOfRange ∨ f.kind = .unknownCodeword ∨ f.kind = .capacityExceeded := by
  induction fuel with
  | zero => exact fun h => nomatch h
  | succ fuel ih =>
    intro p x h
    simp only [decodeLoop] at h
    split at h
    · split at h
      · next g hg => cases h; exact .inl (nextCodeword_error hg)
      · split at h
        · cases h; simp
        · split at h
          · cases h; simp
          · exact ih h
    · cases h

/-! ### Results that never show a failure kind -/

/-- Where the command ends, `STATUS` does not show the kind `k`. -/
def Avoids (k : FailureKind) (r : Result) : Prop := ∀ t, r = .next t → t.status ≠ k.code.setWidth 32

section Avoids
variable {k : FailureKind} {s : State}

/-- Success is the code 0, which no failure has (R241). -/
theorem avoids_done (s : State) : Avoids k s.done := by
  intro t ht h
  rw [← (s.done_eq_next t).mp ht, State.succeed_status] at h
  obtain ⟨hpos, _⟩ := k.code_range
  rw [← k.code_toNat, ← h] at hpos
  exact absurd hpos (by decide)

/-- A failure of another kind shows another code (R241). -/
theorem avoids_fail {f : Failure} (h : f.kind ≠ k) : Avoids k (s.fail f) := by
  intro t ht hcode
  rw [← (s.fail_eq_next t f).mp ht, State.raise_status] at hcode
  refine h (FailureKind.code_injective _ _ (BitVec.eq_of_toNat_eq ?_))
  rw [← FailureKind.code_toNat, hcode, FailureKind.code_toNat]

theorem avoids_ifFresh {b : SlotNo} {body : Result} (hk : k ≠ .staleStatistics) (h : Avoids k body) :
    Avoids k (ifFresh b s body) := by
  cases hd : (s.slot b).dirty with
  | false => rwa [ifFresh_of_fresh s b body hd]
  | true => rw [ifFresh_of_dirty s b body hd]; exact avoids_fail hk.symm

theorem avoids_ifDefined {d : Bool} {b : SlotNo} {body : Result} (hk : k ≠ .undefinedStatistic) (h : Avoids k body) :
    Avoids k (ifDefined d b s body) := by
  cases d with
  | false => exact avoids_fail hk.symm
  | true => exact h

/-- A query that succeeds behind both statistics tests raises nothing but what the tests raise. -/
theorem avoids_badOperand_query {d : Bool} {b : SlotNo} (s t : State) :
    Avoids .badOperand (ifFresh b s (ifDefined d b s t.done)) :=
  avoids_ifFresh (by decide) (avoids_ifDefined (by decide) (avoids_done t))

end Avoids

/-! ### Every command is its operand test and a body (R252) -/

/-- The operand test stands in front of every command, and only it raises `BadOperand`. -/
theorem exec_eq_checked (i : Instr) (s : State) :
    ∃ body, exec i s = checked (i.operandsOk s) i s body ∧ Avoids .badOperand body := by
  cases i with
  | append bd n imm =>
    refine ⟨_, rfl, ?_⟩
    split
    · exact avoids_done _
    · exact avoids_fail (by simp)
  | readbits bd n =>
    refine ⟨_, rfl, ?_⟩
    split
    · exact avoids_done _
    · next f hf => exact avoids_fail (by simp [Slot.readBits_error hf])
  | rdbyte bd =>
    refine ⟨_, rfl, ?_⟩
    split
    · exact avoids_done _
    · exact avoids_fail (by simp)
  | wrbyte bd imm =>
    refine ⟨_, rfl, ?_⟩
    split
    · exact avoids_fail (by simp)
    · exact avoids_done _
  | load bd =>
    refine ⟨_, rfl, ?_⟩
    split
    · exact avoids_fail (by simp)
    · exact avoids_done _
  | freq bd imm => exact ⟨_, rfl, avoids_ifFresh (by decide) (avoids_done _)⟩
  | prob bd imm => exact ⟨_, rfl, avoids_badOperand_query _ _⟩
  | info bd imm => exact ⟨_, rfl, avoids_badOperand_query _ _⟩
  | byteent bd => exact ⟨_, rfl, avoids_badOperand_query _ _⟩
  | bitent bd => exact ⟨_, rfl, avoids_badOperand_query _ _⟩
  | build bd ba =>
    refine ⟨_, rfl, avoids_ifFresh (by decide) (avoids_ifDefined (by decide) ?_)⟩
    split
    · exact avoids_done _
    · exact avoids_fail (by simp)
  | encode bd ba bk =>
    refine ⟨_, rfl, ?_⟩
    split
    · next f hf => exact avoids_fail (by rcases parseKey_error hf with h | h <;> simp [h])
    · split
      · exact avoids_done _
      · next f hf => exact avoids_fail (by rcases encodeLoop_error _ hf with h | h <;> simp [h])
  | decode bd ba bk =>
    refine ⟨_, rfl, ?_⟩
    split
    · next f hf => exact avoids_fail (by rcases parseKey_error hf with h | h <;> simp [h])
    · split
      · exact avoids_done _
      · next f hf => exact avoids_fail (by rcases decodeLoop_error _ hf with h | h | h <;> simp [h])
  | clear | copy | save | stat | refresh | markdirty => exact ⟨_, rfl, avoids_done _⟩

/-- A command that reads statistics tests its operands, then that they are fresh, then that what it needs is defined
(R159, R252). -/
theorem exec_eq_statistics_tests {i : Instr} {b : SlotNo} (hi : i.statisticsSlot = some b) (s : State) :
    ∃ body, exec i s =
      checked (i.operandsOk s) i s (ifFresh b s (ifDefined (i.statisticDefined s) b s body)) := by
  cases i with
  | freq | prob | info | byteent | bitent | build =>
    obtain rfl := Option.some.inj hi
    exact ⟨_, rfl⟩
  | _ => cases hi

/-! ### The two statistics failures -/

section Statistics
variable {i : Instr} {b : SlotNo} (hi : i.statisticsSlot = some b) {s : State}
include hi

theorem exec_of_dirty (hok : i.operandsOk s = true) (hd : (s.slot b).dirty = true) :
    exec i s = s.fail (staleStatistics b) := by
  obtain ⟨body, hexec⟩ := exec_eq_statistics_tests hi s
  rw [hexec, hok, checked_true, ifFresh_of_dirty s b _ hd]

theorem exec_of_undefined (hok : i.operandsOk s = true) (hd : (s.slot b).dirty = false)
    (hu : i.statisticDefined s = false) : exec i s = s.fail (undefinedStatistic b) := by
  obtain ⟨body, hexec⟩ := exec_eq_statistics_tests hi s
  rw [hexec, hok, checked_true, ifFresh_of_fresh s b _ hd, hu, ifDefined_false]

/-- With the flag set no command reaches the definedness test. -/
theorem exec_avoids_undefinedStatistic (hd : (s.slot b).dirty = true) : Avoids .undefinedStatistic (exec i s) := by
  cases hok : i.operandsOk s with
  | true => rw [exec_of_dirty hi hok hd]; exact avoids_fail (by simp)
  | false =>
    obtain ⟨body, hexec⟩ := exec_eq_statistics_tests hi s
    rw [hexec, hok, checked_false]; exact avoids_fail (by simp)

end Statistics

end Machine

/-- Settles O19: a failing operand test raises `BadOperand`, and no body behind a passed one does. -/
theorem badOperandExactly : Obligations.BadOperandExactly := by
  intro i s
  obtain ⟨body, hexec, hbody⟩ := exec_eq_checked i s
  rw [← operandsOk_eq_false_iff, hexec]
  refine ⟨fun hbad => by rw [hbad]; rfl, fun t ht hstatus => ?_⟩
  rcases (checked_eq_next s t i body _).mp ht with ⟨_, hnext⟩ | ⟨hbad, _⟩
  · exact absurd hstatus (hbody t hnext)
  · exact hbad

/-- Settles O20: with operands in range each of the six commands comes to the freshness test, which the flag fails. -/
theorem staleStatisticsFails : Obligations.StaleStatisticsFails := by
  intro s b hb hd
  have hslot : s.hasSlot b = true := (hasSlot_iff s b).mpr hb
  refine ⟨fun v => ?_, fun bd hbd hne h0 h1 => ?_⟩
  · simp only [List.forall_mem_cons]
    exact ⟨exec_of_dirty rfl hslot hd, exec_of_dirty rfl hslot hd, exec_of_dirty rfl hslot hd,
      exec_of_dirty rfl hslot hd, exec_of_dirty rfl hslot hd, List.forall_mem_nil _⟩
  · exact exec_of_dirty rfl ((buildOperands_iff s bd b).mpr ⟨hbd, hb, hne, h0, h1⟩) hd

/-- Settles O21: fresh statistics bring a command to the definedness test, which a zero fails; stale ones end it before. -/
theorem undefinedStatisticFails : Obligations.UndefinedStatisticFails := by
  intro s b hb
  have hslot : s.hasSlot b = true := (hasSlot_iff s b).mpr hb
  have htotal (h0 : (s.slot b).total = 0) : ((s.slot b).total != 0) = false := by simp [h0]
  refine ⟨fun hd h0 v => ?_, fun v hd h0 => ?_, fun bd hd h0 hbd hne hlow hhigh => ?_, fun hd v bd => ?_⟩
  · simp only [List.forall_mem_cons]
    exact ⟨exec_of_undefined rfl hslot hd (htotal h0), exec_of_undefined rfl hslot hd (htotal h0),
      exec_of_undefined rfl hslot hd (htotal h0), List.forall_mem_nil _⟩
  · have hundefined : (Instr.info b v).statisticDefined s = false := by
      rcases h0 with h | h <;> simp [Instr.statisticDefined, h]
    exact exec_of_undefined rfl hslot hd hundefined
  · exact exec_of_undefined rfl ((buildOperands_iff s bd b).mpr ⟨hbd, hb, hne, hlow, hhigh⟩) hd (htotal h0)
  · simp only [List.forall_mem_cons]
    exact ⟨exec_avoids_undefinedStatistic rfl hd, exec_avoids_undefinedStatistic rfl hd,
      exec_avoids_undefinedStatistic rfl hd, exec_avoids_undefinedStatistic rfl hd,
      exec_avoids_undefinedStatistic rfl hd, List.forall_mem_nil _⟩

end Sys2Proof
end

section
/-!
PROOFS. Decoder and encoder (spec/30_encoding.md R80 to R83): a word decodes to a command exactly if it is that command's
encoding, and exactly if it belongs to a row of the opcode table.
-/

namespace Sys2Proof

/-! ### The decoder and the encoder are inverse -/

theorem ifZero_eq_ok {reserved : Bool} {i j : Instr} : ifZero reserved i = .ok j ↔ reserved = true ∧ i = j := by
  cases reserved <;> simp [ifZero]

/-- A word is the packing of any six values that its fields have. -/
theorem packFields_eq_of_fields {w : Word} {op : BitVec 8} {ba bk : SlotNo} {n : CountField} {imm : Byte}
    (hop : fieldOp w = op) (hba : fieldBa w = ba) (hbk : fieldBk w = bk) (hn : fieldN w = n) (himm : fieldImm w = imm) :
    packFields op (fieldBd w) ba bk n imm = w := by
  rw [← hop, ← hba, ← hbk, ← hn, ← himm, pack_fields]

theorem fieldOp_of_toNat {w : Word} {c : Nat} (h : (fieldOp w).toNat = c) : fieldOp w = BitVec.ofNat 8 c := by
  rw [← h, BitVec.ofNat_toNat, BitVec.setWidth_eq]

/-- The decoder reads every field that the encoder packs (R80, R82). -/
theorem decode_encode (i : Instr) : decode (encode i) = .ok i := by
  cases i <;> simp [encode, decode, ifZero]

/-- A word that decodes has its opcode and its zero fields where the encoder puts them (R82, R83). -/
theorem encode_of_decode {w : Word} {i : Instr} (h : decode w = .ok i) : encode i = w := by
  simp only [decode] at h
  split at h
  case h_20 => cases h
  all_goals
    next hop =>
    obtain ⟨hzero, rfl⟩ := ifZero_eq_ok.mp h
    simp only [Bool.and_eq_true, beq_iff_eq] at hzero
    exact packFields_eq_of_fields (fieldOp_of_toNat hop) (by simp [hzero]) (by simp [hzero]) (by simp [hzero])
      (by simp [hzero])

theorem decode_eq_ok_iff {w : Word} {i : Instr} : decode w = .ok i ↔ encode i = w :=
  ⟨encode_of_decode, fun h => h ▸ decode_encode i⟩

/-- Settles O1. -/
theorem decodeOfEncode : Obligations.DecodeOfEncode := decode_encode

/-- Settles O2. -/
theorem encodeOfDecode : Obligations.EncodeOfDecode := fun _ _ => encode_of_decode

/-! ### The rows of the opcode table -/

/-- Every command's encoding belongs to the command's row (R82). -/
theorem encode_matches_opcodeRow (i : Instr) : (opcodeRow i).Matches (encode i) := by
  cases i with
  | append bd n imm => exact Laws.EncodesItsRow.append bd n imm
  | readbits bd n => exact Laws.EncodesItsRow.readbits bd n
  | rdbyte bd => exact Laws.EncodesItsRow.rdbyte bd
  | wrbyte bd imm => exact Laws.EncodesItsRow.wrbyte bd imm
  | clear bd => exact Laws.EncodesItsRow.clear bd
  | copy bd ba => exact Laws.EncodesItsRow.copy bd ba
  | load bd => exact Laws.EncodesItsRow.load bd
  | save bd => exact Laws.EncodesItsRow.save bd
  | stat bd => exact Laws.EncodesItsRow.stat bd
  | refresh bd => exact Laws.EncodesItsRow.refresh bd
  | markdirty bd n => exact Laws.EncodesItsRow.markdirty bd n
  | freq bd imm => exact Laws.EncodesItsRow.freq bd imm
  | prob bd imm => exact Laws.EncodesItsRow.prob bd imm
  | info bd imm => exact Laws.EncodesItsRow.info bd imm
  | byteent bd => exact Laws.EncodesItsRow.byteent bd
  | bitent bd => exact Laws.EncodesItsRow.bitent bd
  | build bd ba => exact Laws.EncodesItsRow.build bd ba
  | encode bd ba bk => exact Laws.EncodesItsRow.encode bd ba bk
  | decode bd ba bk => exact Laws.EncodesItsRow.decode bd ba bk

theorem opcodeRow_mem (i : Instr) : opcodeRow i ∈ opcodeRows := by
  cases i <;> simp [opcodeRows, opcodeRow]

/-- The row of a word fixes the word's opcode: every mask covers it. -/
theorem fieldOp_of_matches {r : OpcodeRow} (hr : r ∈ opcodeRows) {w : Word} (h : r.Matches w) :
    fieldOp w = fieldOp r.value := by
  have hmask : ∀ r ∈ opcodeRows, fieldOp r.mask = BitVec.allOnes 8 := by decide
  have hcut : fieldOp (w &&& r.mask) = fieldOp w &&& fieldOp r.mask := BitVec.extractLsb'_and
  rw [← h, hcut, hmask r hr, BitVec.and_allOnes]

/-- No two rows have one opcode. -/
theorem opcodeRows_opcode_injective : ∀ r ∈ opcodeRows, ∀ q ∈ opcodeRows, fieldOp r.value = fieldOp q.value → r = q := by
  decide

/-- A field that the mask covers and the row's value leaves zero is zero in every word of the row. -/
theorem extract_eq_zero_of_matches {r : OpcodeRow} {w : Word} (h : r.Matches w) (start n : Nat)
    (hmask : r.mask.extractLsb' start n = BitVec.allOnes n) (hvalue : r.value.extractLsb' start n = 0) :
    w.extractLsb' start n = 0 := by
  rw [← hvalue, ← h, BitVec.extractLsb'_and, hmask, BitVec.and_allOnes]

/-- A word of a row decodes: the row's zero fields are those that R82 marks `0` for its opcode. -/
theorem decode_of_matches {r : OpcodeRow} (hr : r ∈ opcodeRows) {w : Word} (h : r.Matches w) : ∃ i, decode w = .ok i := by
  obtain ⟨op, hop⟩ : ∃ op, op = fieldOp w := ⟨_, rfl⟩
  have hvalue := hop.trans (fieldOp_of_matches hr h)
  have hba : _ → _ → fieldBa w = 0 := extract_eq_zero_of_matches h 16 4
  have hbk : _ → _ → fieldBk w = 0 := extract_eq_zero_of_matches h 12 4
  have hn : _ → _ → fieldN w = 0 := extract_eq_zero_of_matches h 8 4
  have himm : _ → _ → fieldImm w = 0 := extract_eq_zero_of_matches h 0 8
  simp only [opcodeRows, opcodeRow, List.mem_cons, List.not_mem_nil, or_false] at hr
  rcases hr with rfl | rfl | rfl | rfl | rfl | rfl | rfl | rfl | rfl | rfl | rfl | rfl | rfl | rfl | rfl | rfl | rfl |
    rfl | rfl
  all_goals
    simp [fieldOp] at hvalue
    simp at hba hbk hn himm
    simp [decode, ifZero, ← hop, hvalue, hba, hbk, hn, himm]

/-- Settles O3: a word that decodes is an encoding, which belongs to its command's row, and a word of a row decodes; a second row
would have the same opcode. -/
theorem decoderAcceptsExactlyTheTable : Obligations.DecoderAcceptsExactlyTheTable := by
  intro w
  have hrow {i : Instr} (hi : decode w = .ok i) : (opcodeRow i).Matches w :=
    encode_of_decode hi ▸ encode_matches_opcodeRow i
  refine ⟨⟨fun ⟨i, hi⟩ => ⟨opcodeRow i, opcodeRow_mem i, hrow hi⟩, fun ⟨r, hr, h⟩ => decode_of_matches hr h⟩, ?_⟩
  refine fun i hi r hr => ⟨fun h => ?_, fun h => h ▸ hrow hi⟩
  refine opcodeRows_opcode_injective r hr _ (opcodeRow_mem i) ?_
  rw [← fieldOp_of_matches hr h, fieldOp_of_matches (opcodeRow_mem i) (hrow hi)]

/-- A word is illegal exactly if it does not decode (R83). -/
theorem illegalWord_iff {w : Word} : IllegalWord w ↔ ∃ e, decode w = .error e := by
  have htable := (decoderAcceptsExactlyTheTable w).1
  cases hw : decode w with
  | ok i =>
    obtain ⟨r, hr, h⟩ := htable.mp ⟨i, hw⟩
    exact ⟨fun hill => absurd h (hill r hr), fun ⟨e, he⟩ => nomatch he⟩
  | error e => exact ⟨fun _ => ⟨e, rfl⟩, fun _ r hr h => by
      obtain ⟨i, hi⟩ := htable.mpr ⟨r, hr, h⟩
      rw [hw] at hi; cases hi⟩

end Sys2Proof
end

section
/-!
PROOFS. The key parser (spec/43_codec.md R200, R201): the six header checks one by one, the first entry that fails a check ends
the parse with the number of that check, and a key without such an entry is the well-formed codebook of its entries.
-/

namespace Sys2Proof.Machine

/-! ### The header checks (R200) -/

theorem parseKey_of_header_error {x : Slot} {f : Failure} (h : parseHeader x = .error f) : parseKey x = .error f := by
  rw [parseKey, h]

/-- A refused header is refused by one of the checks 1 to 6. -/
theorem parseHeader_error_check {x : Slot} {f : Failure} (h : parseHeader x = .error f) :
    ∃ check, 1 ≤ check ∧ check ≤ 6 ∧ f = invalidKey check := by
  simp only [parseHeader] at h
  split_ifs at h
  all_goals exact ⟨_, by omega, by omega, (Except.error.inj h).symm⟩

/-- Settles O52: the checks of `parseHeader` in their order, the header being that of the four bytes. -/
theorem keyHeaderChecks : Obligations.KeyHeaderChecks := by
  refine ⟨fun x hlen => parseKey_of_header_error (if_pos hlen), ?_⟩
  intro x b0 b1 b2 b3 rest m k bs bl hx hm hk hbs hbl
  have hheader : x.keyHeader = { m := m, k := k, bs := bs, bl := bl } := by
    simp [Slot.keyHeader, Slot.headerByte, memRead, hx, cnt, hm, hk, hbs, hbl]
  have hlen : ¬ x.len < 4 := by simp [Slot.len, hx]
  have hparse : parseHeader x = if bs = 0 ∨ bs > 16 then .error (invalidKey 2)
      else if bl ≠ 0 ∧ (bl ≤ bs ∨ bl > 16) then .error (invalidKey 3)
      else if k > m then .error (invalidKey 4)
      else if m > k ∧ bl = 0 then .error (invalidKey 5)
      else if 32 + k * (8 + bs) + (m - k) * (8 + bl) > x.bitLen then .error (invalidKey 6)
      else .ok { m := m, k := k, bs := bs, bl := bl } := by
    simp only [parseHeader, hheader, if_neg hlen, KeyHeader.keyBits]
  refine ⟨fun h => ?width, fun h1 h2 h3 h4 => ?long, fun h1 h2 h3 => ⟨fun h4 => ?count, fun h4 h5 => ?tier,
    fun h4 h5 h6 => ?room⟩, fun book hbook => ?header⟩
  case width => exact parseKey_of_header_error (by rw [hparse, if_pos (by omega)]; rfl)
  case long => exact parseKey_of_header_error (by rw [hparse, if_neg (by omega), if_pos (by omega)]; rfl)
  case count =>
    exact parseKey_of_header_error (by rw [hparse, if_neg (by omega), if_neg (by omega), if_pos (by omega)]; rfl)
  case tier =>
    exact parseKey_of_header_error (by
      rw [hparse, if_neg (by omega), if_neg (by omega), if_neg (by omega), if_pos (by omega)]; rfl)
  case room =>
    exact parseKey_of_header_error (by
      rw [hparse, if_neg (by omega), if_neg (by omega), if_neg (by omega), if_neg (by omega), if_pos (by omega)]; rfl)
  case header =>
    obtain ⟨hok, _⟩ := (parseKey_ok x book).mp hbook
    exact ((parseHeader_ok x _).mp hok).1.trans hheader

/-! ### The entry checks (R201) -/

section Entries
variable {x : Slot} {h : KeyHeader} (hpass : x.HeaderPasses h)
include hpass

/-- The entries that the header announces lie in the data. -/
theorem Slot.HeaderPasses.entry_room {e : Nat} (he : e < h.m) : h.entryBit (e + 1) ≤ x.bitLen :=
  (h.entryBit_le hpass.counts.1 (e + 1) he).trans hpass.room

/-- Entries that pass are taken as they stand, and the entry loop goes on behind them. -/
theorem Slot.HeaderPasses.parseEntries_skip {e : Nat} (he : e ≤ h.m) (hbefore : ∀ j, j < e → x.EntryPasses h j) :
    parseEntries x h h.m 0 32 [] =
      parseEntries x h (h.m - e) e (h.entryBit e) ((List.range e).map (x.keyEntry h)) := by
  induction e with
  | zero => simp [KeyHeader.entryBit]
  | succ e ih =>
    obtain ⟨h7, h8, h9⟩ := hbefore e (by omega)
    rw [ih (by omega) fun j hj => hbefore j (by omega), show h.m - e = h.m - (e + 1) + 1 by omega,
      parseEntries_succ x h _ e (hpass.entry_room (by omega)), if_neg h7, if_neg h8,
      if_neg (mt (clash_iff x h e).mp h9)]

/-- The parse at entry `e`, all entries before it passing. -/
theorem Slot.HeaderPasses.parseEntries_at {e : Nat} (he : e < h.m) (hbefore : ∀ j, j < e → x.EntryPasses h j) :
    parseEntries x h h.m 0 32 [] =
      if x.EscapeAsShort h e then .error (invalidKey 7)
      else if x.LongWithoutEscape h e then .error (invalidKey 8)
      else if ((List.range e).map (x.keyEntry h)).any (x.keyEntry h e).clash then .error (invalidKey 9)
      else parseEntries x h (h.m - (e + 1)) (e + 1) (h.entryBit (e + 1)) ((List.range (e + 1)).map (x.keyEntry h)) := by
  rw [hpass.parseEntries_skip he.le hbefore, show h.m - e = h.m - (e + 1) + 1 by omega,
    parseEntries_succ x h _ e (hpass.entry_room he)]

theorem Slot.HeaderPasses.parseKey_of_entries_error {f : Failure} (hf : parseEntries x h h.m 0 32 [] = .error f) :
    parseKey x = .error f := by
  simp only [parseKey, (headerPasses_iff x h).mp hpass, hf]

theorem Slot.HeaderPasses.parseKey_of_escapeAsShort {e : Nat} (he : e < h.m) (hbefore : ∀ j, j < e → x.EntryPasses h j)
    (h7 : x.EscapeAsShort h e) : parseKey x = .error (invalidKey 7) :=
  hpass.parseKey_of_entries_error (by rw [hpass.parseEntries_at he hbefore, if_pos h7])

theorem Slot.HeaderPasses.parseKey_of_longWithoutEscape {e : Nat} (he : e < h.m)
    (hbefore : ∀ j, j < e → x.EntryPasses h j) (h8 : x.LongWithoutEscape h e) : parseKey x = .error (invalidKey 8) := by
  have h7 : ¬ x.EscapeAsShort h e := fun h7 => absurd h8.1 (by have := h7.1; omega)
  exact hpass.parseKey_of_entries_error (by rw [hpass.parseEntries_at he hbefore, if_neg h7, if_pos h8])

theorem Slot.HeaderPasses.parseKey_of_duplicateEntry {e : Nat} (he : e < h.m) (hbefore : ∀ j, j < e → x.EntryPasses h j)
    (h7 : ¬ x.EscapeAsShort h e) (h8 : ¬ x.LongWithoutEscape h e) (h9 : x.DuplicateEntry h e) :
    parseKey x = .error (invalidKey 9) :=
  hpass.parseKey_of_entries_error (by
    rw [hpass.parseEntries_at he hbefore, if_neg h7, if_neg h8, if_pos ((clash_iff x h e).mpr h9)])

/-- A key all of whose entries pass is accepted as it stands. -/
theorem Slot.HeaderPasses.parseKey_of_entryPasses (hall : ∀ e, e < h.m → x.EntryPasses h e) :
    parseKey x = .ok { header := h, entries := (List.range h.m).map (x.keyEntry h) } := by
  refine (parseKey_ok x _).mpr ⟨(headerPasses_iff x h).mp hpass, ?_⟩
  rw [hpass.parseEntries_skip le_rfl hall, Nat.sub_self, parseEntries]

/-- A key with an entry that does not pass is refused by check 7, 8 or 9: the first such entry ends the parse. -/
theorem Slot.HeaderPasses.parseKey_of_not_entryPasses (hbad : ∃ e, e < h.m ∧ ¬ x.EntryPasses h e) :
    ∃ check, 7 ≤ check ∧ check ≤ 9 ∧ parseKey x = .error (invalidKey check) := by
  classical
  obtain ⟨he, hnot⟩ := Nat.find_spec hbad
  have hbefore : ∀ j, j < Nat.find hbad → x.EntryPasses h j := fun j hj => by
    by_contra hj'
    exact Nat.find_min hbad hj ⟨hj.trans he, hj'⟩
  by_cases h7 : x.EscapeAsShort h (Nat.find hbad)
  · exact ⟨7, by omega, by omega, hpass.parseKey_of_escapeAsShort he hbefore h7⟩
  by_cases h8 : x.LongWithoutEscape h (Nat.find hbad)
  · exact ⟨8, by omega, by omega, hpass.parseKey_of_longWithoutEscape he hbefore h8⟩
  have h9 : x.DuplicateEntry h (Nat.find hbad) := by
    by_contra h9
    exact hnot ⟨h7, h8, h9⟩
  exact ⟨9, by omega, by omega, hpass.parseKey_of_duplicateEntry he hbefore h7 h8 h9⟩

end Entries

/-- Settles O60: each check by the entry loop at entry `e`, and acceptance by the loop to its end. -/
theorem keyEntryChecks : Obligations.KeyEntryChecks := fun _ _ hpass =>
  ⟨fun _ he hbefore => ⟨hpass.parseKey_of_escapeAsShort he hbefore, hpass.parseKey_of_longWithoutEscape he hbefore,
    hpass.parseKey_of_duplicateEntry he hbefore⟩, hpass.parseKey_of_entryPasses⟩

/-- A refused key is refused by one of the nine checks: no read of the parser leaves the data (R202, R244). -/
theorem parseKey_error_check {x : Slot} {f : Failure} (h : parseKey x = .error f) :
    ∃ check, 1 ≤ check ∧ check ≤ 9 ∧ f = invalidKey check := by
  cases hheader : parseHeader x with
  | error g =>
    obtain ⟨check, h1, h6, rfl⟩ := parseHeader_error_check hheader
    rw [parseKey_of_header_error hheader] at h
    exact ⟨check, h1, by omega, (Except.error.inj h).symm⟩
  | ok header =>
    have hpass := (headerPasses_iff x header).mpr hheader
    by_cases hall : ∀ e, e < header.m → x.EntryPasses header e
    · rw [hpass.parseKey_of_entryPasses hall] at h; cases h
    · push Not at hall
      obtain ⟨check, h7, h9, hcheck⟩ := hpass.parseKey_of_not_entryPasses (by simpa only [not_and_or, not_not] using hall)
      rw [hcheck] at h
      exact ⟨check, by omega, h9, (Except.error.inj h).symm⟩

theorem parseKey_error_kind {x : Slot} {f : Failure} (h : parseKey x = .error f) : f.kind = .invalidKey := by
  obtain ⟨check, _, _, rfl⟩ := parseKey_error_check h
  rfl

/-! ### Accepted keys -/

/-- An accepted key: the header passes, all entries pass, and the codebook is what stands in the slot. -/
theorem parseKey_ok_iff {x : Slot} {book : Codebook} : parseKey x = .ok book ↔
    x.HeaderPasses book.header ∧ (∀ e, e < book.header.m → x.EntryPasses book.header e) ∧
      book.entries = (List.range book.header.m).map (x.keyEntry book.header) := by
  constructor
  · intro h
    have hpass := (headerPasses_iff x _).mpr ((parseKey_ok x book).mp h).1
    have hall : ∀ e, e < book.header.m → x.EntryPasses book.header e := by
      by_contra hbad
      push Not at hbad
      obtain ⟨check, _, _, hcheck⟩ := hpass.parseKey_of_not_entryPasses (by simpa only [not_and_or, not_not] using hbad)
      rw [hcheck] at h; cases h
    rw [hpass.parseKey_of_entryPasses hall] at h
    exact ⟨hpass, hall, congrArg Codebook.entries (Except.ok.inj h).symm⟩
  · rintro ⟨hpass, hall, hentries⟩
    rw [hpass.parseKey_of_entryPasses hall, ← hentries]

/-- Entries that pass check 9 differ, each from those before it. -/
theorem keyEntries_nodup {α : Type} {x : Slot} {h : KeyHeader} (hall : ∀ e, e < h.m → x.EntryPasses h e) (f : CodeEntry → α)
    (hdup : ∀ i j, i < j → f (x.keyEntry h i) = f (x.keyEntry h j) → x.DuplicateEntry h j) :
    (((List.range h.m).map (x.keyEntry h)).map f).Nodup := by
  rw [List.map_map, List.Nodup, List.pairwise_map]
  refine List.pairwise_lt_range.imp_of_mem fun {i j} _ hj hij heq => ?_
  obtain ⟨_, _, h9⟩ := hall j (List.mem_range.mp hj)
  exact h9 (hdup i j hij heq)

section Accepted
variable {x : Slot} {h : KeyHeader} (hpass : x.HeaderPasses h)
include hpass

/-- The header counts are 1 to 256 (R13, R88). -/
theorem Slot.HeaderPasses.counts_range : 1 ≤ h.k ∧ h.m ≤ 256 := by
  obtain ⟨hheader, _⟩ := (parseHeader_ok x h).mp ((headerPasses_iff x h).mp hpass)
  rw [hheader]
  exact ⟨(cnt_range _).1, (cnt_range _).2⟩

/-- Every codeword of a key is one of its two widths, which are 1 to 16. -/
theorem Slot.HeaderPasses.entryWidth_range {e : Nat} (he : e < h.m) : 1 ≤ h.entryWidth e ∧ h.entryWidth e ≤ 16 := by
  obtain ⟨hbs1, hbs16⟩ := hpass.short_width
  have hlong := hpass.long_width
  have hcounts := hpass.counts
  rw [KeyHeader.entryWidth]
  split <;> omega

variable (hall : ∀ e, e < h.m → x.EntryPasses h e)
include hall

/-- The invariants of R42, each from the check that tests it. -/
theorem Slot.HeaderPasses.codebook_sound :
    Codebook.Sound { header := h, entries := (List.range h.m).map (x.keyEntry h) } where
  values_distinct := keyEntries_nodup hall _ fun i _ hij heq => ⟨i, hij, .inl heq⟩
  codewords_distinct := keyEntries_nodup hall _ fun i _ hij heq => ⟨i, hij, .inr (Prod.mk.inj heq)⟩
  short_or_long a ha := by
    obtain ⟨e, he, rfl⟩ := List.mem_map.mp ha
    have he := List.mem_range.mp he
    have hcounts := hpass.counts
    change h.entryWidth e = h.bs ∨ h.bl ≠ 0 ∧ h.entryWidth e = h.bl
    rw [KeyHeader.entryWidth]
    split <;> omega
  fits a ha := by
    obtain ⟨e, he, rfl⟩ := List.mem_map.mp ha
    exact ⟨x.fieldAt_lt _ _, hpass.entryWidth_range (List.mem_range.mp he)⟩
  long_has_escape a ha hlength := by
    obtain ⟨e, he, rfl⟩ := List.mem_map.mp ha
    obtain ⟨_, h8, _⟩ := hall e (List.mem_range.mp he)
    change h.entryWidth e = h.bl at hlength
    have hlong : h.k ≤ e := by
      have := hpass.short_width
      have := hpass.long_width
      by_contra hshort
      rw [KeyHeader.entryWidth, if_pos (by omega)] at hlength
      omega
    by_contra hesc
    exact h8 ⟨hlong, hesc⟩
  short_not_escape hbl a ha hlength := by
    obtain ⟨e, he, rfl⟩ := List.mem_map.mp ha
    obtain ⟨h7, _, _⟩ := hall e (List.mem_range.mp he)
    change h.entryWidth e = h.bs at hlength
    change h.bl ≠ 0 at hbl
    have hshort : e < h.k := by
      have := hpass.long_width
      by_contra hlong
      rw [KeyHeader.entryWidth, if_neg hlong] at hlength
      omega
    exact fun hesc => h7 ⟨hshort, hesc, hbl⟩

end Accepted

/-- An accepted key is a codebook that a key can say, whoever wrote it (R41, R42). -/
theorem wellFormed_of_parseKey {x : Slot} {book : Codebook} (h : parseKey x = .ok book) : book.WellFormed := by
  obtain ⟨header, entries⟩ := book
  obtain ⟨hpass, hall, hentries⟩ : x.HeaderPasses header ∧ (∀ e, e < header.m → x.EntryPasses header e) ∧
    entries = (List.range header.m).map (x.keyEntry header) := parseKey_ok_iff.mp h
  subst hentries
  obtain ⟨hk, hm⟩ := hpass.counts_range
  have hlong := hpass.long_width
  have hcounts := hpass.counts
  exact {
    sound := hpass.codebook_sound hall
    count := by simp
    counts := ⟨hk, hcounts.1, hm⟩
    short_width := hpass.short_width
    long_width := show header.bl = 0 ∧ header.k = header.m ∨ header.bs < header.bl ∧ header.bl ≤ 16 by omega
    width := fun e _ => by simp [Slot.keyEntry] }

/-- The maps are inverse the other way: a codeword that decodes is the codeword of the byte value (R41). -/
theorem Codebook.Sound.enc_of_dec {c : Codebook} (hc : c.Sound) {code length : Nat} {v : Byte}
    (hdec : c.dec code length = some v) : ∃ e, c.enc v = some e ∧ e.code = code ∧ e.length = length := by
  obtain ⟨e, hfound, rfl⟩ := Option.map_eq_some_iff.mp hdec
  have hmem := List.mem_of_find?_eq_some hfound
  obtain ⟨f, hf⟩ := Option.ne_none_iff_exists'.mp
    ((c.enc_ne_none_iff e.value).mpr (List.mem_map.mpr ⟨e, hmem, rfl⟩))
  obtain ⟨hfmem, hvalue⟩ := enc_some c _ f hf
  obtain rfl : f = e := List.inj_on_of_nodup_map hc.values_distinct hfmem hmem hvalue
  exact ⟨f, hf, by simpa using List.find?_some hfound⟩

/-- Settles O51: an accepted key is a well-formed codebook. -/
theorem acceptedKeysAreSound : Obligations.AcceptedKeysAreSound := by
  intro x book hparse
  have hc := wellFormed_of_parseKey hparse
  obtain ⟨hk, hkm, hm⟩ := hc.counts
  refine ⟨hc.sound, hc.count, hk, hkm, hm, hc.short_width.1, hc.short_width.2, hc.long_width, fun i e he => ?width,
    fun v code length => ⟨hc.sound.enc_of_dec, ?inverse⟩⟩
  case width =>
    obtain ⟨hi, rfl⟩ := List.getElem?_eq_some_iff.mp he
    exact hc.width i hi
  case inverse =>
    rintro ⟨e, he, rfl, rfl⟩
    exact hc.sound.dec_of_enc he

end Sys2Proof.Machine
end

section
/-!
PROOFS. What a command can do (spec/60_exceptions.md R240, R253, spec/10_state.md R26, R27, R36, R37): the six ways in which it
ends, said once for every command, and what follows from them for the slots, the registers and the invariant.
-/

namespace Sys2Proof.Machine

/-! ### What a write keeps of a slot -/

/-- A write that is no refresh: the counters stand and a dirty slot stays dirty (R26, R27). -/
structure Slot.StatsKept (x y : Slot) : Prop where
  freq : y.freq = x.freq
  total : y.total = x.total
  dirty : x.dirty = true → y.dirty = true

theorem Slot.StatsKept.refl (x : Slot) : x.StatsKept x := ⟨rfl, rfl, id⟩

theorem Slot.StatsKept.trans {x y z : Slot} (h : x.StatsKept y) (g : y.StatsKept z) : x.StatsKept z :=
  ⟨g.freq.trans h.freq, g.total.trans h.total, fun hd => g.dirty (h.dirty hd)⟩

theorem Slot.statsKept_cleared (x : Slot) : x.StatsKept x.cleared := ⟨rfl, rfl, fun _ => rfl⟩

/-- The part of `Slot.Wf` that speaks of the bytes: the capacity (R21) and the cursor (R23). -/
abbrev Slot.ShapeOk (cap : Nat) (x : Slot) : Prop := x.bytes.length ≤ cap ∧ x.CursorOk

theorem Slot.shapeOk_cleared (cap : Nat) (x : Slot) : x.cleared.ShapeOk cap := ⟨Nat.zero_le _, fun h => absurd rfl h⟩

theorem Slot.KeptBy.statsKept {cap : Nat} {x y : Slot} (h : x.KeptBy cap y) : x.StatsKept y :=
  ⟨h.freq, h.total, h.stays_dirty⟩

theorem Slot.KeptBy.shapeOk {cap : Nat} {x y : Slot} (h : x.KeptBy cap y) (hx : x.ShapeOk cap) : y.ShapeOk cap :=
  ⟨of_decide_eq_true (h.wf (decide_eq_true hx.1)), h.cursor hx.2⟩

/-- Command `i` may leave `x` in slot `b`: its destination, in shape where all slots were, the statistics kept or refreshed. -/
structure Writes (i : Instr) (s : State) (b : SlotNo) (x : Slot) : Prop where
  destination : i.destination = some b
  inRange : b.toNat < s.nbuf
  shape : (∀ y ∈ s.slots, y.ShapeOk s.cap) → x.ShapeOk s.cap
  statistics : (s.slot b).StatsKept x ∨ i.refreshes b ∧ ∃ y : Slot, x = y.refresh

/-- The failures that come after a command has begun to write (R253). -/
def FailureKind.isLate : FailureKind → Bool
  | .outOfRange | .unknownCodeword | .unknownSymbol | .capacityExceeded => true
  | .staleStatistics | .invalidKey | .undefinedStatistic | .illegalCommand | .badOperand => false

/-- The six ways in which a command ends: in a failure that changed nothing, with a slot written, in a late failure with a slot
partly written, with results, with bytes of `DIN` taken, with bytes sent on `DOUT`. -/
inductive CommandEnd (i : Instr) (s : State) : State → Prop
  | failed {f : Failure} (code : f.kind.code.toNat ∈ i.outcomes) : CommandEnd i s (s.raise f)
  | wrote {b : SlotNo} {x : Slot} (h : Writes i s b x) : CommandEnd i s (s.setSlot b x).succeed
  | partly {b : SlotNo} {x : Slot} {f : Failure} (h : Writes i s b x) (kept : (s.slot b).StatsKept x)
      (partial_result : i.leavesPartialResult = true) (code : f.kind.code.toNat ∈ i.outcomes)
      (late : f.kind.isLate = true) : CommandEnd i s ((s.setSlot b x).raise f)
  | queried {res res2 : Word} {resf : ExactReal} (hres : i.writesRes = false → res = s.res)
      (hres2 : i.writesRes2 = false → res2 = s.res2) (hresf : i.writesResf = false → resf = s.resf) :
      CommandEnd i s ({ s with res := res, res2 := res2, resf := resf } : State).succeed
  | loaded {b : SlotNo} {x : Slot} (n : Nat) (load : i = .load b) (h : Writes i s b x) :
      CommandEnd i s ((s.setSlot b x).dropDin n).succeed
  | sent {b : SlotNo} (bytes : List Byte) (save : i = .save b) : CommandEnd i s (s.emit bytes).succeed

/-- The command ends in one of these ways. -/
def Ends (i : Instr) (s : State) (r : Result) : Prop := ∃ t, r = .next t ∧ CommandEnd i s t

section Ends
variable {i : Instr} {s : State}

theorem CommandEnd.ends_fail {f : Failure} (code : f.kind.code.toNat ∈ i.outcomes) : Ends i s (s.fail f) :=
  ⟨_, rfl, .failed code⟩

theorem Writes.ends_done {b : SlotNo} {x : Slot} (h : Writes i s b x) : Ends i s (s.setSlot b x).done :=
  ⟨_, rfl, .wrote h⟩

theorem badOperand_mem_outcomes (i : Instr) : 9 ∈ i.outcomes := by cases i <;> simp [Instr.outcomes]

theorem success_mem_outcomes (i : Instr) : 0 ∈ i.outcomes := by cases i <;> simp [Instr.outcomes]

theorem ends_checked {ok : Bool} {body : Result} (h : ok = true → Ends i s body) : Ends i s (checked ok i s body) := by
  cases ok with
  | true => exact h rfl
  | false => exact CommandEnd.ends_fail (badOperand_mem_outcomes i)

theorem ends_ifFresh {b : SlotNo} {body : Result} (code : 2 ∈ i.outcomes) (h : Ends i s body) :
    Ends i s (ifFresh b s body) := by
  rw [ifFresh]
  split
  · exact CommandEnd.ends_fail code
  · exact h

theorem ends_ifDefined {d : Bool} {b : SlotNo} {body : Result} (code : 5 ∈ i.outcomes) (h : Ends i s body) :
    Ends i s (ifDefined d b s body) := by
  cases d with
  | true => exact h
  | false => exact CommandEnd.ends_fail code

/-- Appends to the destination as it is. -/
theorem writes_of_kept {b : SlotNo} {x : Slot} (hi : i.destination = some b) (hb : b.toNat < s.nbuf)
    (h : (s.slot b).KeptBy s.cap x) : Writes i s b x :=
  ⟨hi, hb, fun hs => h.shapeOk (hs _ (slot_mem s b hb)), .inl h.statsKept⟩

/-- Appends to the destination after it was cleared. -/
theorem writes_of_kept_cleared {b : SlotNo} {x : Slot} (hi : i.destination = some b) (hb : b.toNat < s.nbuf)
    (h : (s.slot b).cleared.KeptBy s.cap x) : Writes i s b x ∧ (s.slot b).StatsKept x :=
  have hkept := (s.slot b).statsKept_cleared.trans h.statsKept
  ⟨⟨hi, hb, fun _ => h.shapeOk (Slot.shapeOk_cleared _ _), .inl hkept⟩, hkept⟩

/-- A slot that keeps its bytes and its cursor keeps its shape. -/
theorem writes_of_same_bytes {b : SlotNo} {x : Slot} (hi : i.destination = some b) (hb : b.toNat < s.nbuf)
    (hlen : x.bytes.length = (s.slot b).bytes.length) (hnfb : x.nfb = (s.slot b).nfb)
    (hstats : (s.slot b).StatsKept x ∨ i.refreshes b ∧ ∃ y : Slot, x = y.refresh) : Writes i s b x := by
  refine ⟨hi, hb, fun hs => ?_, hstats⟩
  obtain ⟨hcap, hcursor⟩ := hs _ (slot_mem s b hb)
  refine ⟨hlen ▸ hcap, fun hne hnil => hcursor (hnfb ▸ hne) (List.length_eq_zero_iff.mp ?_)⟩
  rw [← hlen, hnil, List.length_nil]

end Ends

/-! ### Every command -/

/-- The two widths of an assignment, whatever the statistics (R173, R176). -/
theorem assign_widths (x : Slot) (num den : Nat) : 2 ≤ (assign x num den).bs ∧ (assign x num den).bs ≤ 9 ∧
    (assign x num den).bl ≤ (assign x num den).bs + 8 := by
  obtain ⟨_, _, _, _, hm⟩ := orderingIsSorted x
  have hwalk := (walk_spec num den x.total.toNat (ordering x) 0).2.1
  obtain ⟨hbs2, _, hbsMin⟩ := shortWidth_spec (walk num den x.total.toNat 0 (ordering x))
  exact ⟨hbs2, hbsMin 9 (by omega) (by omega), longWidth_le ((Nat.sub_le _ _).trans hm)⟩

/-- The fields of a key of `BUILD` are at most sixteen bits wide, whatever the statistics (R122). -/
theorem assign_width_le (x : Slot) (num den : Nat) : ∀ f ∈ (assign x num den).keyFields, f.2 ≤ 16 := by
  obtain ⟨_, hbs, hbl⟩ := assign_widths x num den
  intro f hf
  simp only [Assignment.keyFields, List.mem_append] at hf
  obtain (hf | hf) | hf := hf
  · have hheader : ∀ f ∈ [(low (assign x num den).m 8, 8), (low (assign x num den).k 8, 8), ((assign x num den).bs, 8),
        ((assign x num den).bl, 8)], f.2 = 8 := by simp
    have := hheader f hf
    omega
  · have := mem_shortEntryFields hf
    omega
  · have := mem_longEntryFields hf
    omega

/-- Every command ends, in one of the six ways (R240). -/
theorem exec_ends (i : Instr) (s : State) : Ends i s (exec i s) := by
  cases i with
  | append bd n imm =>
    refine ends_checked fun hok => ?_
    obtain ⟨hbd, _, hn⟩ := (appendOperands_iff s bd n).mp hok
    have hkept := (s.slot bd).appendBits_kept s.cap imm.toNat n.toNat hn
    split
    · next x hx => rw [hx] at hkept; exact (writes_of_kept rfl hbd hkept).ends_done
    · exact CommandEnd.ends_fail (by simp [Instr.outcomes, FailureKind.code])
  | readbits bd n =>
    refine ends_checked fun _ => ?_
    split
    · exact ⟨_, rfl, .queried (fun h => nomatch h) (fun _ => rfl) (fun _ => rfl)⟩
    · next f hf => rw [Slot.readBits_error hf]; exact CommandEnd.ends_fail (by simp [Instr.outcomes, FailureKind.code])
  | rdbyte bd =>
    refine ends_checked fun _ => ?_
    split
    · exact ⟨_, rfl, .queried (fun h => nomatch h) (fun _ => rfl) (fun _ => rfl)⟩
    · exact CommandEnd.ends_fail (by simp [Instr.outcomes, FailureKind.code])
  | wrbyte bd imm =>
    refine ends_checked fun hok => ?_
    split
    · exact CommandEnd.ends_fail (by simp [Instr.outcomes, FailureKind.code])
    · refine Writes.ends_done (writes_of_same_bytes rfl ((hasSlot_iff s bd).mp hok) ?_ rfl (.inl ⟨rfl, rfl, id⟩))
      exact memWrite_length _ _ _
  | clear bd =>
    refine ends_checked fun hok => Writes.ends_done ⟨rfl, (hasSlot_iff s bd).mp hok, fun _ => Slot.shapeOk_cleared _ _, ?_⟩
    exact .inl (s.slot bd).statsKept_cleared
  | copy bd ba =>
    refine ends_checked fun hok => ?_
    obtain ⟨hbd, hba, _⟩ := (copyOperands_iff s bd ba).mp hok
    exact Writes.ends_done ⟨rfl, hbd, fun hs => (hs (s.slot ba) (slot_mem s ba hba) :), .inl ⟨rfl, rfl, fun _ => rfl⟩⟩
  | load bd =>
    refine ends_checked fun hok => ?_
    split
    · exact CommandEnd.ends_fail (by simp [Instr.outcomes, FailureKind.code])
    · next hcap =>
      refine ⟨_, rfl, .loaded _ rfl ⟨rfl, (hasSlot_iff s bd).mp hok, fun _ => ⟨?_, fun h => absurd rfl h⟩, ?_⟩⟩
      · simpa using hcap
      · exact .inl ⟨rfl, rfl, fun _ => rfl⟩
  | save bd => exact ends_checked fun _ => ⟨_, rfl, .sent _ rfl⟩
  | stat bd => exact ends_checked fun _ => ⟨_, rfl, .queried (fun h => nomatch h) (fun h => nomatch h) (fun _ => rfl)⟩
  | refresh bd =>
    exact ends_checked fun hok => Writes.ends_done
      (writes_of_same_bytes rfl ((hasSlot_iff s bd).mp hok) rfl rfl (.inr ⟨rfl, _, rfl⟩))
  | markdirty bd n =>
    refine ends_checked fun hok => Writes.ends_done ?_
    obtain ⟨hbd, _⟩ := (markOperands_iff s bd n).mp hok
    split
    · next hn => exact writes_of_same_bytes rfl hbd rfl rfl (.inr ⟨⟨rfl, hn⟩, _, rfl⟩)
    · exact writes_of_same_bytes rfl hbd rfl rfl (.inl ⟨rfl, rfl, fun _ => rfl⟩)
  | freq bd imm =>
    exact ends_checked fun _ => ends_ifFresh (by simp [Instr.outcomes])
      ⟨_, rfl, .queried (fun h => nomatch h) (fun _ => rfl) (fun _ => rfl)⟩
  | prob bd imm =>
    exact ends_checked fun _ => ends_ifFresh (by simp [Instr.outcomes]) <| ends_ifDefined (by simp [Instr.outcomes])
      ⟨_, rfl, .queried (fun h => nomatch h) (fun h => nomatch h) (fun _ => rfl)⟩
  | info bd imm =>
    exact ends_checked fun _ => ends_ifFresh (by simp [Instr.outcomes]) <| ends_ifDefined (by simp [Instr.outcomes])
      ⟨_, rfl, .queried (fun _ => rfl) (fun _ => rfl) (fun h => nomatch h)⟩
  | byteent bd =>
    exact ends_checked fun _ => ends_ifFresh (by simp [Instr.outcomes]) <| ends_ifDefined (by simp [Instr.outcomes])
      ⟨_, rfl, .queried (fun _ => rfl) (fun _ => rfl) (fun h => nomatch h)⟩
  | bitent bd =>
    exact ends_checked fun _ => ends_ifFresh (by simp [Instr.outcomes]) <| ends_ifDefined (by simp [Instr.outcomes])
      ⟨_, rfl, .queried (fun _ => rfl) (fun _ => rfl) (fun h => nomatch h)⟩
  | build bd ba =>
    refine ends_checked fun hok => ends_ifFresh (by simp [Instr.outcomes]) <| ends_ifDefined (by simp [Instr.outcomes]) ?_
    obtain ⟨hbd, _⟩ := (buildOperands_iff s bd ba).mp hok
    have hkept := Slot.appendFields_kept s.cap _ (assign_width_le (s.slot ba) s.tfnum.toNat s.tfden.toNat)
      (s.slot bd).cleared
    split
    · next x hx =>
      rw [← serialize, hx] at hkept
      exact (writes_of_kept_cleared rfl hbd hkept).1.ends_done
    · next x hx =>
      rw [← serialize, hx] at hkept
      obtain ⟨hw, hstats⟩ := writes_of_kept_cleared (i := .build bd ba) rfl hbd hkept
      exact ⟨_, rfl, .partly hw hstats rfl (by simp [Instr.outcomes, FailureKind.code]) rfl⟩
  | encode bd ba bk =>
    refine ends_checked fun hok => ?_
    obtain ⟨hbd, _⟩ := (codecOperands_iff s bd ba bk).mp hok
    split
    · next f hf => exact CommandEnd.ends_fail (by simp [parseKey_error_kind hf, Instr.outcomes, FailureKind.code])
    · next book hbook =>
      have hkept := encodeLoop_kept s.cap book bd (fun e he => (parseKey_length_le _ _ hbook e he).2)
        (s.slot ba).bytes 0 (s.slot bd).cleared
      split
      · next x hx =>
        rw [hx] at hkept
        have hshape := hkept.shapeOk (Slot.shapeOk_cleared s.cap (s.slot bd))
        exact Writes.ends_done ⟨rfl, hbd, fun _ => hshape, .inr ⟨rfl, x, rfl⟩⟩
      · next x f hx =>
        rw [hx] at hkept
        obtain ⟨hw, hstats⟩ := writes_of_kept_cleared (i := .encode bd ba bk) rfl hbd hkept
        rcases encodeLoop_error _ hx with h | h
        all_goals exact ⟨_, rfl, .partly hw hstats rfl (by simp [h, Instr.outcomes, FailureKind.code]) (by rw [h]; rfl)⟩
  | decode bd ba bk =>
    refine ends_checked fun hok => ?_
    obtain ⟨hbd, _⟩ := (codecOperands_iff s bd ba bk).mp hok
    split
    · next f hf => exact CommandEnd.ends_fail (by simp [parseKey_error_kind hf, Instr.outcomes, FailureKind.code])
    · next book hbook =>
      have hkept := decodeLoop_kept s.cap book bd (s.slot ba) (s.slot ba).bitLen 0 (s.slot bd).cleared
      split
      · next x hx =>
        rw [hx] at hkept
        exact (writes_of_kept_cleared rfl hbd hkept).1.ends_done
      · next x f hx =>
        rw [hx] at hkept
        obtain ⟨hw, hstats⟩ := writes_of_kept_cleared (i := .decode bd ba bk) rfl hbd hkept
        rcases decodeLoop_error _ hx with h | h | h
        all_goals exact ⟨_, rfl, .partly hw hstats rfl (by simp [h, Instr.outcomes, FailureKind.code]) (by rw [h]; rfl)⟩

/-- A command that is followed to its end ended in one of the six ways. -/
theorem commandEnd_of_exec {i : Instr} {s t : State} (h : exec i s = .next t) : CommandEnd i s t := by
  obtain ⟨u, hu, hend⟩ := exec_ends i s
  obtain rfl : u = t := Host.Outcome.next.inj (hu.symm.trans h)
  exact hend

/-! ### The slots -/

/-- A slot other than the one replaced in the list reads as before. -/
theorem slot_of_slots_set {s t : State} {b k : SlotNo} {x : Slot} (h : t.slots = s.slots.set b.toNat x) (hk : k ≠ b) :
    t.slot k = s.slot k :=
  (slot_of_slots (s.setSlot b x) t h k).trans (s.slot_setSlot_other b x k hk)

/-- The slot replaced in the list reads as it was replaced. -/
theorem slot_of_slots_set_same {s t : State} {b : SlotNo} {x : Slot} (h : t.slots = s.slots.set b.toNat x)
    (hb : b.toNat < s.nbuf) : t.slot b = x :=
  (slot_of_slots (s.setSlot b x) t h b).trans (s.slot_setSlot_same b x hb)

theorem readByte_of_slot {s t : State} {k : SlotNo} (h : t.slot k = s.slot k) (a : Nat) : t.readByte k a = s.readByte k a := by
  rw [State.readByte, h, State.readByte]

section Command
variable {i : Instr} {s t : State}

/-- The list of slots after a command: as before, or with one slot written. -/
theorem CommandEnd.slots_cases (h : CommandEnd i s t) :
    t.slots = s.slots ∨ ∃ b x, Writes i s b x ∧ t.slots = s.slots.set b.toNat x := by
  cases h with
  | failed | queried | sent => exact .inl rfl
  | wrote hw => exact .inr ⟨_, _, hw, rfl⟩
  | partly hw => exact .inr ⟨_, _, hw, rfl⟩
  | loaded n _ hw => exact .inr ⟨_, _, hw, rfl⟩

theorem CommandEnd.nbuf (h : CommandEnd i s t) : t.nbuf = s.nbuf := by
  rcases h.slots_cases with hs | ⟨b, x, _, hs⟩ <;> simp [State.nbuf, hs]

/-- A command leaves every slot but its destination as it was (R51, R67). -/
theorem CommandEnd.slot_of_ne (h : CommandEnd i s t) {k : SlotNo} (hk : i.destination ≠ some k) : t.slot k = s.slot k := by
  rcases h.slots_cases with hs | ⟨b, x, hw, hs⟩
  · exact slot_of_slots s t hs k
  · exact slot_of_slots_set hs fun hkb => hk (hkb ▸ hw.destination)

end Command

/-! ### `STATUS` and `EINFO` -/

/-- A failure shows in `STATUS` (R34, R241). -/
theorem State.raise_status_ne_zero (s : State) (f : Failure) : (s.raise f).status ≠ 0 := fun h => by
  have hcode := f.kind.code_range.1
  rw [← FailureKind.code_toNat, ← State.raise_status s f, h] at hcode
  exact absurd hcode (by decide)

/-- The codes of the late failures are none of 2, 3, 5 and 9 (R253). -/
theorem FailureKind.code_of_isLate {k : FailureKind} (h : k.isLate = true) :
    k.code.setWidth 32 ∉ ([2, 3, 5, 9] : List Word) := by
  cases k <;> first | exact absurd h (by decide) | decide

end Sys2Proof.Machine

namespace Sys2Proof
open Machine

/-- Settles O12: every step ends, because every command does. -/
theorem stepAlwaysAnswers : Obligations.StepAlwaysAnswers := by
  intro s
  rcases step_cases s with ⟨_, hs⟩ | ⟨_, _, _, ⟨_, i, _, _, hs⟩ | ⟨_, _, _, _, hs⟩ | ⟨_, _, _, _, hs⟩ | ⟨_, _, hs⟩ |
    ⟨_, _, hs⟩ | ⟨_, hs⟩⟩
  case inr.inl =>
    obtain ⟨t, ht, _⟩ := exec_ends i _
    exact ⟨t, hs.trans ht⟩
  all_goals exact ⟨_, hs⟩

/-- Settles O14. -/
theorem onlyDestinationChanges : Obligations.OnlyDestinationChanges := fun _ _ _ ht =>
  have hend := commandEnd_of_exec ht
  ⟨hend.nbuf, fun _ hk => ⟨hend.slot_of_ne hk, readByte_of_slot (hend.slot_of_ne hk)⟩⟩

/-- Settles O15: none of the six ends writes these registers; `loaded` is the end of `LOAD` alone, `sent` that of `SAVE`. -/
theorem operandRegistersKept : Obligations.OperandRegistersKept := by
  intro i s t ht
  cases commandEnd_of_exec ht with
  | failed | wrote | partly | queried =>
    exact ⟨rfl, rfl, rfl, rfl, rfl, rfl, fun _ => rfl, fun _ => rfl⟩
  | loaded n hload => exact ⟨rfl, rfl, rfl, rfl, rfl, rfl, fun h => absurd hload (h _), fun _ => rfl⟩
  | sent bytes hsave => exact ⟨rfl, rfl, rfl, rfl, rfl, rfl, fun _ => rfl, fun h => absurd hsave (h _)⟩

/-- Settles O16: a failure changed nothing, or it is a late one of a command that leaves a partial result in its destination. -/
theorem failureKeepsEverythingElse : Obligations.FailureKeepsEverythingElse := by
  intro i s t ht hstatus
  have hend := commandEnd_of_exec ht
  have hother (k : SlotNo) (hk : i.destination ≠ some k) : t.slot k = s.slot k ∧ ∀ a, t.readByte k a = s.readByte k a :=
    ⟨hend.slot_of_ne hk, readByte_of_slot (hend.slot_of_ne hk)⟩
  cases hend with
  | failed => exact ⟨rfl, .inl rfl, hother, fun _ => rfl⟩
  | @partly b x f hw _ hpartial _ hlate =>
    refine ⟨rfl, .inr ⟨b, hw.destination, ?_⟩, hother, fun h => ?_⟩
    · rw [State.raise_slot, State.slot_setSlot_same s b x hw.inRange]; rfl
    · rcases h with h | h
      · exact absurd hpartial (by simp [h])
      · exact absurd h (FailureKind.code_of_isLate hlate)
  | wrote | queried | loaded | sent => exact absurd rfl hstatus

/-- Settles O17: only `raise` writes `EINFO`, and it does not leave 0 in `STATUS`. -/
theorem successKeepsEinfo : Obligations.SuccessKeepsEinfo := by
  intro i s t ht hstatus
  cases commandEnd_of_exec ht with
  | failed | partly => exact absurd hstatus (State.raise_status_ne_zero _ _)
  | wrote | queried | loaded | sent => rfl

/-- Settles O18. -/
theorem outcomeCodes : Obligations.OutcomeCodes := by
  intro i s t ht
  cases commandEnd_of_exec ht with
  | failed code => rwa [State.raise_status, FailureKind.code_toNat]
  | partly _ _ _ code => rwa [State.raise_status, FailureKind.code_toNat]
  | wrote | queried | loaded | sent => exact success_mem_outcomes i

/-- Settles O25. -/
theorem resultRegistersOnlyByQueries : Obligations.ResultRegistersOnlyByQueries := by
  intro i s t ht
  cases commandEnd_of_exec ht with
  | queried hres hres2 hresf =>
    exact ⟨fun h => hres (h.resolve_right fun hne => hne rfl), fun h => hres2 (h.resolve_right fun hne => hne rfl),
      fun h => hresf (h.resolve_right fun hne => hne rfl)⟩
  | failed | wrote | partly | loaded | sent => exact ⟨fun _ => rfl, fun _ => rfl, fun _ => rfl⟩

end Sys2Proof
end

section
/-!
PROOFS. The statistics of the slots and the invariant (spec/10_state.md R26, R27): what a command writes in a slot is well
formed where all slots were, so the invariant holds after reset and every step keeps it.
-/

namespace Sys2Proof.Machine

/-! ### The statistics -/

/-- A command that does not refresh slot `k` keeps its statistics (R26, R27). -/
theorem CommandEnd.statsKept {i : Instr} {s t : State} {k : SlotNo} (h : CommandEnd i s t)
    (hk : ¬ (i.refreshes k ∧ t.status = 0)) : (s.slot k).StatsKept (t.slot k) := by
  have hwritten {b : SlotNo} {x : Slot} (hw : Writes i s b x) (hkept : k = b → (s.slot b).StatsKept x)
      (hs : t.slots = s.slots.set b.toNat x) : (s.slot k).StatsKept (t.slot k) := by
    by_cases hkb : k = b
    · subst hkb
      rw [slot_of_slots_set_same hs hw.inRange]
      exact hkept rfl
    · rw [slot_of_slots_set hs hkb]
      exact .refl _
  cases h with
  | failed | queried | sent => exact .refl _
  | wrote hw => exact hwritten hw (fun hkb => hw.statistics.resolve_right fun hr => hk ⟨hkb ▸ hr.1, rfl⟩) rfl
  | partly hw kept => exact hwritten hw (fun _ => kept) rfl
  | loaded n hload hw =>
    exact hwritten hw (fun _ => hw.statistics.resolve_right fun hr => by rw [hload] at hr; exact hr.1) rfl

theorem Slot.StatsKept.freqSum {x y : Slot} (h : x.StatsKept y) : y.freqSum = x.freqSum := by
  have hfreq : y.freqOf = x.freqOf := funext fun v => by rw [Slot.freqOf, h.freq, Slot.freqOf]
  rw [Slot.freqSum, hfreq, Slot.freqSum]

/-! ### Well-formed slots -/

theorem Slot.Wf.shapeOk {cap : Nat} {x : Slot} (h : x.Wf cap) : x.ShapeOk cap := ⟨h.1, h.2.1⟩

/-- A write that keeps the statistics keeps them well formed. -/
theorem Slot.StatsKept.wf {cap : Nat} {x y : Slot} (h : x.StatsKept y) (hx : x.Wf cap) (hy : y.ShapeOk cap) : y.Wf cap := by
  obtain ⟨_, _, hlen, hfresh⟩ := hx
  refine ⟨hy.1, hy.2, h.freq ▸ hlen, fun hd => ?_⟩
  have hxd : x.dirty = false := by
    cases hxd : x.dirty with
    | false => rfl
    | true => rw [h.dirty hxd] at hd; cases hd
  rw [h.freqSum, h.total]
  exact hfresh hxd

/-- A refreshed slot within a capacity below `2^32` is well formed (R150). -/
theorem Slot.wf_refresh {cap : Nat} (hcap : cap < 2 ^ 32) {x : Slot} (hx : x.refresh.ShapeOk cap) : x.refresh.Wf cap := by
  have hlen : x.bytes.length ≤ cap := hx.1
  obtain ⟨_, hsum, _⟩ := x.refresh_describes (hlen.trans_lt hcap)
  exact ⟨hx.1, hx.2, countAll_length _, fun _ => ⟨hsum, by rwa [x.total_refresh (hlen.trans_lt hcap)]⟩⟩

/-- What a command leaves in a slot is well formed where all slots were. -/
theorem Writes.wf {i : Instr} {s : State} {b : SlotNo} {x : Slot} (h : Writes i s b x) (hcap : s.cap < 2 ^ 32)
    (hs : ∀ y ∈ s.slots, y.Wf s.cap) : x.Wf s.cap := by
  have hshape := h.shape fun y hy => (hs y hy).shapeOk
  rcases h.statistics with hkept | ⟨_, y, rfl⟩
  · exact hkept.wf (hs _ (slot_mem s b h.inRange)) hshape
  · exact Slot.wf_refresh hcap hshape

theorem Slot.wf_createdEmpty (cap : Nat) : Slot.createdEmpty.Wf cap :=
  ⟨Nat.zero_le _, fun h => absurd rfl h, List.length_replicate, fun h => nomatch h⟩

/-! ### The invariant -/

/-- The invariant speaks of the parameters, the slots and `STATUS` only. -/
theorem State.Inv.congr {s t : State} (h : s.Inv) (hslots : t.slots = s.slots) (hcap : t.cap = s.cap)
    (hstatus : t.status.toNat ≤ 9) : t.Inv := by
  obtain ⟨hvalid, _, hwf⟩ := h
  refine ⟨?_, hstatus, hslots ▸ hcap ▸ hwf⟩
  rwa [State.nbuf, hslots, hcap]

theorem State.inv_resetFor {c : Config} (h : c.Valid) : (State.resetFor c).Inv :=
  ⟨by rw [State.nbuf_resetFor]; exact h, Nat.zero_le _, fun _ hx =>
    State.eq_createdEmpty_of_mem_resetFor hx ▸ Slot.wf_createdEmpty _⟩

/-- The codes that the table of R241 allows are 0 to 9. -/
theorem outcomes_le (i : Instr) : ∀ c ∈ i.outcomes, c ≤ 9 := by
  cases i <;> simp [Instr.outcomes]

/-- Every command keeps the invariant: it writes well-formed slots only. -/
theorem CommandEnd.inv {i : Instr} {s t : State} (h : CommandEnd i s t) (hcap : t.cap = s.cap)
    (hcode : t.status.toNat ∈ i.outcomes) (hs : s.Inv) : t.Inv := by
  obtain ⟨hvalid, _, hwf⟩ := hs
  refine ⟨by rw [h.nbuf, hcap]; exact hvalid, outcomes_le i _ hcode, fun x hx => ?_⟩
  rw [hcap]
  rcases h.slots_cases with hslots | ⟨b, y, hw, hslots⟩
  · exact hwf x (hslots ▸ hx)
  · rw [hslots] at hx
    rcases List.mem_or_eq_of_mem_set hx with hx | rfl
    · exact hwf x hx
    · exact hw.wf (by have := hvalid.2.2.2; simp only at this; omega) hwf

end Sys2Proof.Machine

namespace Sys2Proof
open Machine

/-- Settles O24. -/
theorem statisticsWrittenOnlyByRefresh : Obligations.StatisticsWrittenOnlyByRefresh := fun _ _ _ _ ht hk =>
  have hkept := (commandEnd_of_exec ht).statsKept hk
  ⟨hkept.dirty, hkept.freq, hkept.total⟩

/-- Settles O10. -/
theorem invHoldsAtReset : Obligations.InvHoldsAtReset :=
  ⟨fun _ => State.inv_resetFor, State.inv_resetFor Config.largest_valid⟩

/-- Settles O11: a command keeps the invariant; every other step leaves the slots and `STATUS`, raises `IllegalCommand`, or
resets. -/
theorem stepKeepsInv : Obligations.StepKeepsInv := by
  intro s t hs ht
  have hinv : ∀ rest, ({ s with host := rest } : State).Inv := fun _ => hs.congr rfl rfl hs.2.1
  rcases step_cases s with ⟨_, h⟩ | ⟨_, rest, _, ⟨_, i, _, _, h⟩ | ⟨w, _, _, _, h⟩ | ⟨r, v, _, _, h⟩ | ⟨_, _, h⟩ |
    ⟨_, _, h⟩ | ⟨_, h⟩⟩ <;> rw [h] at ht
  case inr.inl =>
    obtain ⟨_, _, _, hcap, _⟩ := operandRegistersKept i _ t ht
    exact (commandEnd_of_exec ht).inv hcap (outcomeCodes i _ t ht) (hinv rest)
  all_goals obtain rfl := Host.Outcome.next.inj ht
  case inl => exact hs
  case inr.inr.inl => exact (hinv rest).congr rfl rfl (by decide : 8 ≤ 9)
  case inr.inr.inr.inl => cases r <;> exact (hinv rest).congr rfl rfl hs.2.1
  case inr.inr.inr.inr.inl => exact hs.congr rfl rfl hs.2.1
  case inr.inr.inr.inr.inr.inl => exact hs.congr rfl rfl hs.2.1
  case inr.inr.inr.inr.inr.inr => exact (State.inv_resetFor hs.1).congr rfl rfl (Nat.zero_le _)

end Sys2Proof
end

section
/-!
PROOFS. Stale statistics cannot be observed (spec/10_state.md R27, spec/70_reset_and_hazards.md R281): every operation takes
slots that differ in stale statistics only to such slots, so every command and every step does so with states.
-/

namespace Sys2Proof.Machine

/-! ### Slots that differ in stale statistics only -/

/-- Slots that differ in their statistics at most, and in those only while the flag is set. -/
structure Slot.Alike (x y : Slot) : Prop where
  bytes : x.bytes = y.bytes
  nfb : x.nfb = y.nfb
  dirty : x.dirty = y.dirty
  fresh : x.dirty = false → x = y

theorem Slot.Alike.refl (x : Slot) : x.Alike x := ⟨rfl, rfl, rfl, fun _ => rfl⟩

/-- Dirty slots with the same bytes and cursor. -/
theorem Slot.Alike.of_dirty {x y : Slot} (hb : x.bytes = y.bytes) (hn : x.nfb = y.nfb) (hx : x.dirty = true)
    (hy : y.dirty = true) : x.Alike y :=
  ⟨hb, hn, hx.trans hy.symm, fun h => by rw [hx] at h; cases h⟩

theorem Slot.alike_iff {x y : Slot} : x.Alike y ↔ x.forgetStale = y.forgetStale := by
  obtain ⟨xb, xn, xd, xf, xt⟩ := x
  obtain ⟨yb, yn, yd, yf, yt⟩ := y
  constructor
  · rintro ⟨hb, hn, hd, hfresh⟩
    cases xd with
    | false => rw [hfresh rfl]
    | true =>
      obtain rfl : xb = yb := hb
      obtain rfl : xn = yn := hn
      obtain rfl : true = yd := hd
      rfl
  · intro h
    cases xd <;> cases yd <;> simp [Slot.forgetStale] at h
    · obtain ⟨rfl, rfl, rfl, rfl⟩ := h
      exact .refl _
    · obtain ⟨rfl, rfl⟩ := h
      exact .of_dirty rfl rfl rfl rfl

/-! ### The operations on slots -/

/-- Both appends end the same way, in slots that are alike. -/
inductive Appended.Alike : Appended → Appended → Prop
  | done {x y : Slot} (h : x.Alike y) : Appended.Alike (.done x) (.done y)
  | full {x y : Slot} (h : x.Alike y) : Appended.Alike (.full x) (.full y)

theorem Appended.Alike.cases {a b : Appended} (h : a.Alike b) :
    (∃ x y, a = .done x ∧ b = .done y ∧ x.Alike y) ∨ ∃ x y, a = .full x ∧ b = .full y ∧ x.Alike y := by
  cases h with
  | done h => exact .inl ⟨_, _, rfl, rfl, h⟩
  | full h => exact .inr ⟨_, _, rfl, rfl, h⟩

section Appends
variable {x y : Slot} (h : x.Alike y) (cap v n : Nat)
include h

theorem Slot.Alike.appendBits : (x.appendBits cap v n).Alike (y.appendBits cap v n) := by
  have hlen : x.len = y.len := congrArg List.length h.bytes
  simp only [Slot.appendBits, h.bytes, h.nfb, hlen]
  generalize (if y.nfb.toNat = 0 ∨ n > 8 - y.nfb.toNat then 1 else 0) = need
  by_cases hfull : y.len + need > cap
  · rw [if_pos hfull, if_pos hfull]
    exact .full h
  · rw [if_neg hfull, if_neg hfull]
    by_cases hroom : n ≤ 8 - y.nfb.toNat
    · rw [if_pos hroom, if_pos hroom]
      exact .done (.of_dirty rfl rfl rfl rfl)
    · rw [if_neg hroom, if_neg hroom]
      exact .done (.of_dirty rfl rfl rfl rfl)

theorem Slot.Alike.appendWide : (x.appendWide cap v n).Alike (y.appendWide cap v n) := by
  simp only [Slot.appendWide]
  split
  · exact .done h
  · split
    · rcases (h.appendBits cap (low v n / 256) (n - 8)).cases with ⟨x', y', hx, hy, h'⟩ | ⟨x', y', hx, hy, h'⟩
      all_goals simp only [hx, hy]
      · exact h'.appendBits cap _ _
      · exact .full h'
    · exact h.appendBits cap v n

end Appends

theorem Slot.Alike.appendFields (cap : Nat) (fields : List (Nat × Nat)) : ∀ {x y : Slot}, x.Alike y →
    (x.appendFields cap fields).Alike (y.appendFields cap fields) := by
  induction fields with
  | nil => exact fun h => .done h
  | cons f rest ih =>
    intro x y h
    simp only [Slot.appendFields]
    rcases (h.appendWide cap f.1 f.2).cases with ⟨x', y', hx, hy, h'⟩ | ⟨x', y', hx, hy, h'⟩
    all_goals simp only [hx, hy]
    · exact ih h'
    · exact .full h'

/-- The loop of `ENCODE` into slots that are alike. -/
theorem Slot.Alike.encodeLoop (cap : Nat) (book : Codebook) (bd : SlotNo) (input : List Byte) : ∀ {i : Nat} {x y : Slot},
    x.Alike y → (encodeLoop cap book bd i input x).1.Alike (encodeLoop cap book bd i input y).1 ∧
      (encodeLoop cap book bd i input x).2 = (encodeLoop cap book bd i input y).2 := by
  induction input with
  | nil => exact fun h => ⟨h, rfl⟩
  | cons v rest ih =>
    intro i x y h
    simp only [Machine.encodeLoop]
    cases book.enc v with
    | none => exact ⟨h, rfl⟩
    | some e =>
      rcases (h.appendWide cap e.code e.length).cases with ⟨x', y', hx, hy, h'⟩ | ⟨x', y', hx, hy, h'⟩
      all_goals simp only [hx, hy]
      · exact ih h'
      · exact ⟨h', trivial⟩

/-- The loop of `DECODE` into slots that are alike. -/
theorem Slot.Alike.decodeLoop (cap : Nat) (book : Codebook) (bd : SlotNo) (input : Slot) (fuel : Nat) :
    ∀ {p : Nat} {x y : Slot}, x.Alike y →
      (decodeLoop cap book bd input fuel p x).1.Alike (decodeLoop cap book bd input fuel p y).1 ∧
      (decodeLoop cap book bd input fuel p x).2 = (decodeLoop cap book bd input fuel p y).2 := by
  induction fuel with
  | zero => exact fun h => ⟨h, rfl⟩
  | succ fuel ih =>
    intro p x y h
    simp only [Machine.decodeLoop]
    split
    · cases nextCodeword book.header input p with
      | error f => exact ⟨h, rfl⟩
      | ok r =>
        obtain ⟨code, length⟩ := r
        simp only
        cases book.dec code length with
        | none => exact ⟨h, rfl⟩
        | some v =>
          rcases (h.appendBits cap v.toNat 8).cases with ⟨x', y', hx, hy, h'⟩ | ⟨x', y', hx, hy, h'⟩
          all_goals simp only [hx, hy]
          · exact ih h'
          · exact ⟨h', trivial⟩
    · exact ⟨h, rfl⟩

/-- A refresh forgets what the statistics were (R150). -/
theorem Slot.Alike.refresh {x y : Slot} (h : x.Alike y) : x.refresh.Alike y.refresh := by
  have hsame : x.refresh = y.refresh := by simp only [Slot.refresh, Slot.len, h.bytes, h.nfb]
  rw [hsame]
  exact .refl _

/-! ### What is read from a slot without its statistics -/

section Reads
variable {x y : Slot} (h : x.Alike y)
include h

theorem Slot.Alike.len : x.len = y.len := congrArg List.length h.bytes

theorem Slot.Alike.bitLen : x.bitLen = y.bitLen := by simp only [Slot.bitLen, h.nfb, h.len]

theorem Slot.Alike.fieldAt (f n : Nat) : x.fieldAt f n = y.fieldAt f n :=
  x.fieldAt_congr y f n fun j _ => by rw [Slot.bitAt, h.bytes, Slot.bitAt]

theorem Slot.Alike.readBits (f n : Nat) : x.readBits f n = y.readBits f n := by
  rw [Slot.readBits_eq, Slot.readBits_eq, h.bitLen, h.fieldAt]

theorem Slot.Alike.readWide (f w : Nat) : x.readWide f w = y.readWide f w := by
  rw [Slot.readWide_eq, Slot.readWide_eq, h.bitLen, h.fieldAt]

theorem Slot.Alike.parseEntries (header : KeyHeader) (count : Nat) : ∀ (e q : Nat) (found : List CodeEntry),
    parseEntries x header count e q found = parseEntries y header count e q found := by
  induction count with
  | zero => exact fun _ _ _ => rfl
  | succ count ih =>
    intro e q found
    simp only [Machine.parseEntries, parseEntry, h.readBits, h.readWide, ih]

theorem Slot.Alike.parseKey : parseKey x = parseKey y := by
  have hheader : x.keyHeader = y.keyHeader := by simp only [Slot.keyHeader, Slot.headerByte, h.bytes]
  simp only [Machine.parseKey, parseHeader, hheader, h.len, h.bitLen, h.parseEntries]

theorem Slot.Alike.decodeLoop_input (cap : Nat) (book : Codebook) (bd : SlotNo) (fuel : Nat) : ∀ (p : Nat) (z : Slot),
    Machine.decodeLoop cap book bd x fuel p z = Machine.decodeLoop cap book bd y fuel p z := by
  induction fuel with
  | zero => exact fun _ _ => rfl
  | succ fuel ih =>
    intro p z
    simp only [Machine.decodeLoop, nextCodeword, h.readWide, h.bitLen, ih]

theorem Slot.Alike.flagWord : x.flagWord = y.flagWord := by simp only [Slot.flagWord, h.dirty, h.nfb]

end Reads

/-! ### States that differ in stale statistics only -/

/-- States that differ in stale statistics only: everything but the slots is the same, and the slots are alike one by one. -/
structure State.Alike (s t : State) : Prop where
  rest : t = { s with slots := t.slots }
  slots : s.slots.map Slot.forgetStale = t.slots.map Slot.forgetStale

theorem State.alike_iff {s t : State} : s.Alike t ↔ s.forgetStale = t.forgetStale := by
  constructor
  · rintro ⟨hrest, hslots⟩
    rw [hrest, State.forgetStale, hslots, State.forgetStale]
  · intro h
    refine ⟨?_, congrArg State.slots h⟩
    calc t = { t.forgetStale with slots := t.slots } := rfl
      _ = { s with slots := t.slots } := by rw [← h]; rfl

section Alike
variable {s t : State} (h : s.Alike t)
include h

theorem State.Alike.nbuf : t.nbuf = s.nbuf := by
  simpa [State.nbuf] using (congrArg List.length h.slots).symm

theorem State.Alike.cap : t.cap = s.cap := by rw [h.rest]
theorem State.Alike.argNat : t.argNat = s.argNat := by rw [h.rest]; rfl
theorem State.Alike.tfnum : t.tfnum = s.tfnum := by rw [h.rest]
theorem State.Alike.tfden : t.tfden = s.tfden := by rw [h.rest]
theorem State.Alike.dinBytes (n : Nat) : t.dinBytes n = s.dinBytes n := by rw [h.rest]; rfl
theorem State.Alike.hasSlot (b : SlotNo) : t.hasSlot b = s.hasSlot b := by rw [State.hasSlot, h.nbuf, State.hasSlot]

theorem State.Alike.slot (b : SlotNo) : (s.slot b).Alike (t.slot b) := by
  have hget := congrArg (fun l => l.getD b.toNat Slot.createdEmpty.forgetStale) h.slots
  simp only [List.getD_map] at hget
  exact Slot.alike_iff.mpr hget

theorem State.Alike.setSlot (b : SlotNo) {x y : Slot} (hxy : x.Alike y) : (s.setSlot b x).Alike (t.setSlot b y) := by
  refine ⟨?_, ?_⟩
  · rw [h.rest]; rfl
  · rw [State.setSlot_slots, State.setSlot_slots, List.map_set, List.map_set, h.slots, Slot.alike_iff.mp hxy]

/-! The same results, or the same bytes of a stream, on both sides. -/

theorem State.Alike.setRes (r : Word) : State.Alike { s with res := r } { t with res := r } :=
  ⟨by rw [h.rest], h.slots⟩

theorem State.Alike.setRes2 (r r2 : Word) : State.Alike { s with res := r, res2 := r2 } { t with res := r, res2 := r2 } :=
  ⟨by rw [h.rest], h.slots⟩

theorem State.Alike.setResf (r : ExactReal) : State.Alike { s with resf := r } { t with resf := r } :=
  ⟨by rw [h.rest], h.slots⟩

theorem State.Alike.dropDin (n : Nat) : (s.dropDin n).Alike (t.dropDin n) := ⟨by rw [h.rest]; rfl, h.slots⟩

theorem State.Alike.emit (bytes : List Byte) : (s.emit bytes).Alike (t.emit bytes) := ⟨by rw [h.rest]; rfl, h.slots⟩

end Alike

/-! ### Results -/

/-- Both commands end, in states that differ in stale statistics only. -/
def SameEnd (r q : Result) : Prop := ∃ s t, r = .next s ∧ q = .next t ∧ s.Alike t

section SameEnd
variable {s t : State} (h : s.Alike t)
include h

theorem State.Alike.next : SameEnd (.next s) (.next t) := ⟨s, t, rfl, rfl, h⟩

theorem State.Alike.fail (f : Failure) : SameEnd (s.fail f) (t.fail f) := by
  refine State.Alike.next ⟨?_, h.slots⟩
  rw [h.rest]; rfl

theorem State.Alike.done : SameEnd s.done t.done := by
  refine State.Alike.next ⟨?_, h.slots⟩
  rw [h.rest]; rfl

theorem State.Alike.checked {ok ok' : Bool} (hok : ok' = ok) (i : Instr) {r q : Result} (hbody : SameEnd r q) :
    SameEnd (checked ok i s r) (checked ok' i t q) := by
  subst hok
  cases ok' with
  | true => exact hbody
  | false => exact h.fail _

/-- Behind the freshness test the slot is the same on both sides. -/
theorem State.Alike.ifFresh (b : SlotNo) {r q : Result} (hbody : s.slot b = t.slot b → SameEnd r q) :
    SameEnd (ifFresh b s r) (ifFresh b t q) := by
  rw [Machine.ifFresh, Machine.ifFresh, ← (h.slot b).dirty]
  split
  · exact h.fail _
  · next hd => exact hbody ((h.slot b).fresh (by simpa using hd))

theorem State.Alike.ifDefined {d d' : Bool} (hd : d' = d) (b : SlotNo) {r q : Result} (hbody : SameEnd r q) :
    SameEnd (ifDefined d b s r) (ifDefined d' b t q) := by
  subst hd
  cases d' with
  | true => exact hbody
  | false => exact h.fail _

end SameEnd

/-! ### Commands and steps -/

section Exec
variable {s t : State} (h : s.Alike t)
include h

/-- `BUILD`: the statistics it reads are fresh, so they are the same. -/
theorem State.Alike.execBuild (bd ba : SlotNo) : SameEnd (execBuild bd ba s) (execBuild bd ba t) := by
  refine h.checked (by simp [buildOperands, h.hasSlot, State.targetInRange, h.tfnum, h.tfden]) _ (h.ifFresh ba fun heq => ?_)
  rw [← heq, h.tfnum, h.tfden, h.cap]
  refine h.ifDefined rfl ba ?_
  have hclear : (s.slot bd).cleared.Alike (t.slot bd).cleared := .of_dirty rfl rfl rfl rfl
  rcases (hclear.appendFields s.cap (assign (s.slot ba) s.tfnum.toNat s.tfden.toNat).keyFields).cases with
    ⟨x, y, hx, hy, hxy⟩ | ⟨x, y, hx, hy, hxy⟩
  all_goals simp only [serialize, hx, hy]
  · exact (h.setSlot bd hxy).done
  · exact (h.setSlot bd hxy).fail _

theorem State.Alike.execEncode (bd ba bk : SlotNo) : SameEnd (execEncode bd ba bk s) (execEncode bd ba bk t) := by
  refine h.checked (by simp [codecOperands, h.hasSlot]) _ ?_
  rw [← (h.slot bk).parseKey, h.cap, ← (h.slot ba).bytes]
  cases parseKey (s.slot bk) with
  | error f => exact h.fail f
  | ok book =>
    have hclear : (s.slot bd).cleared.Alike (t.slot bd).cleared := .of_dirty rfl rfl rfl rfl
    obtain ⟨hxy, hf⟩ := hclear.encodeLoop s.cap book bd (s.slot ba).bytes (i := 0)
    simp only
    generalize encodeLoop s.cap book bd 0 (s.slot ba).bytes (s.slot bd).cleared = p at hxy hf
    generalize encodeLoop s.cap book bd 0 (s.slot ba).bytes (t.slot bd).cleared = q at hxy hf
    obtain ⟨x, f⟩ := p
    obtain ⟨y, g⟩ := q
    obtain rfl : f = g := hf
    cases f with
    | none => exact (h.setSlot bd (Slot.Alike.refresh hxy)).done
    | some f => exact (h.setSlot bd hxy).fail f

theorem State.Alike.execDecode (bd ba bk : SlotNo) : SameEnd (execDecode bd ba bk s) (execDecode bd ba bk t) := by
  refine h.checked (by simp [codecOperands, h.hasSlot]) _ ?_
  rw [← (h.slot bk).parseKey, h.cap, ← (h.slot ba).bitLen]
  cases parseKey (s.slot bk) with
  | error f => exact h.fail f
  | ok book =>
    have hclear : (s.slot bd).cleared.Alike (t.slot bd).cleared := .of_dirty rfl rfl rfl rfl
    obtain ⟨hxy, hf⟩ := hclear.decodeLoop s.cap book bd (s.slot ba) (s.slot ba).bitLen (p := 0)
    simp only [← (h.slot ba).decodeLoop_input]
    generalize decodeLoop s.cap book bd (s.slot ba) (s.slot ba).bitLen 0 (s.slot bd).cleared = p at hxy hf
    generalize decodeLoop s.cap book bd (s.slot ba) (s.slot ba).bitLen 0 (t.slot bd).cleared = q at hxy hf
    obtain ⟨x, f⟩ := p
    obtain ⟨y, g⟩ := q
    obtain rfl : f = g := hf
    cases f with
    | none => exact (h.setSlot bd hxy).done
    | some f => exact (h.setSlot bd hxy).fail f

/-- No command shows stale statistics. -/
theorem State.Alike.exec (i : Instr) : SameEnd (exec i s) (exec i t) := by
  have hslot := h.slot
  cases i with
  | append bd n imm =>
    refine h.checked (by simp [appendOperands, h.hasSlot]) _ ?_
    rw [h.cap]
    rcases ((hslot bd).appendBits s.cap imm.toNat n.toNat).cases with ⟨x, y, hx, hy, hxy⟩ | ⟨x, y, hx, hy, hxy⟩
    all_goals simp only [hx, hy]
    · exact (h.setSlot bd hxy).done
    · exact h.fail _
  | readbits bd n =>
    refine h.checked (by simp [readOperands, h.hasSlot]) _ ?_
    rw [h.argNat, ← (hslot bd).readBits]
    cases (s.slot bd).readBits s.argNat n.toNat with
    | ok r => exact (h.setRes _).done
    | error f => exact h.fail f
  | rdbyte bd =>
    refine h.checked (h.hasSlot bd) _ ?_
    rw [h.argNat, ← (hslot bd).bytes]
    cases memRead (s.slot bd).bytes s.argNat with
    | some v => exact (h.setRes _).done
    | none => exact h.fail _
  | wrbyte bd imm =>
    refine h.checked (h.hasSlot bd) _ ?_
    rw [h.argNat, ← (hslot bd).len, ← (hslot bd).bytes]
    split
    · exact h.fail _
    · refine (h.setSlot bd ?_).done
      exact ⟨rfl, (hslot bd).nfb, (hslot bd).dirty, fun hd => by rw [← (hslot bd).fresh hd]⟩
  | clear bd =>
    refine h.checked (h.hasSlot bd) _ (h.setSlot bd ?_).done
    exact .of_dirty rfl rfl rfl rfl
  | copy bd ba =>
    refine h.checked (by simp [copyOperands, h.hasSlot]) _ (h.setSlot bd ?_).done
    exact .of_dirty (hslot ba).bytes (hslot ba).nfb rfl rfl
  | load bd =>
    refine h.checked (h.hasSlot bd) _ ?_
    rw [h.argNat, h.cap, h.dinBytes]
    split
    · exact h.fail _
    · refine ((h.setSlot bd ?_).dropDin _).done
      exact .of_dirty rfl rfl rfl rfl
  | save bd =>
    refine h.checked (h.hasSlot bd) _ ?_
    rw [← (hslot bd).bytes]
    exact (h.emit _).done
  | stat bd =>
    refine h.checked (h.hasSlot bd) _ ?_
    rw [← (hslot bd).len, ← (hslot bd).flagWord]
    exact (h.setRes2 _ _).done
  | refresh bd => exact h.checked (h.hasSlot bd) _ (h.setSlot bd (Slot.Alike.refresh (hslot bd))).done
  | markdirty bd n =>
    refine h.checked (by simp [markOperands, h.hasSlot]) _ (h.setSlot bd ?_).done
    have hmark : (s.slot bd).markDirty.Alike (t.slot bd).markDirty := .of_dirty (hslot bd).bytes (hslot bd).nfb rfl rfl
    split
    · exact Slot.Alike.refresh hmark
    · exact hmark
  | freq bd imm =>
    exact h.checked (h.hasSlot bd) _ (h.ifFresh bd fun heq => heq ▸ (h.setRes _).done)
  | prob bd imm =>
    exact h.checked (h.hasSlot bd) _ (h.ifFresh bd fun heq => heq ▸ h.ifDefined rfl bd (h.setRes2 _ _).done)
  | info bd imm =>
    exact h.checked (h.hasSlot bd) _ (h.ifFresh bd fun heq => heq ▸ h.ifDefined rfl bd (h.setResf _).done)
  | byteent bd =>
    exact h.checked (h.hasSlot bd) _ (h.ifFresh bd fun heq => heq ▸ h.ifDefined rfl bd (h.setResf _).done)
  | bitent bd =>
    exact h.checked (h.hasSlot bd) _ (h.ifFresh bd fun heq => heq ▸ h.ifDefined rfl bd (h.setResf _).done)
  | build bd ba => exact h.execBuild bd ba
  | encode bd ba bk => exact h.execEncode bd ba bk
  | decode bd ba bk => exact h.execDecode bd ba bk

/-- No other host action does either: the registers are the same, and a reset forgets the slots. -/
theorem State.Alike.performAction (a : HostAction) : SameEnd (performAction a s) (performAction a t) := by
  cases a with
  | write r v =>
    cases r with
    | cmd =>
      change SameEnd (runCommand v s) (runCommand v t)
      rw [runCommand, runCommand]
      cases decode v with
      | ok i => exact h.exec i
      | error e => exact h.fail _
    | _ => exact State.Alike.next ⟨by rw [h.rest]; rfl, h.slots⟩
  | read r =>
    have hread : t.readReg r = s.readReg r := by rw [h.rest]; cases r <;> rfl
    refine State.Alike.next ⟨?_, h.slots⟩
    rw [hread, h.rest]
  | supply bytes => exact State.Alike.next ⟨by rw [h.rest], h.slots⟩
  | reset =>
    have hsame : t.applyReset = s.applyReset := by rw [State.applyReset, h.nbuf, h.rest]; rfl
    exact ⟨_, _, rfl, rfl, hsame ▸ ⟨rfl, rfl⟩⟩

end Exec

/-- A step takes the same action on both sides. -/
theorem State.Alike.step {s t : State} (h : s.Alike t) : SameEnd (step s) (step t) := by
  have hhost : t.host = s.host := by rw [h.rest]
  rw [Machine.step, Machine.step, takeAction, takeAction, hhost]
  cases s.host with
  | nil => exact h.next
  | cons a rest =>
    have halike : State.Alike { s with host := rest } { t with host := rest } := ⟨by rw [h.rest], h.slots⟩
    exact halike.performAction a

end Sys2Proof.Machine

namespace Sys2Proof
open Machine

/-- Settles O13: the states are alike, and a step keeps them so. -/
theorem staleStatisticsUnobservable : Obligations.StaleStatisticsUnobservable := by
  intro s t h
  obtain ⟨s', t', hs, ht, halike⟩ := (State.alike_iff.mpr h).step
  exact ⟨s', t', hs, ht, State.alike_iff.mp halike⟩

end Sys2Proof
end

section
/-!
PROOFS. The BitBuffer commands (spec/40_bitbuffer.md R125 to R133): what each does where its operands are in range, and that a
repeated access changes nothing more (spec/20_memory.md R57).
-/

namespace Sys2Proof.Machine

/-! ### Frames -/

theorem slotsKept_of_slots {s t : State} (h : t.slots = s.slots) : SlotsKept s t :=
  ⟨h, fun k => readByte_of_slot (slot_of_slots s t h k)⟩

theorem otherSlotsKept_of_set {s t : State} {bd : SlotNo} {x : Slot} (h : t.slots = s.slots.set bd.toNat x) :
    OtherSlotsKept s t bd :=
  ⟨by simp [State.nbuf, h], fun _ hk => ⟨slot_of_slots_set h hk, readByte_of_slot (slot_of_slots_set h hk)⟩⟩

theorem State.succeed_setSlot_eq (s : State) (b : SlotNo) (x : Slot) :
    (s.setSlot b x).succeed = { s with slots := s.slots.set b.toNat x, status := 0 } := rfl

theorem checked_of {ok : Bool} (h : ok = true) (i : Instr) (s : State) (body : Result) : checked ok i s body = body := by
  rw [h, checked_true]

/-- `OutOfRange` at the address in `ARG` shows `ARG` (R242). -/
theorem State.fail_outOfRange_arg (s : State) :
    s.fail (outOfRange s.argNat) = .next { s with status := 1, einfo := s.arg } := by
  have hinfo : (outOfRange s.argNat).info = s.arg := by simp [outOfRange, State.argNat]
  rw [State.fail, State.raise, hinfo]
  rfl

/-! ### Slots by their bits -/

/-- A byte is determined by its eight stream bits. -/
theorem Slot.getD_bytes_congr {x y : Slot} {a : Nat} (h : ∀ j, j < 8 → x.bitAt (8 * a + j) = y.bitAt (8 * a + j)) :
    x.bytes.getD a 0 = y.bytes.getD a 0 := by
  refine BitVec.eq_of_getLsbD_eq fun j hj => ?_
  have hbit := h (7 - j) (by omega)
  simpa only [Slot.bitAt, show (8 * a + (7 - j)) / 8 = a by omega, show 7 - (8 * a + (7 - j)) % 8 = j by omega] using hbit

theorem Slot.getElem?_bytes {x : Slot} {a : Nat} (h : a < x.len) : x.bytes[a]? = some (x.bytes.getD a 0) := by
  rw [List.getD_eq_getElem _ _ h, List.getElem?_eq_getElem h]

/-- A slot is determined by its bits, its flag and its statistics. -/
theorem Slot.eq_of_bitAt {x y : Slot} (hx : x.CursorOk) (hy : y.CursorOk) (hlen : x.bitLen = y.bitLen)
    (hbits : ∀ i, x.bitAt i = y.bitAt i) (hdirty : x.dirty = y.dirty) (hfreq : x.freq = y.freq)
    (htotal : x.total = y.total) : x = y := by
  have hbytes : x.bytes = y.bytes := by
    have hl : x.len = y.len := by rw [x.len_eq hx, y.len_eq hy, hlen]
    refine List.ext_getElem? fun a => ?_
    by_cases ha : a < x.len
    · rw [Slot.getElem?_bytes ha, Slot.getElem?_bytes (hl ▸ ha), Slot.getD_bytes_congr fun j _ => hbits _]
    · have hx' : x.bytes.length ≤ a := Nat.le_of_not_lt ha
      have hy' : y.bytes.length ≤ a := hl.symm.trans_le hx'
      rw [List.getElem?_eq_none hx', List.getElem?_eq_none hy']
  have hnfb : x.nfb = y.nfb := BitVec.eq_of_toNat_eq (by rw [x.nfb_eq hx, y.nfb_eq hy, hlen])
  obtain ⟨xb, xn, xd, xf, xt⟩ := x
  simp only at hbytes hnfb hdirty hfreq htotal
  rw [hbytes, hnfb, hdirty, hfreq, htotal]

/-- What an append leaves is determined by the field and the flag. -/
theorem Slot.GrownBy.unique {x y z : Slot} {v n : Nat} (hy : x.GrownBy y v n) (hz : x.GrownBy z v n)
    (hd : y.dirty = z.dirty) : y = z := by
  refine Slot.eq_of_bitAt hy.cursor hz.cursor (hy.bitLen.trans hz.bitLen.symm) (fun i => ?_) hd
    (hy.freq.trans hz.freq.symm) (hy.total.trans hz.total.symm)
  by_cases hi : i < x.bitLen ∨ x.bitLen + n ≤ i
  · rw [hy.old i hi, hz.old i hi]
  · obtain ⟨j, rfl⟩ := Nat.exists_eq_add_of_le (show x.bitLen ≤ i by omega)
    rw [hy.new j (by omega), hz.new j (by omega)]

/-- A full byte stays as it is under an append. -/
theorem Slot.GrownBy.getElem?_bytes {x y : Slot} {v n a : Nat} (h : x.GrownBy y v n) (hx : x.CursorOk)
    (ha : 8 * a + 8 ≤ x.bitLen) : y.bytes[a]? = x.bytes[a]? := by
  have hlen := h.bitLen
  rw [Slot.getElem?_bytes (by rw [y.len_eq h.cursor]; omega), Slot.getElem?_bytes (by rw [x.len_eq hx]; omega),
    Slot.getD_bytes_congr fun j hj => h.old _ (.inl (by omega))]

/-! ### The commands with operands in range -/

section Append
variable {s : State} {bd : SlotNo} {n : CountField} (hbd : bd.toNat < s.nbuf) (h1 : 1 ≤ n.toNat) (h8 : n.toNat ≤ 8)
include hbd h1 h8

theorem exec_append_of_done {imm : Byte} {x : Slot} (h : (s.slot bd).appendBits s.cap imm.toNat n.toNat = .done x) :
    exec (.append bd n imm) s = (s.setSlot bd x).done := by
  have hexec : exec (.append bd n imm) s = execAppend bd n imm s := rfl
  rw [hexec, execAppend, checked_of ((appendOperands_iff s bd n).mpr ⟨hbd, h1, h8⟩)]
  simp only [h]

theorem exec_append_of_full {imm : Byte} {x : Slot} (h : (s.slot bd).appendBits s.cap imm.toNat n.toNat = .full x) :
    exec (.append bd n imm) s = s.fail (capacityExceeded bd) := by
  have hexec : exec (.append bd n imm) s = execAppend bd n imm s := rfl
  rw [hexec, execAppend, checked_of ((appendOperands_iff s bd n).mpr ⟨hbd, h1, h8⟩)]
  simp only [h]

end Append

section InRange
variable {s : State} {bd : SlotNo} (hbd : bd.toNat < s.nbuf)
include hbd

theorem hasSlot_of_lt : s.hasSlot bd = true := (hasSlot_iff s bd).mpr hbd

theorem exec_readbits_of_ok {n : CountField} (hn : n.toNat ≤ 8) (h : s.argNat + n.toNat ≤ (s.slot bd).bitLen) :
    exec (.readbits bd n) s = ({ s with res := BitVec.ofNat 32 ((s.slot bd).fieldAt s.argNat n.toNat) } : State).done := by
  have hexec : exec (.readbits bd n) s = execReadbits bd n s := rfl
  rw [hexec, execReadbits, checked_of ((readOperands_iff s bd n).mpr ⟨hbd, hn⟩), Slot.readBits_eq, if_pos h]

theorem exec_readbits_of_error {n : CountField} (hn : n.toNat ≤ 8) (h : (s.slot bd).bitLen < s.argNat + n.toNat) :
    exec (.readbits bd n) s = s.fail (outOfRange s.argNat) := by
  have hexec : exec (.readbits bd n) s = execReadbits bd n s := rfl
  rw [hexec, execReadbits, checked_of ((readOperands_iff s bd n).mpr ⟨hbd, hn⟩), Slot.readBits_eq, if_neg (by omega)]

theorem exec_rdbyte_of_some {v : Byte} (h : s.readByte bd s.argNat = some v) :
    exec (.rdbyte bd) s = ({ s with res := v.setWidth 32 } : State).done := by
  have hexec : exec (.rdbyte bd) s = execRdbyte bd s := rfl
  rw [hexec, execRdbyte, checked_of (hasSlot_of_lt hbd), ← State.readByte, h]

theorem exec_rdbyte_of_none (h : (s.slot bd).bytes.length ≤ s.argNat) :
    exec (.rdbyte bd) s = s.fail (outOfRange s.argNat) := by
  have hexec : exec (.rdbyte bd) s = execRdbyte bd s := rfl
  rw [hexec, execRdbyte, checked_of (hasSlot_of_lt hbd), (memRead_eq_none _ _).mpr h]

theorem exec_wrbyte_of_lt (imm : Byte) (h : s.argNat < (s.slot bd).bytes.length) :
    exec (.wrbyte bd imm) s =
      (s.setSlot bd { s.slot bd with bytes := memWrite (s.slot bd).bytes s.argNat imm }).done := by
  have hlen : ¬ s.argNat ≥ (s.slot bd).len := Nat.not_le.mpr h
  have hexec : exec (.wrbyte bd imm) s = execWrbyte bd imm s := rfl
  rw [hexec, execWrbyte, checked_of (hasSlot_of_lt hbd), if_neg hlen]

theorem exec_wrbyte_of_le (imm : Byte) (h : (s.slot bd).bytes.length ≤ s.argNat) :
    exec (.wrbyte bd imm) s = s.fail (outOfRange s.argNat) := by
  have hexec : exec (.wrbyte bd imm) s = execWrbyte bd imm s := rfl
  rw [hexec, execWrbyte, checked_of (hasSlot_of_lt hbd)]
  exact if_pos h

theorem exec_clear : exec (.clear bd) s = (s.setSlot bd (s.slot bd).cleared).done :=
  checked_of (hasSlot_of_lt hbd) _ _ _

theorem exec_copy {ba : SlotNo} (hba : ba.toNat < s.nbuf) (hne : bd ≠ ba) : exec (.copy bd ba) s =
    (s.setSlot bd { s.slot bd with bytes := (s.slot ba).bytes, nfb := (s.slot ba).nfb, dirty := true }).done :=
  checked_of ((copyOperands_iff s bd ba).mpr ⟨hbd, hba, hne⟩) _ _ _

theorem exec_load_of_le (h : s.argNat ≤ s.cap) : exec (.load bd) s =
    ((s.setSlot bd { s.slot bd with bytes := s.dinBytes s.argNat, nfb := 0, dirty := true }).dropDin s.argNat).done := by
  have hexec : exec (.load bd) s = execLoad bd s := rfl
  rw [hexec, execLoad, checked_of (hasSlot_of_lt hbd), if_neg (by omega)]

theorem exec_load_of_lt (h : s.cap < s.argNat) : exec (.load bd) s = s.fail (capacityExceeded bd) := by
  have hexec : exec (.load bd) s = execLoad bd s := rfl
  rw [hexec, execLoad, checked_of (hasSlot_of_lt hbd), if_pos h]

theorem exec_save : exec (.save bd) s = (s.emit (s.slot bd).bytes).done := checked_of (hasSlot_of_lt hbd) _ _ _

theorem exec_stat : exec (.stat bd) s =
    ({ s with res := BitVec.ofNat 32 (s.slot bd).len, res2 := (s.slot bd).flagWord } : State).done :=
  checked_of (hasSlot_of_lt hbd) _ _ _

end InRange

/-! ### The word of `STAT` (R133) -/

theorem Slot.flagWord_getLsbD (x : Slot) {j : Nat} (hj : j < 32) :
    x.flagWord.getLsbD j = if j < 3 then x.nfb.getLsbD j else (BitVec.ofBool x.dirty).getLsbD (j - 3) := by
  have happend : (BitVec.ofBool x.dirty ++ x.nfb).getLsbD j = _ := BitVec.getLsbD_append
  rw [Slot.flagWord, BitVec.getLsbD_setWidth, decide_eq_true hj, Bool.true_and, happend]

theorem Slot.flagWord_nfb (x : Slot) : x.flagWord.extractLsb' 0 3 = x.nfb := by
  refine BitVec.eq_of_getLsbD_eq fun j hj => ?_
  rw [BitVec.getLsbD_extractLsb', decide_eq_true hj, Bool.true_and, Nat.zero_add, x.flagWord_getLsbD (by omega), if_pos hj]

theorem Slot.flagWord_dirty (x : Slot) : x.flagWord.getLsbD 3 = x.dirty := by
  rw [x.flagWord_getLsbD (by omega), if_neg (by omega)]
  simp

theorem Slot.flagWord_lt (x : Slot) : x.flagWord.toNat < 16 := by
  rw [Slot.flagWord, BitVec.toNat_setWidth]
  exact (Nat.mod_le _ _).trans_lt (BitVec.isLt (BitVec.ofBool x.dirty ++ x.nfb))

end Sys2Proof.Machine

namespace Sys2Proof
open Machine

/-- Settles O22. -/
theorem outOfRangeAccessFails : Obligations.OutOfRangeAccessFails := fun s _ hb =>
  ⟨fun _ hn h => (exec_readbits_of_error hb hn h).trans s.fail_outOfRange_arg,
    fun h => ⟨(exec_rdbyte_of_none hb h).trans s.fail_outOfRange_arg,
      fun v => (exec_wrbyte_of_le hb v h).trans s.fail_outOfRange_arg⟩⟩

/-- Settles O23: the append is full where the grown data need more bytes than `CAP`. -/
theorem capacityStopsAppendAndLoad : Obligations.CapacityStopsAppendAndLoad := by
  refine fun s b hb => ⟨fun n v h1 h8 hcur hcap => ?_, fun h => exec_load_of_lt hb h⟩
  obtain ⟨_, hfull⟩ | ⟨hfits, _⟩ := (s.slot b).appendBits_spec s.cap v.toNat n.toNat hcur h1 h8
  · exact exec_append_of_full hb h1 h8 hfull
  · omega

/-- Settles O27. -/
theorem appendPlacesField : Obligations.AppendPlacesField := by
  intro s bd n imm hbd h1 h8 hcur hcap
  obtain ⟨hfull, _⟩ | ⟨_, y, hdone, hg, hd⟩ := (s.slot bd).appendBits_spec s.cap imm.toNat n.toNat hcur h1 h8
  · omega
  have hslot : (s.setSlot bd y).succeed.slot bd = y := s.slot_setSlot_same bd y hbd
  refine ⟨_, exec_append_of_done hbd h1 h8 hdone, ?_, otherSlotsKept_of_set rfl, ?_⟩
  · rw [hslot]; rfl
  · rw [hslot]
    refine ⟨hd, hg.freq, hg.total, hg.bitLen, hg.bitLen ▸ y.len_eq hg.cursor, hg.cursor, hg.fieldAt_new, hg.old,
      fun a ha => ?_⟩
    rw [State.readByte, hslot]
    exact hg.getElem?_bytes hcur ha

/-- Settles O28: both ways grow the slot by the same field, and what an append leaves is determined by the field. -/
theorem appendIsTwoCalls : Obligations.AppendIsTwoCalls := by
  intro cap v n x y h1 h8 hnfb hroom hcur hdone
  have hlt := x.nfb.isLt
  have hmod := x.nfb_eq hcur
  obtain ⟨_, hfull⟩ | ⟨hfits, y', hdone', hy, hyd⟩ := x.appendBits_spec cap v n hcur h1 h8
  · rw [hdone] at hfull; cases hfull
  obtain rfl : y = y' := Appended.done.inj (hdone.symm.trans hdone')
  obtain ⟨hfull, _⟩ | ⟨_, z, hz, hxz, _⟩ := x.appendBits_spec cap (v % 2 ^ n / 2 ^ (n - (8 - x.nfb.toNat)))
    (8 - x.nfb.toNat) hcur (by omega) (by omega)
  · omega
  have hzlen := hxz.bitLen
  have hz0 : z.nfb = 0 := BitVec.eq_of_toNat_eq (by rw [z.nfb_eq hxz.cursor, hzlen]; change _ = 0; omega)
  refine ⟨z, hz, hz0, ?_⟩
  obtain ⟨hfull, _⟩ | ⟨_, w, hw, hzw, hwd⟩ := z.appendBits_spec cap v (n - (8 - x.nfb.toNat)) hxz.cursor (by omega) (by omega)
  · omega
  have hboth := hxz.trans hzw fun j hj => by
    rw [Nat.testBit_div_two_pow, Nat.testBit_mod_two_pow,
      show 8 - x.nfb.toNat - 1 - j + (n - (8 - x.nfb.toNat)) = 8 - x.nfb.toNat + (n - (8 - x.nfb.toNat)) - 1 - j by omega,
      decide_eq_true (by omega), Bool.true_and]
  rw [show 8 - x.nfb.toNat + (n - (8 - x.nfb.toNat)) = n by omega] at hboth
  rw [hw, hy.unique hboth (hyd.trans hwd.symm)]

/-- Settles O30. -/
theorem readbitsReturnsField : Obligations.ReadbitsReturnsField := by
  intro s bd n hbd hn harg
  have hlt := (s.slot bd).fieldAt_lt s.argNat n.toNat
  have h32 : (s.slot bd).fieldAt s.argNat n.toNat < 2 ^ 32 := hlt.trans_le (Nat.pow_le_pow_right (by omega) (by omega))
  refine ⟨_, exec_readbits_of_ok hbd hn harg, rfl, slotsKept_of_slots rfl, ?_, fun j hj => ?_⟩
  · rwa [State.succeed_res, BitVec.toNat_ofNat, Nat.mod_eq_of_lt h32]
  · rw [State.succeed_res, BitVec.getLsbD, BitVec.toNat_ofNat, Nat.mod_eq_of_lt h32]
    exact (s.slot bd).fieldAt_testBit s.argNat n.toNat j hj

/-- Settles O31. -/
theorem rdbyteReturnsByte : Obligations.RdbyteReturnsByte := fun _ _ _ hbd h =>
  ⟨_, exec_rdbyte_of_some hbd h, rfl, slotsKept_of_slots rfl⟩

/-- Settles O32. -/
theorem wrbyteReplacesOneByte : Obligations.WrbyteReplacesOneByte := by
  intro s bd imm hbd h
  have hslot := s.slot_setSlot_same bd { s.slot bd with bytes := memWrite (s.slot bd).bytes s.argNat imm } hbd
  refine ⟨_, exec_wrbyte_of_lt hbd imm h, ?_, ?_, ?_, fun a ha => ?_, otherSlotsKept_of_set rfl⟩
  · rw [State.succeed_slot, hslot]; rfl
  · rw [State.succeed_slot, hslot]; exact memWrite_length _ _ _
  · rw [State.succeed_readByte, State.readByte, hslot]; exact memRead_memWrite_same _ _ _ h
  · rw [State.succeed_readByte, State.readByte, hslot]; exact memRead_memWrite_other _ _ _ _ ha

/-- Settles O33. -/
theorem clearEmptiesSlot : Obligations.ClearEmptiesSlot := fun s bd hbd =>
  ⟨_, exec_clear hbd, rfl, fun a => s.readByte_setSlot_same bd _ a hbd, otherSlotsKept_of_set rfl⟩

/-- Settles O34. -/
theorem copyDuplicatesContent : Obligations.CopyDuplicatesContent := by
  intro s bd ba hbd hba hne
  refine ⟨_, exec_copy hbd hba hne, rfl, fun a => s.readByte_setSlot_same bd _ a hbd, ?_, otherSlotsKept_of_set rfl⟩
  rw [State.succeed_slot, s.slot_setSlot_same bd _ hbd]; rfl

/-- As far as the host supplied them, the bytes a load takes are the next ones on `DIN` (R131). -/
theorem dinBytes_eq_take {s : State} {c : Nat} (h : c ≤ s.din.length) : s.dinBytes c = s.din.take c := by
  refine List.ext_getElem? fun k => ?_
  by_cases hk : k < c
  · rw [s.dinBytes_getElem? c k hk (by omega), List.getElem?_take_of_lt hk]
  · rw [List.getElem?_eq_none (by simp; omega), List.getElem?_eq_none (by simp; omega)]

/-- Settles O35. -/
theorem loadTakesDin : Obligations.LoadTakesDin := by
  intro s bd hbd h
  have hslot := s.slot_setSlot_same bd { s.slot bd with bytes := s.dinBytes s.argNat, nfb := 0, dirty := true } hbd
  refine ⟨_, exec_load_of_le hbd h, ?_, ?_, fun a ha hd => ?_, fun hd => ?_, otherSlotsKept_of_set rfl⟩
  · rw [State.succeed_slot, State.dropDin_slot, hslot]; rfl
  · rw [State.succeed_slot, State.dropDin_slot, hslot]; exact s.dinBytes_length _
  · rw [State.readByte, State.succeed_slot, State.dropDin_slot, hslot]; exact s.dinBytes_getElem? _ a ha hd
  · rw [State.succeed_slot, State.dropDin_slot, hslot]; exact dinBytes_eq_take hd

/-- Settles O36. -/
theorem saveSendsBytes : Obligations.SaveSendsBytes := fun _ _ hbd =>
  ⟨_, exec_save hbd, rfl, slotsKept_of_slots rfl⟩

/-- Settles O37. -/
theorem statReports : Obligations.StatReports := fun s bd hbd =>
  ⟨_, exec_stat hbd, rfl, slotsKept_of_slots rfl, BitVec.toNat_ofNat _ _, (s.slot bd).flagWord_nfb,
    (s.slot bd).flagWord_dirty, (s.slot bd).flagWord_lt⟩

end Sys2Proof
end

section
/-!
PROOFS. The statistics commands (spec/41_statistics.md R150 to R157): what each does where its operands are in range and the
statistics fresh, and the bounds of the two entropies as real numbers.
-/

namespace Sys2Proof.Machine

/-! ### The commands behind their tests -/

section Fresh
variable {s : State} {bd : SlotNo} (hbd : bd.toNat < s.nbuf)
include hbd

theorem exec_markdirty {n : CountField} (hn : n.toNat ≤ 1) : exec (.markdirty bd n) s =
    (s.setSlot bd (if n = 1 then (s.slot bd).markDirty.refresh else (s.slot bd).markDirty)).done :=
  checked_of ((markOperands_iff s bd n).mpr ⟨hbd, hn⟩) _ _ _

variable (hd : (s.slot bd).dirty = false)
include hd

theorem exec_freq (v : Byte) : exec (.freq bd v) s =
    ({ s with res := BitVec.ofNat 32 ((s.slot bd).freqOf v) } : State).done :=
  (checked_of (hasSlot_of_lt hbd) _ _ _).trans (ifFresh_of_fresh s bd _ hd)

variable (h0 : (s.slot bd).total ≠ 0)
include h0

theorem exec_prob (v : Byte) : exec (.prob bd v) s =
    ({ s with res := BitVec.ofNat 32 ((s.slot bd).freqOf v), res2 := (s.slot bd).total } : State).done := by
  have hexec : exec (.prob bd v) s = execProb bd v s := rfl
  rw [hexec, execProb, checked_of (hasSlot_of_lt hbd), ifFresh_of_fresh s bd _ hd, bne_iff_ne.mpr h0, ifDefined_true]

theorem exec_info {v : Byte} (hv : (s.slot bd).freqOf v ≠ 0) : exec (.info bd v) s =
    ({ s with resf := informationContent ((s.slot bd).freqOf v) (s.slot bd).total.toNat } : State).done := by
  have hexec : exec (.info bd v) s = execInfo bd v s := rfl
  rw [hexec, execInfo, checked_of (hasSlot_of_lt hbd), ifFresh_of_fresh s bd _ hd, bne_iff_ne.mpr h0, bne_iff_ne.mpr hv,
    Bool.and_self, ifDefined_true]

theorem exec_byteent : exec (.byteent bd) s = ({ s with resf := byteEntropy (s.slot bd) } : State).done := by
  have hexec : exec (.byteent bd) s = execByteent bd s := rfl
  rw [hexec, execByteent, checked_of (hasSlot_of_lt hbd), ifFresh_of_fresh s bd _ hd, bne_iff_ne.mpr h0, ifDefined_true]

theorem exec_bitent : exec (.bitent bd) s =
    ({ s with resf := binaryEntropy (s.slot bd).ones (8 * (s.slot bd).total.toNat) } : State).done := by
  have hexec : exec (.bitent bd) s = execBitent bd s := rfl
  rw [hexec, execBitent, checked_of (hasSlot_of_lt hbd), ifFresh_of_fresh s bd _ hd, bne_iff_ne.mpr h0, ifDefined_true]

end Fresh

/-- A counter is its own 32 bits. -/
theorem Slot.ofNat_freqOf (x : Slot) (v : Byte) : BitVec.ofNat 32 (x.freqOf v) = x.freq.getD v.toNat 0 := by
  rw [Slot.freqOf, BitVec.ofNat_toNat, BitVec.setWidth_eq]

theorem toNat_pos_of_ne_zero {w : Word} (h : w ≠ 0) : 0 < w.toNat :=
  Nat.pos_of_ne_zero fun h0 => h (BitVec.eq_of_toNat_eq h0)

/-! ### The information content (R155) -/

/-- `log2 total - log2 freq` is minus the logarithm of the quotient. -/
theorem realOf_informationContent {f n : Nat} (hf : f ≠ 0) (hn : n ≠ 0) :
    realOf (informationContent f n) = -Real.logb 2 ((f : ℝ) / (n : ℝ)) := by
  rw [Real.logb_div (Nat.cast_ne_zero.mpr hf) (Nat.cast_ne_zero.mpr hn)]
  simp [realOf, informationContent, termReal]
  ring

/-- A quotient of at most 1 has a logarithm of at most 0. -/
theorem logb_two_div_nonpos {f n : Nat} (h : f ≤ n) : Real.logb 2 ((f : ℝ) / (n : ℝ)) ≤ 0 :=
  Real.logb_nonpos one_lt_two (by positivity) (div_le_one_of_le₀ (Nat.cast_le.mpr h) (by positivity))

/-! ### The byte entropy (R156) -/

/-- The probability of a byte value (R154). -/
noncomputable def Slot.probability (x : Slot) (v : Byte) : ℝ := (x.freqOf v : ℝ) / (x.total.toNat : ℝ)

/-- The byte values that were counted. -/
def Slot.countedBytes (x : Slot) : List Byte := allBytes.filter fun v => decide (0 < x.freqOf v)

theorem termReal_entropyTerm (num den : Nat) : termReal (entropyTerm num den) =
    -((num : ℝ) / (den : ℝ) * Real.logb 2 ((num : ℝ) / (den : ℝ))) := by
  simp only [termReal, entropyTerm]
  push_cast
  ring

theorem realOf_byteEntropy (x : Slot) : realOf (byteEntropy x) =
    (x.countedBytes.map fun v => -(x.probability v * Real.logb 2 (x.probability v))).sum := by
  rw [realOf, byteEntropy, List.map_map]
  exact congrArg List.sum (List.map_congr_left fun v _ => termReal_entropyTerm _ _)

section Probability
variable {x : Slot} (h0 : x.total ≠ 0)
include h0

theorem Slot.probability_pos {v : Byte} (hv : v ∈ x.countedBytes) : 0 < x.probability v := by
  have hf : 0 < x.freqOf v := of_decide_eq_true (List.mem_filter.mp hv).2
  have hn := toNat_pos_of_ne_zero h0
  exact div_pos (Nat.cast_pos.mpr hf) (Nat.cast_pos.mpr hn)

variable (hsum : x.freqSum = x.total.toNat)
include hsum

/-- Byte values that were not counted add nothing to the sum of the probabilities, which is 1 (R158). -/
theorem Slot.sum_probability : (x.countedBytes.map x.probability).sum = 1 := by
  have hall : (allBytes.map fun v => if 0 < x.freqOf v then x.probability v else 0).sum =
      (allBytes.map x.probability).sum := by
    refine congrArg List.sum (List.map_congr_left fun v _ => ?_)
    split
    · rfl
    · next hv => rw [Slot.probability, Nat.eq_zero_of_not_pos hv, Nat.cast_zero, zero_div]
  have hcast : (allBytes.map x.probability).sum = (x.freqSum : ℝ) / (x.total.toNat : ℝ) := by
    rw [Slot.freqSum, Nat.cast_list_sum, List.map_map, div_eq_mul_inv, ← List.sum_map_mul_right]
    rfl
  have hn : (x.total.toNat : ℝ) ≠ 0 := Nat.cast_ne_zero.mpr (toNat_pos_of_ne_zero h0).ne'
  rw [List.sum_map_ite, List.map_const', List.sum_replicate, smul_zero, add_zero] at hall
  rw [Slot.countedBytes, hall, hcast, hsum, div_self hn]

end Probability

/-- A term of the entropy lies below the tangent of `-p log2 p` at `p = 1/256`. -/
theorem entropy_le_tangent {p : ℝ} (hp : 0 < p) :
    -(p * Real.logb 2 p) ≤ 8 * p + (1 / 256 - p) / Real.log 2 := by
  have hlog2 : 0 < Real.log 2 := Real.log_pos one_lt_two
  have htangent : Real.log (1 / (256 * p)) ≤ 1 / (256 * p) - 1 := Real.log_le_sub_one_of_pos (by positivity)
  have hsplit : Real.log (1 / (256 * p)) = -(8 * Real.log 2) - Real.log p := by
    rw [one_div, Real.log_inv, Real.log_mul (by norm_num) hp.ne', show (256 : ℝ) = 2 ^ 8 by norm_num, Real.log_pow]
    push_cast
    ring
  have hmul : p * (1 / (256 * p) - 1) = 1 / 256 - p := by field_simp
  have hscaled := mul_le_mul_of_nonneg_left htangent hp.le
  rw [hsplit, hmul] at hscaled
  rw [Real.logb, ← sub_le_iff_le_add', le_div_iff₀ hlog2]
  have hclear : (-(p * (Real.log p / Real.log 2)) - 8 * p) * Real.log 2 = p * (-(8 * Real.log 2) - Real.log p) := by
    field_simp
    ring
  rw [hclear]
  exact hscaled

/-- The tangents of a list of values add up to the tangent of their sum. -/
theorem sum_tangent (p : Byte → ℝ) (c : ℝ) (l : List Byte) :
    (l.map fun v => 8 * p v + (1 / 256 - p v) / c).sum = 8 * (l.map p).sum + (l.length / 256 - (l.map p).sum) / c := by
  induction l with
  | nil => simp
  | cons v l ih =>
    rw [List.map_cons, List.sum_cons, ih, List.map_cons, List.sum_cons, List.length_cons]
    push_cast
    ring

/-- The byte entropy lies between 0 and 8 where the counters add up (R156). -/
theorem realOf_byteEntropy_bounds {x : Slot} (h0 : x.total ≠ 0) (hsum : x.freqSum = x.total.toNat) :
    0 ≤ realOf (byteEntropy x) ∧ realOf (byteEntropy x) ≤ 8 := by
  rw [realOf_byteEntropy]
  constructor
  · refine List.sum_nonneg fun y hy => ?_
    obtain ⟨v, hv, rfl⟩ := List.mem_map.mp hy
    have hle : x.freqOf v ≤ x.total.toNat := hsum ▸ x.freqOf_le_freqSum v
    exact neg_nonneg.mpr (mul_nonpos_of_nonneg_of_nonpos (x.probability_pos h0 hv).le (logb_two_div_nonpos hle))
  · have hlength : (x.countedBytes.length : ℝ) ≤ 256 := by
      exact_mod_cast (List.length_filter_le _ _).trans allBytes_length.le
    have hlog2 : 0 < Real.log 2 := Real.log_pos one_lt_two
    calc (x.countedBytes.map fun v => -(x.probability v * Real.logb 2 (x.probability v))).sum
        ≤ (x.countedBytes.map fun v => 8 * x.probability v + (1 / 256 - x.probability v) / Real.log 2).sum :=
          List.sum_le_sum fun v hv => entropy_le_tangent (x.probability_pos h0 hv)
      _ = 8 + (x.countedBytes.length / 256 - 1) / Real.log 2 := by
          rw [sum_tangent, Slot.sum_probability h0 hsum, mul_one]
      _ ≤ 8 := by
          have : (x.countedBytes.length / 256 - 1) / Real.log 2 ≤ 0 :=
            div_nonpos_of_nonpos_of_nonneg (by linarith) hlog2.le
          linarith

/-! ### The binary entropy (R157) -/

/-- The share of set bits, off the two ends, gives the binary entropy in bits. -/
theorem realOf_binaryEntropy {ones bits : Nat} (h0 : ones ≠ 0) (h1 : ones ≠ bits) (hle : ones ≤ bits) :
    realOf (binaryEntropy ones bits) = -((ones : ℝ) / bits * Real.logb 2 ((ones : ℝ) / bits)) -
      (1 - (ones : ℝ) / bits) * Real.logb 2 (1 - (ones : ℝ) / bits) := by
  have hbits : (bits : ℝ) ≠ 0 := Nat.cast_ne_zero.mpr (by omega)
  have hrest : ((bits - ones : Nat) : ℝ) / bits = 1 - (ones : ℝ) / bits := by
    rw [Nat.cast_sub hle, sub_div, div_self hbits]
  rw [binaryEntropy, if_neg (by omega), realOf]
  simp only [List.map_cons, List.map_nil, List.sum_cons, List.sum_nil, termReal_entropyTerm, hrest]
  ring

theorem realOf_binaryEntropy_ends {ones bits : Nat} (h : ones = 0 ∨ ones = bits) : realOf (binaryEntropy ones bits) = 0 := by
  rw [binaryEntropy, if_pos h]
  rfl

/-- The binary entropy in bits lies between 0 and 1. -/
theorem binaryEntropy_bounds {q : ℝ} (h0 : 0 ≤ q) (h1 : q ≤ 1) :
    0 ≤ -(q * Real.logb 2 q) - (1 - q) * Real.logb 2 (1 - q) ∧
      -(q * Real.logb 2 q) - (1 - q) * Real.logb 2 (1 - q) ≤ 1 := by
  have hlog2 : 0 < Real.log 2 := Real.log_pos one_lt_two
  have hbin : -(q * Real.logb 2 q) - (1 - q) * Real.logb 2 (1 - q) = Real.binEntropy q / Real.log 2 := by
    rw [Real.binEntropy_eq_negMulLog_add_negMulLog_one_sub, Real.negMulLog, Real.negMulLog, Real.logb, Real.logb]
    ring
  rw [hbin, div_le_one hlog2]
  exact ⟨div_nonneg (Real.binEntropy_nonneg h0 h1) hlog2.le, Real.binEntropy_le_log_two⟩

/-- What R157 says of the share `q` of set bits: 0 at both ends, the formula between them, and the bounds. -/
theorem realOf_binaryEntropy_share {ones bits : Nat} (hbits : 0 < bits) (hle : ones ≤ bits) {q : ℝ}
    (hq : q = (ones : ℝ) / (bits : ℝ)) :
    (q = 0 ∨ q = 1 → realOf (binaryEntropy ones bits) = 0) ∧
    (q ≠ 0 → q ≠ 1 → realOf (binaryEntropy ones bits) = -(q * Real.logb 2 q) - (1 - q) * Real.logb 2 (1 - q)) ∧
    0 ≤ realOf (binaryEntropy ones bits) ∧ realOf (binaryEntropy ones bits) ≤ 1 := by
  have hne : (bits : ℝ) ≠ 0 := Nat.cast_ne_zero.mpr hbits.ne'
  have hends : q = 0 ∨ q = 1 ↔ ones = 0 ∨ ones = bits := by
    rw [hq, div_eq_zero_iff, div_eq_one_iff_eq hne, Nat.cast_eq_zero, Nat.cast_inj, or_iff_left hne]
  have h0 : 0 ≤ q := hq ▸ by positivity
  have h1 : q ≤ 1 := hq ▸ div_le_one_of_le₀ (Nat.cast_le.mpr hle) (by positivity)
  refine ⟨fun h => realOf_binaryEntropy_ends (hends.mp h), ?_⟩
  by_cases h : q = 0 ∨ q = 1
  · rw [realOf_binaryEntropy_ends (hends.mp h)]
    exact ⟨fun hq0 hq1 => absurd h (by simp [hq0, hq1]), le_rfl, zero_le_one⟩
  · obtain ⟨hones0, hones1⟩ := not_or.mp (mt hends.mpr h)
    rw [realOf_binaryEntropy hones0 hones1 hle, ← hq]
    exact ⟨fun _ _ => rfl, binaryEntropy_bounds h0 h1⟩

end Sys2Proof.Machine

namespace Sys2Proof
open Machine

/-- Settles O38. -/
theorem refreshCountsBytes : Obligations.RefreshCountsBytes := by
  intro s bd hbd hlen
  have hslot := s.slot_setSlot_same bd (s.slot bd).refresh hbd
  obtain ⟨hstats, _, hsum⟩ := (s.slot bd).refresh_describes hlen
  refine ⟨_, exec_refresh_eq_done s bd hbd, ?_, ?_, ?_, ?_, fun a => ?_, otherSlotsKept_of_set rfl⟩
  · rw [State.succeed_slot, hslot]; rfl
  · rw [State.succeed_slot, hslot]; exact countAll_length _
  · rw [State.succeed_slot, hslot]; exact hstats
  · rw [State.succeed_slot, hslot]; exact hsum
  · exact s.readByte_setSlot_same bd _ a hbd

/-- Settles O39. -/
theorem markdirtyForms : Obligations.MarkdirtyForms := fun s bd hbd =>
  ⟨⟨_, exec_markdirty hbd (by decide), rfl, fun a => s.readByte_setSlot_same bd _ a hbd, otherSlotsKept_of_set rfl⟩,
    ⟨_, exec_markdirty hbd (by decide), exec_refresh_eq_done s bd hbd⟩⟩

/-- Settles O41. -/
theorem freqReturnsCounter : Obligations.FreqReturnsCounter := by
  intro s bd v hbd hd
  rw [← Slot.ofNat_freqOf]
  exact ⟨_, exec_freq hbd hd v, rfl, slotsKept_of_slots rfl⟩

/-- Settles O42. -/
theorem probReturnsQuotient : Obligations.ProbReturnsQuotient := by
  intro s bd v hbd hd h0
  rw [← Slot.ofNat_freqOf]
  exact ⟨_, exec_prob hbd hd h0 v, rfl, slotsKept_of_slots rfl⟩

/-- Settles O43. -/
theorem infoIsMinusLog : Obligations.InfoIsMinusLog := by
  intro s bd v hbd hd h0 hv
  have hvalue := realOf_informationContent hv (toNat_pos_of_ne_zero h0).ne'
  refine ⟨_, exec_info hbd hd h0 hv, rfl, slotsKept_of_slots rfl, hvalue, fun hle => ?_⟩
  exact hvalue.symm ▸ neg_nonneg.mpr (logb_two_div_nonpos hle)

/-- Settles O44. -/
theorem byteEntropyValue : Obligations.ByteEntropyValue := by
  intro s bd hbd hd h0
  refine ⟨_, exec_byteent hbd hd h0, rfl, slotsKept_of_slots rfl, ?_, realOf_byteEntropy_bounds h0⟩
  rw [List.sum_neg, List.map_map]
  exact realOf_byteEntropy _

/-- Settles O45: `ones` is at most `8 · total`, so `q` is a share. -/
theorem bitEntropyValue : Obligations.BitEntropyValue := by
  intro s bd q hbd hd h0 hsum hq
  have hn := toNat_pos_of_ne_zero h0
  have hle : (s.slot bd).ones ≤ 8 * (s.slot bd).total.toNat := hsum ▸ (s.slot bd).ones_le
  have hshare : q = ((s.slot bd).ones : ℝ) / ((8 * (s.slot bd).total.toNat : Nat) : ℝ) := by
    rw [hq, Nat.cast_mul, Nat.cast_ofNat]; rfl
  have hexec := exec_bitent hbd hd h0
  have hvalue := realOf_binaryEntropy_share (by omega) hle hshare
  generalize binaryEntropy _ _ = r at hexec hvalue
  exact ⟨_, hexec, rfl, slotsKept_of_slots rfl, hvalue⟩

end Sys2Proof
end

section
/-!
PROOFS. Repeated accesses (spec/20_memory.md R57): a query is an answer that depends on the slots and on `ARG` only, which it
leaves as they are.
-/

namespace Sys2Proof.Machine

/-- What a query answers: a failure, or values for result registers. -/
inductive Answer where
  | failure (f : Failure)
  | res (r : Word)
  | res2 (r r2 : Word)
  | resf (r : ExactReal)

/-- The state after an answer. -/
def State.answer (s : State) : Answer → State
  | .failure f => s.raise f
  | .res r => State.succeed { s with res := r }
  | .res2 r r2 => State.succeed { s with res := r, res2 := r2 }
  | .resf r => State.succeed { s with resf := r }

theorem State.answer_slots (s : State) (a : Answer) : (s.answer a).slots = s.slots := by cases a <;> rfl

theorem State.answer_arg (s : State) (a : Answer) : (s.answer a).arg = s.arg := by cases a <;> rfl

/-- The same answer given twice is given once. -/
theorem State.answer_answer (s : State) (a : Answer) : (s.answer a).answer a = s.answer a := by cases a <;> rfl

/-- From every state with the slots and the `ARG` of `s`, the command ends in one answer. -/
def Answers (s : State) (r : State → Result) : Prop :=
  ∃ a, ∀ t, t.slots = s.slots → t.arg = s.arg → r t = .next (t.answer a)

/-- A command that answers so ends the second time as the first time. -/
theorem Answers.repeated {s t : State} {r : State → Result} (h : Answers s r) (ht : r s = .next t) : r t = .next t := by
  obtain ⟨a, ha⟩ := h
  obtain rfl : s.answer a = t := Host.Outcome.next.inj ((ha s rfl rfl).symm.trans ht)
  rw [ha _ (s.answer_slots a) (s.answer_arg a), s.answer_answer]

section Answers
variable {s : State} {b : SlotNo} {r : State → Result}

theorem answers_checked {ok : State → Bool} (i : Instr) (hok : ∀ t, t.nbuf = s.nbuf → ok t = ok s) (hr : Answers s r) :
    Answers s fun t => checked (ok t) i t (r t) := by
  have hsame {t : State} (hslots : t.slots = s.slots) : ok t = ok s := hok t (by rw [State.nbuf, hslots, State.nbuf])
  cases hs : ok s with
  | true =>
    obtain ⟨a, ha⟩ := hr
    exact ⟨a, fun t hslots harg => by beta_reduce; rw [hsame hslots, hs, checked_true, ha t hslots harg]⟩
  | false => exact ⟨.failure (badOperand i), fun t hslots _ => by beta_reduce; rw [hsame hslots, hs, checked_false]; rfl⟩

theorem answers_ifFresh (hr : Answers s r) : Answers s fun t => ifFresh b t (r t) := by
  have hsame {t : State} (hslots : t.slots = s.slots) : t.slot b = s.slot b := slot_of_slots s t hslots b
  cases hs : (s.slot b).dirty with
  | true =>
    exact ⟨.failure (staleStatistics b), fun t hslots _ => ifFresh_of_dirty t b _ (by rw [hsame hslots, hs])⟩
  | false =>
    obtain ⟨a, ha⟩ := hr
    exact ⟨a, fun t hslots harg =>
      (ifFresh_of_fresh t b _ (by rw [hsame hslots, hs])).trans (ha t hslots harg)⟩

theorem answers_ifDefined {d : Slot → Bool} (hr : Answers s r) : Answers s fun t => ifDefined (d (t.slot b)) b t (r t) := by
  have hsame {t : State} (hslots : t.slots = s.slots) : t.slot b = s.slot b := slot_of_slots s t hslots b
  cases hs : d (s.slot b) with
  | true =>
    obtain ⟨a, ha⟩ := hr
    exact ⟨a, fun t hslots harg => by beta_reduce; rw [hsame hslots, hs, ifDefined_true, ha t hslots harg]⟩
  | false => exact ⟨.failure (undefinedStatistic b), fun t hslots _ => by beta_reduce; rw [hsame hslots, hs]; rfl⟩

/-- An answer read off a slot and `ARG`. -/
theorem answers_of_slot (a : Slot → Nat → Answer) (h : ∀ t, r t = .next (t.answer (a (t.slot b) t.argNat))) :
    Answers s r :=
  ⟨a (s.slot b) s.argNat, fun t hslots harg => by
    rw [h t, slot_of_slots s t hslots b, State.argNat, harg, State.argNat]⟩

end Answers

/-- What `READBITS` answers (R126). -/
def Slot.bitsAnswer (n : Nat) (x : Slot) (f : Nat) : Answer :=
  match x.readBits f n with
  | .ok r => .res (BitVec.ofNat 32 r)
  | .error e => .failure e

/-- What `RDBYTE` answers (R127). -/
def Slot.byteAnswer (x : Slot) (a : Nat) : Answer :=
  match memRead x.bytes a with
  | some v => .res (v.setWidth 32)
  | none => .failure (outOfRange a)

/-- Every query is an answer (R57). -/
theorem exec_answers {i : Instr} (hi : i.isQuery = true) (s : State) : Answers s (exec i) := by
  have hslot (b : SlotNo) (t : State) (ht : t.nbuf = s.nbuf) : t.hasSlot b = s.hasSlot b := by
    rw [State.hasSlot, ht, State.hasSlot]
  cases i with
  | readbits bd n =>
    refine answers_checked _ (fun t ht => by simp [readOperands, hslot bd t ht]) (answers_of_slot (Slot.bitsAnswer n.toNat)
      (b := bd) fun t => ?_)
    rw [Slot.bitsAnswer]
    cases (t.slot bd).readBits t.argNat n.toNat <;> rfl
  | rdbyte bd =>
    refine answers_checked _ (hslot bd) (answers_of_slot Slot.byteAnswer (b := bd) fun t => ?_)
    rw [Slot.byteAnswer]
    cases memRead (t.slot bd).bytes t.argNat <;> rfl
  | stat bd =>
    exact answers_checked _ (hslot bd)
      (answers_of_slot (b := bd) (fun x _ => .res2 (BitVec.ofNat 32 x.len) x.flagWord) fun _ => rfl)
  | freq bd v =>
    exact answers_checked _ (hslot bd) (answers_ifFresh
      (answers_of_slot (b := bd) (fun x _ => .res (BitVec.ofNat 32 (x.freqOf v))) fun _ => rfl))
  | prob bd v =>
    exact answers_checked _ (hslot bd) (answers_ifFresh (answers_ifDefined (b := bd) (d := fun x => x.total != 0)
      (answers_of_slot (b := bd) (fun x _ => .res2 (BitVec.ofNat 32 (x.freqOf v)) x.total) fun _ => rfl)))
  | info bd v =>
    exact answers_checked _ (hslot bd) (answers_ifFresh (answers_ifDefined (b := bd)
      (d := fun x => x.total != 0 && x.freqOf v != 0)
      (answers_of_slot (b := bd) (fun x _ => .resf (informationContent (x.freqOf v) x.total.toNat)) fun _ => rfl)))
  | byteent bd =>
    exact answers_checked _ (hslot bd) (answers_ifFresh (answers_ifDefined (b := bd) (d := fun x => x.total != 0)
      (answers_of_slot (b := bd) (fun x _ => .resf (byteEntropy x)) fun _ => rfl)))
  | bitent bd =>
    exact answers_checked _ (hslot bd) (answers_ifFresh (answers_ifDefined (b := bd) (d := fun x => x.total != 0)
      (answers_of_slot (b := bd) (fun x _ => .resf (binaryEntropy x.ones (8 * x.total.toNat))) fun _ => rfl)))
  | append | wrbyte | clear | copy | load | save | refresh | markdirty | build | encode | decode => cases hi

/-- A slot written again as it was written stays as it is. -/
theorem State.done_setSlot_again (s : State) (b : SlotNo) (x : Slot) :
    ((s.setSlot b x).succeed.setSlot b x).done = .next (s.setSlot b x).succeed := by
  have hsame : ((s.setSlot b x).setSlot b x).succeed = (s.setSlot b x).succeed := by rw [s.setSlot_setSlot b x x]
  exact congrArg Host.Outcome.next hsame

/-- A byte written twice is written once (R57). -/
theorem exec_wrbyte_repeated {s t : State} {bd : SlotNo} {imm : Byte} (h : exec (.wrbyte bd imm) s = .next t) :
    exec (.wrbyte bd imm) t = .next t := by
  have hexec (u : State) : exec (.wrbyte bd imm) u = execWrbyte bd imm u := rfl
  by_cases hbd : bd.toNat < s.nbuf
  · by_cases harg : s.argNat < (s.slot bd).bytes.length
    · rw [exec_wrbyte_of_lt hbd imm harg] at h
      obtain rfl := Host.Outcome.next.inj h
      have hslot := s.slot_setSlot_same bd { s.slot bd with bytes := memWrite (s.slot bd).bytes s.argNat imm } hbd
      rw [exec_wrbyte_of_lt (by simpa using hbd) imm (by
        rw [State.succeed_slot, hslot]; exact harg.trans_eq (memWrite_length _ _ _).symm), State.succeed_slot, hslot]
      have htwice : memWrite (memWrite (s.slot bd).bytes s.argNat imm) s.argNat imm =
          memWrite (s.slot bd).bytes s.argNat imm := List.set_set ..
      change State.done (State.setSlot _ bd { s.slot bd with
        bytes := memWrite (memWrite (s.slot bd).bytes s.argNat imm) s.argNat imm }) = _
      rw [htwice]
      exact s.done_setSlot_again bd _
    · rw [exec_wrbyte_of_le hbd imm (Nat.le_of_not_lt harg)] at h
      obtain rfl := Host.Outcome.next.inj h
      exact exec_wrbyte_of_le (s := s.raise (outOfRange s.argNat)) hbd imm (Nat.le_of_not_lt harg)
  · have hok : s.hasSlot bd = false := Bool.eq_false_iff.mpr (mt (hasSlot_iff s bd).mp hbd)
    rw [hexec, execWrbyte, hok, checked_false] at h
    obtain rfl := Host.Outcome.next.inj h
    have hok' : (s.raise (badOperand (.wrbyte bd imm))).hasSlot bd = false := hok
    rw [hexec, execWrbyte, hok', checked_false]
    rfl

end Sys2Proof.Machine

namespace Sys2Proof
open Machine

/-- Settles O26. -/
theorem repeatedAccessIsIdempotent : Obligations.RepeatedAccessIsIdempotent := by
  rintro i s t (hquery | ⟨b, v, rfl⟩) ht
  · exact (exec_answers hquery s).repeated ht
  · exact exec_wrbyte_repeated ht

end Sys2Proof
end

section
/-!
PROOFS. The command port and the other registers (spec/10_state.md R31 to R38, spec/60_exceptions.md R249): one step for each
host action.
-/

namespace Sys2Proof
open Machine

theorem step_of_host {s : State} {a : HostAction} {rest : List HostAction} (h : s.host = a :: rest) :
    step s = performAction a { s with host := rest } := by
  rw [step, takeAction, h]

theorem step_of_command {s : State} {w : Word} {rest : List HostAction} (h : s.host = .write .cmd w :: rest) :
    step s = runCommand w { s with host := rest } :=
  step_of_host h

theorem runCommand_of_ok {w : Word} {i : Instr} (h : decode w = .ok i) (s : State) : runCommand w s = exec i s := by
  rw [runCommand, h]

theorem runCommand_of_error {w : Word} {e : DecodeError} (h : decode w = .error e) (s : State) :
    runCommand w s = s.fail (illegalCommand w) := by
  rw [runCommand, h]

/-- Settles O5. -/
theorem stepRunsDecodedCommand : Obligations.StepRunsDecodedCommand := by
  intro s w i hw
  refine ⟨fun rest h => (step_of_command h).trans (runCommand_of_ok hw _), ?_⟩
  have hword : BitVec.ofNat 32 (w.toNat % 2 ^ 32) = w := by
    rw [Nat.mod_eq_of_lt w.isLt, BitVec.ofNat_toNat, BitVec.setWidth_eq]
  rw [State.withFetchWord, hword]
  exact (step_of_command rfl).trans (runCommand_of_ok hw s)

/-- Settles O6: a word of no row does not decode; a command that was decoded never ends with code 8. -/
theorem illegalWordFails : Obligations.IllegalWordFails := by
  intro s w rest hhost
  rw [step_of_command hhost]
  refine ⟨fun hill => ?_, fun hlegal t ht hstatus => ?_⟩
  · obtain ⟨e, he⟩ := illegalWord_iff.mp hill
    exact runCommand_of_error he _
  · cases hw : decode w with
    | error e => exact hlegal (illegalWord_iff.mpr ⟨e, hw⟩)
    | ok i =>
      have hcode := outcomeCodes i _ t ((runCommand_of_ok hw _).symm.trans ht)
      rw [hstatus] at hcode
      have hno : ∀ j : Instr, 8 ∉ j.outcomes := fun j => by cases j <;> simp [Instr.outcomes]
      exact hno i hcode

/-- Settles O7: the host's next action is the write or the read. -/
theorem registerPort : Obligations.RegisterPort := by
  intro s v rest
  refine ⟨step_of_host, step_of_host, step_of_host, ?_, ?_⟩
  · simp only [List.forall_mem_cons]
    exact ⟨step_of_host, step_of_host, step_of_host, step_of_host, step_of_host, List.forall_mem_nil _⟩
  · simp only [List.forall_mem_cons]
    exact ⟨step_of_host, step_of_host, step_of_host, step_of_host, step_of_host, step_of_host, step_of_host, step_of_host,
      step_of_host, List.forall_mem_nil _⟩

/-- Settles O8. -/
theorem hostSideSteps : Obligations.HostSideSteps := by
  intro s bytes rest
  refine ⟨fun h => by rw [step, takeAction, h], step_of_host, fun h => ⟨_, step_of_host h, ?_⟩⟩
  refine ⟨State.nbuf_resetFor _, rfl, fun x hx => ?_, rfl, rfl, rfl, rfl, rfl, rfl, rfl, rfl, rfl, rfl, rfl⟩
  obtain rfl := State.eq_createdEmpty_of_mem_resetFor hx
  exact ⟨rfl, rfl, rfl⟩

end Sys2Proof
end

section
/-!
PROOFS. The builder (spec/42_codebook_builder.md R170 to R180): the walk, the bounds of every assignment, and the key that
`BUILD` writes, which parses back to the codebook of the assignment.
-/

namespace Sys2Proof.Machine

/-! ### The walk and the bounds (R172, R180) -/

theorem ordering_ne_nil {x : Slot} (h : 1 ≤ x.freqSum) : ordering x ≠ [] :=
  List.ne_nil_of_length_pos (one_le_ordering_length h)

/-- With a target fraction below 1 the whole ordering reaches the target, so the walk does. -/
theorem walk_reaches {x : Slot} {num den : Nat} (hfrac : num < den) (hsum : x.freqSum = x.total.toNat) :
    num * x.total.toNat ≤
      (((ordering x).take (walk num den x.total.toNat 0 (ordering x))).map (·.freq)).sum * den := by
  obtain ⟨_, _, _, hreach | hend⟩ := walk_spec num den x.total.toNat (ordering x) 0
  · rwa [Nat.zero_add] at hreach
  · rw [hend, List.take_length, ordering_sum, hsum, Nat.mul_comm num]
    exact Nat.mul_le_mul_left _ hfrac.le

/-- The logarithm is the least: half the power does not reach. -/
theorem two_pow_clog2_lt {r : Nat} (hr : 2 ≤ r) : 2 ^ clog2 r < 2 * r := by
  obtain ⟨hreach, hleast⟩ := clog2_spec r
  have hpos : clog2 r ≠ 0 := fun h0 => by rw [h0, pow_zero] at hreach; omega
  obtain ⟨c, hc⟩ := Nat.exists_eq_succ_of_ne_zero hpos
  by_contra hle
  rw [hc, pow_succ] at hle
  have := hleast c (by omega)
  omega

/-- `bitsLong` is no wider than its indices need (R176). -/
theorem two_pow_longWidth_lt {bs r : Nat} (hr : 2 ≤ r) : 2 ^ (longWidth bs r - bs) < 2 * r := by
  rw [longWidth, if_pos (by omega), Nat.add_sub_cancel_left]
  exact two_pow_clog2_lt hr

/-! ### The length of a key (R87) -/

theorem shortEntryFields_width (bs : Nat) (l : List Symbol) : ∀ i,
    ((shortEntryFields bs i l).map (·.2)).sum = l.length * (8 + bs) := by
  induction l with
  | nil => simp [shortEntryFields]
  | cons y l ih =>
    intro i
    simp only [shortEntryFields, List.map_cons, List.sum_cons, ih, List.length_cons]
    ring

theorem longEntryFields_width {bs bl : Nat} (h : bs ≤ bl) (l : List Symbol) : ∀ j,
    ((longEntryFields bs bl j l).map (·.2)).sum = l.length * (8 + bl) := by
  induction l with
  | nil => simp [longEntryFields]
  | cons y l ih =>
    intro j
    simp only [longEntryFields, List.map_cons, List.sum_cons, ih, List.length_cons, Nat.add_mul]
    omega

/-- The key of an assignment is as long as its counts and widths say, whatever the statistics (R87). -/
theorem assign_key_length (x : Slot) (num den : Nat) : (fieldsBits (assign x num den).keyFields).length =
    32 + (assign x num den).k * (8 + (assign x num den).bs) +
      ((assign x num den).m - (assign x num den).k) * (8 + (assign x num den).bl) := by
  have hlength : (assign x num den).ord.length = (assign x num den).m := rfl
  have hk : (assign x num den).k ≤ (assign x num den).m := (shortCount_spec _ _).1
  have hbl : (assign x num den).bl = longWidth (assign x num den).bs ((assign x num den).m - (assign x num den).k) := rfl
  generalize assign x num den = a at hlength hk hbl
  have hlong : ((longEntryFields a.bs a.bl 0 (a.ord.drop a.k)).map (·.2)).sum = (a.m - a.k) * (8 + a.bl) := by
    rcases Nat.eq_zero_or_pos (a.m - a.k) with h0 | hpos
    · rw [List.drop_eq_nil_of_le (by omega), h0, Nat.zero_mul]; rfl
    · have hwidth : a.bs ≤ a.bl := hbl ▸ ((longWidth_spec _ _).2 hpos).1
      rw [longEntryFields_width hwidth, List.length_drop, hlength]
  rw [fieldsBits_length, Assignment.keyFields, List.map_append, List.map_append, List.sum_append, List.sum_append, hlong,
    shortEntryFields_width, List.length_take, hlength, Nat.min_eq_left hk]
  rfl

/-! ### A slot cleared and filled -/

/-- `y` is slot `x` cleared and then filled with the given bits: dirty, zero pad bits, the statistics as they stood. -/
structure Slot.FilledWith (x y : Slot) (bits : List Bool) : Prop where
  dataBits : y.dataBits = bits
  cursor : y.CursorOk
  padZero : y.PadZero
  dirty : y.dirty = true
  freq : y.freq = x.freq
  total : y.total = x.total

theorem Slot.bitLen_cleared (x : Slot) : x.cleared.bitLen = 0 := Slot.bitLen_of_empty rfl rfl

theorem Slot.dataBits_cleared (x : Slot) : x.cleared.dataBits = [] :=
  List.eq_nil_of_length_eq_zero (by rw [Slot.dataBits_length, x.bitLen_cleared])

theorem Slot.cursorOk_cleared (x : Slot) : x.cleared.CursorOk := fun h => absurd rfl h

theorem Slot.ExtendedBy.filledWith {x y : Slot} {bits : List Bool} (h : x.cleared.ExtendedBy y bits) (hd : y.dirty = true) :
    x.FilledWith y bits :=
  ⟨by rw [h.dataBits, x.dataBits_cleared, List.nil_append], h.cursor, h.padZero (Slot.padZero_of_empty rfl), hd, h.freq,
    h.total⟩

theorem Slot.FilledWith.bitLen {x y : Slot} {bits : List Bool} (h : x.FilledWith y bits) : y.bitLen = bits.length := by
  rw [← y.dataBits_length, h.dataBits]

/-- Serialization into a cleared slot, everything it can do: all fields stand, or the bit appends before the first that does not
fit. -/
theorem serialize_cases (cap : Nat) (x : Slot) {a : Assignment} (hw : ∀ f ∈ a.keyFields, f.2 ≤ 16) :
    (∃ y, serialize cap x.cleared a = .done y ∧ x.FilledWith y (fieldsBits a.keyFields) ∧
      (fieldsBits a.keyFields).length ≤ 8 * cap) ∨
    ∃ y before v n after, serialize cap x.cleared a = .full y ∧ pieces a.keyFields = before ++ (v, n) :: after ∧
      x.FilledWith y (fieldsBits before) ∧ (fieldsBits before).length ≤ 8 * cap ∧
      8 * cap < (fieldsBits before).length + n := by
  obtain ⟨y, before, v, n, after, hfull, hsplit, hext, hd, hroom, hover⟩ | ⟨y, hdone, hext, hd, hroom⟩ :=
    x.cleared.appendFields_spec cap a.keyFields hw x.cursorOk_cleared (by rw [x.bitLen_cleared]; omega)
  · have hfill := hext.filledWith (hd rfl)
    rw [hfill.bitLen] at hroom hover
    exact .inr ⟨y, before, v, n, after, hfull, hsplit, hfill, hroom, hover⟩
  · have hfill := hext.filledWith (hd rfl)
    exact .inl ⟨y, hdone, hfill, hfill.bitLen ▸ hroom⟩

/-- Where serialization is full, the key has more bits than the slot. -/
theorem lt_key_length_of_pieces {a : Assignment} {before after : List (Nat × Nat)} {v n c : Nat}
    (hsplit : pieces a.keyFields = before ++ (v, n) :: after) (hover : c < (fieldsBits before).length + n) :
    c < (fieldsBits a.keyFields).length := by
  have hbits : fieldsBits a.keyFields = fieldsBits before ++ (fieldBits v n ++ fieldsBits after) := by
    rw [← fieldsBits_pieces, hsplit, fieldsBits_append, fieldsBits_cons]
  rw [hbits, List.length_append, List.length_append, fieldBits_length]
  omega

/-! ### `BUILD` (R170) -/

section Build
variable {s : State} {bd ba : SlotNo}

/-- `BUILD` behind its tests is the serialization of the assignment. -/
theorem exec_build_of_fresh (hbd : bd.toNat < s.nbuf) (hba : ba.toNat < s.nbuf) (hne : bd ≠ ba) (h0 : 0 < s.tfnum.toNat)
    (h1 : s.tfnum.toNat < s.tfden.toNat) (hd : (s.slot ba).dirty = false) (htotal : (s.slot ba).total ≠ 0) {y : Slot} :
    (serialize s.cap (s.slot bd).cleared (assign (s.slot ba) s.tfnum.toNat s.tfden.toNat) = .done y →
      exec (.build bd ba) s = (s.setSlot bd y).done) ∧
    (serialize s.cap (s.slot bd).cleared (assign (s.slot ba) s.tfnum.toNat s.tfden.toNat) = .full y →
      exec (.build bd ba) s = (s.setSlot bd y).fail (capacityExceeded bd)) := by
  have hexec : exec (.build bd ba) s = execBuild bd ba s := rfl
  rw [hexec, execBuild, checked_of ((buildOperands_iff s bd ba).mpr ⟨hbd, hba, hne, h0, h1⟩), ifFresh_of_fresh s ba _ hd,
    bne_iff_ne.mpr htotal, ifDefined_true]
  constructor <;> intro h <;> simp only [h]

/-- A `BUILD` that ends with an outcome no test of it has ended in the serialization. -/
theorem exec_build_cases {t : State} (ht : exec (.build bd ba) s = .next t) :
    (t.status = 9 ∨ t.status = 2 ∨ t.status = 5) ∨ bd.toNat < s.nbuf ∧
      ((∃ y, serialize s.cap (s.slot bd).cleared (assign (s.slot ba) s.tfnum.toNat s.tfden.toNat) = .done y ∧
          t = (s.setSlot bd y).succeed) ∨
        ∃ y, serialize s.cap (s.slot bd).cleared (assign (s.slot ba) s.tfnum.toNat s.tfden.toNat) = .full y ∧
          t = (s.setSlot bd y).raise (capacityExceeded bd)) := by
  have hexec : exec (.build bd ba) s = execBuild bd ba s := rfl
  rw [hexec, execBuild, checked_eq_next, ifFresh_eq_next, ifDefined_eq_next] at ht
  obtain ⟨hok, ⟨_, ⟨_, ht⟩ | ⟨_, rfl⟩⟩ | ⟨_, rfl⟩⟩ | ⟨_, rfl⟩ := ht
  · refine .inr ⟨((buildOperands_iff s bd ba).mp hok).1, ?_⟩
    cases hser : serialize s.cap (s.slot bd).cleared (assign (s.slot ba) s.tfnum.toNat s.tfden.toNat) with
    | done y =>
      simp only [hser] at ht
      exact .inl ⟨y, rfl, ((State.done_eq_next _ t).mp ht).symm⟩
    | full y =>
      simp only [hser] at ht
      exact .inr ⟨y, rfl, ((State.fail_eq_next _ t _).mp ht).symm⟩
  · exact .inl (.inr (.inr rfl))
  · exact .inl (.inr (.inl rfl))
  · exact .inl (.inl rfl)

end Build

/-! ### The key in the slot (R85 to R87) -/

section Key
variable {c : Codebook} (hc : c.WellFormed) {x : Slot} (hx : x.dataBits = fieldsBits c.keyFields)
include hc hx

/-- The byte value of entry `e` stands at the entry's bit, its codeword behind it. -/
theorem Codebook.WellFormed.fieldAt_entry {e : Nat} {a : CodeEntry} (he : c.entries[e]? = some a) :
    x.fieldAt (c.header.entryBit e) 8 = a.value.toNat ∧ x.fieldAt (c.header.entryBit e + 8) a.length = a.code := by
  obtain ⟨hlt, rfl⟩ := List.getElem?_eq_some_iff.mp he
  have hentry := hc.keyEntry_eq hx e hlt
  have hvalue := congrArg (fun a => a.value.toNat) hentry
  have hcode := congrArg CodeEntry.code hentry
  simp only [Slot.keyEntry, BitVec.toNat_ofNat, Nat.mod_eq_of_lt (x.fieldAt_lt _ 8)] at hvalue
  exact ⟨hvalue, hc.width e hlt ▸ hcode⟩

end Key

/-- A header byte of the slot is the field at its place, if the slot is long enough. -/
theorem Slot.bytes_of_fieldsBits {x : Slot} (hcur : x.CursorOk) {fields before after : List (Nat × Nat)} {v a : Nat}
    (hx : x.dataBits = fieldsBits fields) (hsplit : fields = before ++ (v, 8) :: after)
    (hbefore : (before.map (·.2)).sum = 8 * a) : x.bytes[a]? = some (BitVec.ofNat 8 v) := by
  have hlen : a < x.len := by
    have hbits : x.bitLen = (fields.map (·.2)).sum := by rw [← x.dataBits_length, hx, fieldsBits_length]
    rw [x.len_eq hcur, hbits, hsplit, List.map_append, List.sum_append, hbefore, List.map_cons, List.sum_cons]
    omega
  have hfield := Slot.fieldAt_of_fieldsBits hx before after v 8 hsplit
  have hbyte : x.headerByte a = x.bytes.getD a 0 := by simp [Slot.headerByte, memRead]
  rw [Slot.getElem?_bytes hlen, ← hbyte, x.headerByte_eq, ← hbefore, hfield, byte_ofNat_mod]

section Assignment
variable {a : Assignment} (ha : a.Bounded) {x : Slot} (hx : x.dataBits = fieldsBits a.keyFields)
include ha hx

/-- The short entries as they stand in the key (R86). -/
theorem Assignment.Bounded.fieldAt_short {i : Nat} {y : Symbol} (hi : i < a.k) (hy : a.ord[i]? = some y) :
    x.fieldAt (32 + i * (8 + a.bs)) 8 = y.value.toNat ∧ x.fieldAt (32 + i * (8 + a.bs) + 8) a.bs = i := by
  have hbit : a.codebook.header.entryBit i = 32 + i * (8 + a.bs) := if_pos hi.le
  have hentry : a.codebook.entries[i]? = some (a.entry i y) := by
    rw [a.codebook_entries, List.getElem?_mapIdx, hy, Option.map_some]
  have hfield := ha.codebook_wellFormed.fieldAt_entry (hx.trans ha.fieldsBits_keyFields) hentry
  rwa [hbit, Assignment.entry_short hi] at hfield

/-- The long entries: the byte value, the escape pattern, the index (R86). -/
theorem Assignment.Bounded.fieldAt_long {j : Nat} {y : Symbol} (hj : j < a.m - a.k) (hy : a.ord[a.k + j]? = some y) :
    x.fieldAt (32 + a.k * (8 + a.bs) + j * (8 + a.bl)) 8 = y.value.toNat ∧
    x.fieldAt (32 + a.k * (8 + a.bs) + j * (8 + a.bl) + 8) a.bs = 2 ^ a.bs - 1 ∧
    x.fieldAt (32 + a.k * (8 + a.bs) + j * (8 + a.bl) + 8 + a.bs) (a.bl - a.bs) = j := by
  have hbit : a.codebook.header.entryBit (a.k + j) = 32 + a.k * (8 + a.bs) + j * (8 + a.bl) := by
    change (if a.k + j ≤ a.k then 32 + (a.k + j) * (8 + a.bs) else
      32 + a.k * (8 + a.bs) + (a.k + j - a.k) * (8 + a.bl)) = _
    split
    · rw [show j = 0 by omega]; simp
    · rw [Nat.add_sub_cancel_left]
  have hentry : a.codebook.entries[a.k + j]? = some (a.entry (a.k + j) y) := by
    rw [a.codebook_entries, List.getElem?_mapIdx, hy, Option.map_some]
  obtain ⟨hvalue, hcode⟩ := ha.codebook_wellFormed.fieldAt_entry (hx.trans ha.fieldsBits_keyFields) hentry
  obtain ⟨hindex, hwidth⟩ := ha.long_code (show a.k + j < a.m by omega) (Nat.le_add_right _ _)
  rw [hbit, Assignment.entry_long (Nat.le_add_right _ _), Nat.add_sub_cancel_left] at hvalue hcode
  rw [Nat.add_sub_cancel_left] at hindex
  have hsplit := x.fieldAt_add (32 + a.k * (8 + a.bs) + j * (8 + a.bl) + 8) a.bs (a.bl - a.bs)
  have hescape := x.fieldAt_div (32 + a.k * (8 + a.bs) + j * (8 + a.bl) + 8) a.bs (a.bl - a.bs)
  rw [Nat.add_sub_cancel' hwidth.le, hcode] at hsplit hescape
  rw [mul_two_pow_add_div hindex] at hescape
  rw [← hescape] at hsplit
  exact ⟨hvalue, hescape.symm, Nat.add_left_cancel hsplit.symm⟩

end Assignment

end Sys2Proof.Machine

namespace Sys2Proof
open Machine

/-- Settles O47. -/
theorem walkStopsAtTarget : Obligations.WalkStopsAtTarget := by
  intro x num den hnum hfrac htotal hsum
  obtain ⟨hpos, hlen, hbefore, _⟩ := walk_spec num den x.total.toNat (ordering x) 0
  refine ⟨hpos (ordering_ne_nil (by omega)), hlen, walk_reaches hfrac hsum, fun k hk => ?_⟩
  rcases Nat.eq_zero_or_pos k with rfl | hk1
  · simpa using Nat.mul_pos hnum htotal
  · simpa using hbefore k hk1 hk

/-- Settles O48: the bounds of `Assignment.Bounded`, and that both logarithms are the least. -/
theorem assignmentBounds : Obligations.AssignmentBounds := by
  intro x num den a _ _ htotal hsum ha
  have hwidth := shortWidth_spec (walk num den x.total.toNat 0 (ordering x))
  have hwalk := (walk_spec num den x.total.toNat (ordering x) 0).2.1
  have hbs : a.bs = shortWidth (walk num den x.total.toNat 0 (ordering x)) := by rw [ha]; rfl
  have hm : a.m = (ordering x).length := by rw [ha]; rfl
  have hbl : a.bl = longWidth a.bs (a.m - a.k) := by rw [ha]; rfl
  have hbounded : a.Bounded := ha ▸ assign_bounded num den (by omega)
  rw [← hbs] at hwidth
  obtain ⟨_, hbelow, hleast⟩ := hwidth
  obtain ⟨hk1, hkm, hm256⟩ := hbounded.counts
  obtain ⟨hbs2, hbs9⟩ := hbounded.short_width
  have hbl15 := hbounded.longWidth_le_15
  have hpow : 2 ^ 2 ≤ 2 ^ a.bs := Nat.pow_le_pow_right (by omega) hbs2
  have htiers := hbounded.tiers
  have hnine (h9 : a.bs = 9) : walk num den x.total.toNat 0 (ordering x) = 256 := by
    by_contra hne
    have := hleast 8 (by omega) (by omega)
    omega
  refine ⟨hk1, hkm, hm256, hm, hbs2, hbs9, fun h9 => ⟨?_, hnine h9⟩, hbelow, hleast, by omega, by omega, by omega, by omega,
    by omega, fun hlong => ⟨by omega, ?_⟩, hbounded.keyBits_le⟩
  · have := hnine h9; omega
  · exact hbl ▸ two_pow_longWidth_lt (by omega)

/-- Settles O49: the fields fit, so all of them stand in the key slot. -/
theorem buildWritesKey : Obligations.BuildWritesKey := by
  intro s bd ba a hbd hba hne h0 h1 hd htotal hsum ha hroom
  have hbounded : a.Bounded := ha ▸ assign_bounded _ _ (by omega)
  have hlength := assign_key_length (s.slot ba) s.tfnum.toNat s.tfden.toNat
  rw [← ha] at hlength
  obtain ⟨y, hdone, hfill, _⟩ | ⟨y, before, v, n, after, _, hsplit, _, _, hover⟩ :=
    serialize_cases s.cap (s.slot bd) hbounded.width_le
  case inr => have := lt_key_length_of_pieces hsplit hover; omega
  have hne0 : (s.slot ba).total ≠ 0 := fun hz => by rw [hz] at htotal; exact absurd htotal (by decide)
  have hexec := (exec_build_of_fresh hbd hba hne h0 h1 hd hne0).1 (ha ▸ hdone)
  have hslot : (s.setSlot bd y).succeed.slot bd = y := s.slot_setSlot_same bd y hbd
  have hbyte {k v : Nat} {before after : List (Nat × Nat)} := Slot.bytes_of_fieldsBits hfill.cursor hfill.dataBits
    (before := before) (after := after) (v := v) (a := k)
  refine ⟨_, hexec, ?_, otherSlotsKept_of_set rfl, ?_⟩
  · rw [hslot]; rfl
  · simp only [State.readByte, memRead, hslot]
    refine ⟨hfill.dirty, hfill.padZero, hfill.freq, hfill.total, ?_, ?_, hbyte (before := [_, _]) rfl rfl,
      hbyte (before := [_, _, _]) rfl rfl, hfill.bitLen.trans hlength, fun i z hi hz => hbounded.fieldAt_short hfill.dataBits hi hz,
      fun j z hj hz => hbounded.fieldAt_long hfill.dataBits hj hz⟩
    · rw [← byte_ofNat_mod a.m]; exact hbyte (before := []) rfl rfl
    · rw [← byte_ofNat_mod a.k]; exact hbyte (before := [_]) rfl rfl

/-- Settles O50: a `BUILD` that succeeded wrote all fields, which are those of the codebook. -/
theorem builtKeyParses : Obligations.BuiltKeyParses := by
  intro s t bd ba a hbd hba hne htotal hsum ha ht hstatus
  have hbounded : a.Bounded := ha ▸ assign_bounded _ _ (by omega)
  refine ⟨?_, fun v => ha ▸ assign_codebook_enc _ _ _ v⟩
  obtain hcode | ⟨_, ⟨y, hdone, rfl⟩ | ⟨y, _, rfl⟩⟩ := exec_build_cases ht
  · rw [hstatus] at hcode; exact absurd hcode (by decide)
  · obtain ⟨z, hz, hfill, _⟩ | ⟨z, _, _, _, _, hfull, _⟩ := serialize_cases s.cap (s.slot bd) hbounded.width_le
    · rw [← ha, hz] at hdone
      obtain rfl := Appended.done.inj hdone
      rw [State.succeed_slot, s.slot_setSlot_same bd z hbd]
      exact hbounded.codebook_wellFormed.parseKey_eq hfill.cursor (hfill.dataBits.trans hbounded.fieldsBits_keyFields)
    · rw [← ha, hfull] at hdone; cases hdone
  · exact absurd hstatus (State.raise_status_ne_zero _ _)

end Sys2Proof
end

section
/-!
PROOFS. `ENCODE` and `DECODE` (spec/43_codec.md R202 to R205) and a full destination (R248): each loop past the bytes that it
takes without failing, what it meets behind them, and the commands that end there.
-/

namespace Sys2Proof.Machine

/-! ### Ends of a command that wrote its destination -/

section WroteEnd
variable (s : State) {bd : SlotNo} (hbd : bd.toNat < s.nbuf) (y : Slot)
include hbd

theorem State.exists_done : ∃ t, (s.setSlot bd y).done = .next t ∧
    t = { s with slots := s.slots.set bd.toNat (t.slot bd), status := 0 } ∧ OtherSlotsKept s t bd ∧ t.slot bd = y := by
  have hslot : (s.setSlot bd y).succeed.slot bd = y := s.slot_setSlot_same bd y hbd
  exact ⟨_, rfl, by rw [hslot]; rfl, otherSlotsKept_of_set rfl, hslot⟩

theorem State.exists_fail (f : Failure) : ∃ t, (s.setSlot bd y).fail f = .next t ∧
    t = { s with
      slots := s.slots.set bd.toNat (t.slot bd), status := f.kind.code.setWidth 32, einfo := f.info } ∧
    OtherSlotsKept s t bd ∧ t.slot bd = y := by
  have hslot : ((s.setSlot bd y).raise f).slot bd = y := s.slot_setSlot_same bd y hbd
  exact ⟨_, rfl, by rw [hslot]; rfl, otherSlotsKept_of_set rfl, hslot⟩

end WroteEnd

/-- `STATUS` 7 is `CapacityExceeded` (R241). -/
theorem kind_of_status_seven {s : State} {f : Failure} (h : (s.raise f).status = 7) : f.kind = .capacityExceeded := by
  rw [State.raise_status] at h
  cases hk : f.kind <;> rw [hk] at h <;> first | rfl | exact absurd h (by decide)

/-! ### The two commands behind their operand test -/

section Codec
variable {s : State} {bd ba bk : SlotNo}

section InRange
variable (hbd : bd.toNat < s.nbuf) (hba : ba.toNat < s.nbuf) (hbk : bk.toNat < s.nbuf) (hda : bd ≠ ba) (hdk : bd ≠ bk)
include hbd hba hbk hda hdk

theorem exec_encode_of_keyError {f : Failure} (hf : parseKey (s.slot bk) = .error f) :
    exec (.encode bd ba bk) s = s.fail f := by
  have hexec : exec (.encode bd ba bk) s = execEncode bd ba bk s := rfl
  rw [hexec, execEncode, checked_of ((codecOperands_iff s bd ba bk).mpr ⟨hbd, hba, hbk, hda, hdk⟩), hf]

theorem exec_decode_of_keyError {f : Failure} (hf : parseKey (s.slot bk) = .error f) :
    exec (.decode bd ba bk) s = s.fail f := by
  have hexec : exec (.decode bd ba bk) s = execDecode bd ba bk s := rfl
  rw [hexec, execDecode, checked_of ((codecOperands_iff s bd ba bk).mpr ⟨hbd, hba, hbk, hda, hdk⟩), hf]

variable {book : Codebook} (hparse : parseKey (s.slot bk) = .ok book) {y : Slot}
include hparse

theorem exec_encode_of_loop_none
    (hloop : encodeLoop s.cap book bd 0 (s.slot ba).bytes (s.slot bd).cleared = (y, none)) :
    exec (.encode bd ba bk) s = (s.setSlot bd y.refresh).done := by
  have hexec : exec (.encode bd ba bk) s = execEncode bd ba bk s := rfl
  rw [hexec, execEncode, checked_of ((codecOperands_iff s bd ba bk).mpr ⟨hbd, hba, hbk, hda, hdk⟩), hparse]
  simp only [hloop]

theorem exec_encode_of_loop_some {f : Failure}
    (hloop : encodeLoop s.cap book bd 0 (s.slot ba).bytes (s.slot bd).cleared = (y, some f)) :
    exec (.encode bd ba bk) s = (s.setSlot bd y).fail f := by
  have hexec : exec (.encode bd ba bk) s = execEncode bd ba bk s := rfl
  rw [hexec, execEncode, checked_of ((codecOperands_iff s bd ba bk).mpr ⟨hbd, hba, hbk, hda, hdk⟩), hparse]
  simp only [hloop]

/-- `DECODE` ends as its loop does. -/
theorem exec_decode_of_loop {f : Option Failure}
    (hloop : decodeLoop s.cap book bd (s.slot ba) (s.slot ba).bitLen 0 (s.slot bd).cleared = (y, f)) :
    exec (.decode bd ba bk) s = (s.setSlot bd y).finish f := by
  have hexec : exec (.decode bd ba bk) s = execDecode bd ba bk s := rfl
  rw [hexec, execDecode, checked_of ((codecOperands_iff s bd ba bk).mpr ⟨hbd, hba, hbk, hda, hdk⟩), hparse]
  simp only [hloop]
  cases f <;> rfl

end InRange

/-- An `ENCODE` that ends with code 7 ended in its loop, with `CapacityExceeded`. -/
theorem exec_encode_capacity {t : State} (ht : exec (.encode bd ba bk) s = .next t) (hstatus : t.status = 7) :
    ∃ book y f, parseKey (s.slot bk) = .ok book ∧ f.kind = .capacityExceeded ∧
      encodeLoop s.cap book bd 0 (s.slot ba).bytes (s.slot bd).cleared = (y, some f) := by
  have hexec : exec (.encode bd ba bk) s = execEncode bd ba bk s := rfl
  rw [hexec, execEncode, checked_eq_next] at ht
  rcases ht with ⟨_, ht⟩ | ⟨_, rfl⟩
  case inr => cases kind_of_status_seven hstatus
  cases hparse : parseKey (s.slot bk) with
  | error f =>
    simp only [hparse, State.fail_eq_next] at ht
    subst ht
    have hkind := parseKey_error_kind hparse
    rw [kind_of_status_seven hstatus] at hkind; cases hkind
  | ok book =>
    simp only [hparse] at ht
    split at ht
    · rw [State.done_eq_next] at ht; subst ht; cases hstatus
    · next y f hloop =>
      rw [State.fail_eq_next] at ht
      subst ht
      exact ⟨book, y, f, rfl, kind_of_status_seven hstatus, hloop⟩

/-- A `DECODE` that ends with code 7 ended in its loop, with `CapacityExceeded`. -/
theorem exec_decode_capacity {t : State} (ht : exec (.decode bd ba bk) s = .next t) (hstatus : t.status = 7) :
    ∃ book y f, parseKey (s.slot bk) = .ok book ∧ f.kind = .capacityExceeded ∧
      decodeLoop s.cap book bd (s.slot ba) (s.slot ba).bitLen 0 (s.slot bd).cleared = (y, some f) := by
  have hexec : exec (.decode bd ba bk) s = execDecode bd ba bk s := rfl
  rw [hexec, execDecode, checked_eq_next] at ht
  rcases ht with ⟨_, ht⟩ | ⟨_, rfl⟩
  case inr => cases kind_of_status_seven hstatus
  cases hparse : parseKey (s.slot bk) with
  | error f =>
    simp only [hparse, State.fail_eq_next] at ht
    subst ht
    have hkind := parseKey_error_kind hparse
    rw [kind_of_status_seven hstatus] at hkind; cases hkind
  | ok book =>
    simp only [hparse] at ht
    split at ht
    · rw [State.done_eq_next] at ht; subst ht; cases hstatus
    · next y f hloop =>
      rw [State.fail_eq_next] at ht
      subst ht
      exact ⟨book, y, f, rfl, kind_of_status_seven hstatus, hloop⟩

end Codec

/-! ### The loop of `ENCODE` (R202) -/

theorem Codebook.codeBits_append (c : Codebook) (l m : List Byte) : c.codeBits (l ++ m) = c.codeBits l ++ c.codeBits m :=
  List.flatMap_append

/-- The loop lays out the codewords of bytes that have entries and fit, and goes on behind them. -/
theorem Codebook.Sound.encodeLoop_skip {c : Codebook} (hc : c.Sound) (cap : Nat) (bd : SlotNo) (rest : List Byte)
    (before : List Byte) : ∀ (i : Nat) (x : Slot), x.CursorOk → x.dirty = true → c.Covers before →
    x.bitLen + (c.codeBits before).length ≤ 8 * cap →
    ∃ y, encodeLoop cap c bd i (before ++ rest) x = encodeLoop cap c bd (i + before.length) rest y ∧
      x.ExtendedBy y (c.codeBits before) ∧ y.dirty = true := by
  induction before with
  | nil => exact fun i x hcur hd _ _ => ⟨x, rfl, .refl x hcur, hd⟩
  | cons v before ih =>
    intro i x hcur hd hcover hroom
    obtain ⟨e, he⟩ := Option.ne_none_iff_exists'.mp (hcover v (by simp))
    obtain ⟨_, h1, h16⟩ := hc.fits e (enc_some c v e he).1
    rw [Codebook.codeBits_cons he, List.length_append, CodeEntry.bits_length] at hroom
    obtain ⟨hfull, _⟩ | ⟨_, y, hdone, hg, hyd⟩ := x.appendWide_spec cap e.code e.length hcur h1 h16
    · omega
    have hlen := hg.bitLen
    obtain ⟨z, hloop, hext, hzd⟩ := ih (i + 1) y hg.cursor hyd (fun w hw => hcover w (by simp [hw])) (by omega)
    refine ⟨z, ?_, Codebook.codeBits_cons he before ▸ hg.extendedBy.trans hext, hzd⟩
    rw [List.cons_append, encodeLoop]
    simp only [he, hdone]
    rw [hloop, List.length_cons, show i + 1 + before.length = i + (before.length + 1) by omega]

/-- The same from a cleared destination. -/
theorem Codebook.Sound.encodeLoop_cleared {c : Codebook} (hc : c.Sound) {cap : Nat} (bd : SlotNo) (x : Slot)
    {before : List Byte} (rest : List Byte) (hcover : c.Covers before) (hroom : (c.codeBits before).length ≤ 8 * cap) :
    ∃ y, encodeLoop cap c bd 0 (before ++ rest) x.cleared = encodeLoop cap c bd before.length rest y ∧
      x.FilledWith y (c.codeBits before) := by
  obtain ⟨y, hloop, hext, hd⟩ := hc.encodeLoop_skip cap bd rest before 0 x.cleared x.cursorOk_cleared rfl hcover
    (by rw [x.bitLen_cleared]; omega)
  exact ⟨y, by rw [hloop, Nat.zero_add], hext.filledWith hd⟩

/-- At a codeword that does not fit, the loop keeps its upper part where that fits (R122, R248). -/
theorem Codebook.Sound.encodeLoop_full {c : Codebook} (hc : c.Sound) {cap : Nat} (bd : SlotNo) {x y : Slot} {bits : List Bool}
    (hy : x.FilledWith y bits) {v : Byte} {e : CodeEntry} (he : c.enc v = some e) (i : Nat) (after : List Byte)
    (hover : 8 * cap < bits.length + e.length) :
    ∃ z, encodeLoop cap c bd i (v :: after) y = (z, some (capacityExceeded bd)) ∧
      x.FilledWith z (if 8 < e.length ∧ bits.length + (e.length - 8) ≤ 8 * cap then bits ++ e.bits.take (e.length - 8)
        else bits) := by
  obtain ⟨_, h1, h16⟩ := hc.fits e (enc_some c v e he).1
  have hlen := hy.bitLen
  obtain ⟨_, z, m, hfull, hm, hpart, hg, hd⟩ | ⟨hfits, _⟩ := y.appendWide_spec cap e.code e.length hy.cursor h1 h16
  · refine ⟨z, by rw [encodeLoop]; simp only [he, hfull], ?_, hg.cursor, hg.padZero hy.padZero, ?_, hg.freq.trans hy.freq,
      hg.total.trans hy.total⟩
    · rw [hg.dataBits, hy.dataBits, fieldBits_take _ _ _ hm.le, hpart, hlen]
      split
      · rfl
      · rw [List.take_zero, List.append_nil]
    · rcases hd with rfl | hd
      · exact hy.dirty
      · exact hd
  · omega

/-! ### The loop of `DECODE` (R203) -/

section Decode
variable {c : Codebook} (hc : c.WellFormed) {input : Slot}
include hc

/-- The loop takes the codewords of some bytes for those bytes, as far as they fit, and goes on behind them with turns enough. -/
theorem Codebook.WellFormed.decodeLoop_skip (cap : Nat) (bd : SlotNo) (rest : List Bool) (output : List Byte) :
    ∀ (fuel p : Nat) (x : Slot), c.Covers output → x.nfb = 0 → x.dirty = true →
    input.dataBits.drop p = c.codeBits output ++ rest → input.bitLen ≤ p + fuel → x.len + output.length ≤ cap →
    ∃ fuel', input.bitLen ≤ p + (c.codeBits output).length + fuel' ∧
      decodeLoop cap c bd input fuel p x =
        decodeLoop cap c bd input fuel' (p + (c.codeBits output).length) { x with bytes := x.bytes ++ output } := by
  induction output with
  | nil =>
    intro fuel p x _ _ _ _ hfuel _
    exact ⟨fuel, hfuel, by simp [Codebook.codeBits]⟩
  | cons v output ih =>
    intro fuel p x hcover h0 hd hp hfuel hcap
    obtain ⟨e, he⟩ := Option.ne_none_iff_exists'.mp (hcover v (by simp))
    obtain ⟨hmem, _⟩ := enc_some c v e he
    obtain ⟨_, hlength, _⟩ := hc.sound.fits e hmem
    have hbs := hc.bs_le_length hmem
    rw [Codebook.codeBits_cons he, List.append_assoc] at hp
    rw [List.length_cons] at hcap
    have hrest : input.bitLen - p = e.length + (c.codeBits output ++ rest).length := by
      simpa using congrArg List.length hp
    have hin : p + e.length ≤ input.bitLen := by omega
    have hnext : input.dataBits.drop (p + e.length) = c.codeBits output ++ rest := by
      rw [← List.drop_drop, hp, List.drop_left' e.bits_length]
    obtain ⟨fuel, rfl⟩ := Nat.exists_eq_add_of_le' (show 1 ≤ fuel by omega)
    obtain ⟨fuel', hfuel', hloop⟩ := ih fuel (p + e.length) { x with bytes := x.bytes ++ [v], nfb := 0, dirty := true }
      (fun w hw => hcover w (by simp [hw])) rfl rfl hnext (by omega)
      (by simp only [Slot.len, List.length_append, List.length_singleton] at hcap ⊢; omega)
    refine ⟨fuel', by rw [Codebook.codeBits_cons he, List.length_append, CodeEntry.bits_length]; omega, ?_⟩
    rw [decodeLoop_succ _ _ _ _ _ _ _ h0, if_pos (by omega), hc.nextCodeword_of_dataBits hmem hin hp]
    simp only [hc.sound.dec_of_enc he]
    rw [if_neg (by omega), hloop, Codebook.codeBits_cons he, List.length_append, CodeEntry.bits_length, Nat.add_assoc p]
    simp [h0, hd]

/-- The same from a cleared destination, at a position with at least one bit left: one more turn is due. -/
theorem Codebook.WellFormed.decodeLoop_cleared {cap : Nat} (bd : SlotNo) (x : Slot) {output : List Byte} {rest : List Bool}
    (hcover : c.Covers output) (hdata : input.dataBits = c.codeBits output ++ rest) (hrest : 1 ≤ rest.length)
    (hcap : output.length ≤ cap) :
    ∃ fuel, decodeLoop cap c bd input input.bitLen 0 x.cleared =
      decodeLoop cap c bd input (fuel + 1) (c.codeBits output).length { x.cleared with bytes := output } := by
  obtain ⟨fuel, hfuel, hloop⟩ := hc.decodeLoop_skip cap bd rest output input.bitLen 0 x.cleared hcover rfl rfl hdata (by omega)
    (by simpa [Slot.len] using hcap)
  have hlen : input.bitLen = (c.codeBits output).length + rest.length := by
    rw [← input.dataBits_length, hdata, List.length_append]
  obtain ⟨fuel, rfl⟩ := Nat.exists_eq_add_of_le' (show 1 ≤ fuel by omega)
  exact ⟨fuel, by rw [hloop, Nat.zero_add]; rfl⟩

/-- A codeword that was found stands in the input. -/
theorem Codebook.WellFormed.nextCodeword_ok {p code length : Nat} (hp : p + c.header.bs ≤ input.bitLen)
    (hnext : nextCodeword c.header input p = .ok (code, length)) :
    p + length ≤ input.bitLen ∧ input.dataBits.drop p = fieldBits code length ++ input.dataBits.drop (p + length) := by
  have hlong := hc.long_width
  have hfound : code = input.fieldAt p length ∧ p + length ≤ input.bitLen := by
    rw [nextCodeword_eq c.header input p (by omega) hp] at hnext
    split_ifs at hnext
    all_goals
      obtain ⟨rfl, rfl⟩ := Prod.mk.inj (Except.ok.inj hnext)
      exact ⟨rfl, by assumption⟩
  obtain ⟨rfl, hin⟩ := hfound
  exact ⟨hin, by rw [input.fieldBits_fieldAt p length hin, ← List.drop_drop, List.take_append_drop]⟩

/-- A loop that ends with `CapacityExceeded` had filled the destination and found one more codeword (R248). -/
theorem Codebook.WellFormed.decodeLoop_capacity (cap : Nat) (bd : SlotNo) {y : Slot} {f : Failure}
    (hf : f.kind = .capacityExceeded) (fuel : Nat) : ∀ (p : Nat) (x : Slot), x.nfb = 0 → x.len ≤ cap →
    decodeLoop cap c bd input fuel p x = (y, some f) →
    ∃ output v rest, c.Covers (output ++ [v]) ∧ input.dataBits.drop p = c.codeBits (output ++ [v]) ++ rest ∧
      x.len + output.length = cap := by
  induction fuel with
  | zero => exact fun _ _ _ _ h => nomatch h
  | succ fuel ih =>
    intro p x h0 hcap h
    rw [decodeLoop_succ _ _ _ _ _ _ _ h0] at h
    split at h
    case isFalse => cases h
    next hp =>
    split at h
    · next g hg =>
      cases h
      rw [nextCodeword_error hg] at hf; cases hf
    · next code length hnext =>
      obtain ⟨hin, hbits⟩ := hc.nextCodeword_ok hp hnext
      split at h
      · cases h; cases hf
      · next v hdec =>
        obtain ⟨e, he, rfl, rfl⟩ := hc.sound.enc_of_dec hdec
        have hcover {output : List Byte} (ho : c.Covers output) : c.Covers (v :: output) := fun w hw => by
          rcases List.mem_cons.mp hw with rfl | hw
          · simp [he]
          · exact ho w hw
        split at h
        · have hnil : c.Covers [] := fun _ h => nomatch h
          refine ⟨[], v, input.dataBits.drop (p + e.length), hcover hnil, ?_, ?_⟩
          · rw [hbits, List.nil_append, Codebook.codeBits_cons he, show c.codeBits [] = [] from rfl, List.append_nil]; rfl
          · rw [List.length_nil]; omega
        · obtain ⟨output, w, rest, ho, hdata, hlen⟩ := ih _ _ rfl (by
            simp only [Slot.len, List.length_append, List.length_singleton] at *; omega) h
          refine ⟨v :: output, w, rest, hcover ho, ?_, ?_⟩
          · rw [hbits, hdata, List.cons_append, Codebook.codeBits_cons he, List.append_assoc]; rfl
          · have hgrown : ({ x with bytes := x.bytes ++ [v], nfb := 0, dirty := true } : Slot).len = x.len + 1 :=
              List.length_append
            rw [List.length_cons]
            omega

end Decode

/-! ### `CapacityExceeded` and what the destination then keeps (R248) -/

section Capacity
variable {s t : State} {bd ba bk : SlotNo}

/-- `BUILD` keeps the bit appends before the first that does not fit. -/
theorem exec_build_full {a : Assignment} (hbd : bd.toNat < s.nbuf) (hba : ba.toNat < s.nbuf) (hne : bd ≠ ba)
    (h0 : 0 < s.tfnum.toNat) (h1 : s.tfnum.toNat < s.tfden.toNat) (hd : (s.slot ba).dirty = false)
    (htotal : (s.slot ba).total ≠ 0) (ha : a = assign (s.slot ba) s.tfnum.toNat s.tfden.toNat)
    (hkey : 8 * s.cap < 32 + a.k * (8 + a.bs) + (a.m - a.k) * (8 + a.bl)) :
    ∃ t before v n after, exec (.build bd ba) s = .next t ∧
      t = { s with slots := s.slots.set bd.toNat (t.slot bd), status := 7, einfo := bd.setWidth 32 } ∧
      OtherSlotsKept s t bd ∧ (t.slot bd).dirty = true ∧ (t.slot bd).PadZero ∧
      pieces a.keyFields = before ++ (v, n) :: after ∧ (t.slot bd).dataBits = fieldsBits before ∧
      (fieldsBits before).length ≤ 8 * s.cap ∧ 8 * s.cap < (fieldsBits before).length + n := by
  subst ha
  rw [← assign_key_length] at hkey
  obtain ⟨_, _, _, hroom⟩ | ⟨y, before, v, n, after, hfull, hsplit, hy, hroom, hover⟩ :=
    serialize_cases s.cap (s.slot bd) (assign_width_le (s.slot ba) s.tfnum.toNat s.tfden.toNat)
  · omega
  · obtain ⟨t, ht, hframe, hother, hslot⟩ := s.exists_fail hbd y (capacityExceeded bd)
    have hexec := (exec_build_of_fresh hbd hba hne h0 h1 hd htotal).2 hfull
    refine ⟨t, before, v, n, after, hexec.trans ht, hframe, hother, ?_⟩
    rw [hslot]
    exact ⟨hy.dirty, hy.padZero, hsplit, hy.dataBits, hroom, hover⟩

/-- A `BUILD` that ends with code 7 had a key with more bits than the slot. -/
theorem lt_key_length_of_exec_build (ht : exec (.build bd ba) s = .next t) (hstatus : t.status = 7) :
    8 * s.cap < (fieldsBits (assign (s.slot ba) s.tfnum.toNat s.tfden.toNat).keyFields).length := by
  obtain hcode | ⟨_, ⟨y, _, rfl⟩ | ⟨y, hy, _⟩⟩ := exec_build_cases ht
  · rw [hstatus] at hcode; exact absurd hcode (by decide)
  · cases hstatus
  · obtain ⟨z, hdone, _⟩ | ⟨_, _, _, _, _, _, hsplit, _, _, hover⟩ :=
      serialize_cases s.cap (s.slot bd) (assign_width_le (s.slot ba) s.tfnum.toNat s.tfden.toNat)
    · rw [hdone] at hy; cases hy
    · exact lt_key_length_of_pieces hsplit hover

/-- `ENCODE` keeps the codewords before the first that does not fit, and its upper part where that fits. -/
theorem exec_encode_full {book : Codebook} {before after : List Byte} {v : Byte} {e : CodeEntry}
    (hbd : bd.toNat < s.nbuf) (hba : ba.toNat < s.nbuf) (hbk : bk.toNat < s.nbuf) (hda : bd ≠ ba) (hdk : bd ≠ bk)
    (hparse : parseKey (s.slot bk) = .ok book) (hinput : (s.slot ba).bytes = before ++ v :: after) (hcover : book.Covers before)
    (he : book.enc v = some e) (hroom : (book.codeBits before).length ≤ 8 * s.cap)
    (hover : 8 * s.cap < (book.codeBits before).length + e.length) :
    ∃ t, exec (.encode bd ba bk) s = .next t ∧
      t = { s with slots := s.slots.set bd.toNat (t.slot bd), status := 7, einfo := bd.setWidth 32 } ∧
      OtherSlotsKept s t bd ∧ (t.slot bd).dirty = true ∧ (t.slot bd).PadZero ∧
      (t.slot bd).dataBits =
        if 8 < e.length ∧ (book.codeBits before).length + (e.length - 8) ≤ 8 * s.cap then
          book.codeBits before ++ e.bits.take (e.length - 8)
        else book.codeBits before := by
  have hc := (wellFormed_of_parseKey hparse).sound
  obtain ⟨y, hloop, hy⟩ := hc.encodeLoop_cleared bd (s.slot bd) (v :: after) hcover hroom
  obtain ⟨z, hstop, hz⟩ := hc.encodeLoop_full bd hy he before.length after hover
  rw [← hinput, hstop] at hloop
  obtain ⟨t, ht, hframe, hother, hslot⟩ := s.exists_fail hbd z (capacityExceeded bd)
  refine ⟨t, (exec_encode_of_loop_some hbd hba hbk hda hdk hparse hloop).trans ht, hframe, hother, ?_⟩
  rw [hslot]
  exact ⟨hz.dirty, hz.padZero, hz.dataBits⟩

/-- An `ENCODE` that ends with code 7 met a codeword that does not fit. -/
theorem exists_codeword_of_exec_encode (ht : exec (.encode bd ba bk) s = .next t) (hstatus : t.status = 7) :
    ∃ book before v after e, parseKey (s.slot bk) = .ok book ∧ (s.slot ba).bytes = before ++ v :: after ∧
      book.Covers before ∧ book.enc v = some e ∧ (book.codeBits before).length ≤ 8 * s.cap ∧
      8 * s.cap < (book.codeBits before).length + e.length := by
  obtain ⟨book, y, f, hparse, hkind, hloop⟩ := exec_encode_capacity ht hstatus
  have hc := (wellFormed_of_parseKey hparse).sound
  obtain ⟨_, _, _, _, hend | hend | hend⟩ := encodeLoop_spec s.cap book bd (fun e he => (hc.fits e he).2) (s.slot ba).bytes 0
    (s.slot bd).cleared (s.slot bd).cursorOk_cleared
  · rw [hend.1] at hloop; cases hloop
  · obtain ⟨_, _, _, hend, _⟩ := hend
    rw [hend] at hloop; cases hloop; cases hkind
  · obtain ⟨before, v, after, e, _, hinput, hcover, he, hover, hroom, _⟩ := hend
    rw [(s.slot bd).bitLen_cleared, Nat.zero_add] at hover hroom
    exact ⟨book, before, v, after, e, hparse, hinput, hcover, he, hroom (Nat.zero_le _), hover⟩

/-- `DECODE` keeps the first `CAP` bytes, where one more codeword follows theirs. -/
theorem exec_decode_full {book : Codebook} {output : List Byte} {v : Byte} {rest : List Bool}
    (hbd : bd.toNat < s.nbuf) (hba : ba.toNat < s.nbuf) (hbk : bk.toNat < s.nbuf) (hda : bd ≠ ba) (hdk : bd ≠ bk)
    (hparse : parseKey (s.slot bk) = .ok book) (hcover : book.Covers (output ++ [v]))
    (hdata : (s.slot ba).dataBits = book.codeBits (output ++ [v]) ++ rest) (hlen : output.length = s.cap) :
    ∃ t, exec (.decode bd ba bk) s = .next t ∧
      t = { s with slots := s.slots.set bd.toNat (t.slot bd), status := 7, einfo := bd.setWidth 32 } ∧
      OtherSlotsKept s t bd ∧ (t.slot bd).dirty = true ∧ (t.slot bd).nfb = 0 ∧ (t.slot bd).bytes = output := by
  have hc := wellFormed_of_parseKey hparse
  obtain ⟨e, he⟩ := Option.ne_none_iff_exists'.mp (hcover v (by simp))
  obtain ⟨hmem, _⟩ := enc_some book v e he
  obtain ⟨_, hlength, _⟩ := hc.sound.fits e hmem
  have hbs := hc.bs_le_length hmem
  have hnil : book.codeBits [] = [] := rfl
  rw [Codebook.codeBits_append, Codebook.codeBits_cons he, hnil, List.append_nil, List.append_assoc] at hdata
  have hdrop : (s.slot ba).dataBits.drop (book.codeBits output).length = e.bits ++ rest := by rw [hdata, List.drop_left]
  have hbits : (s.slot ba).bitLen = (book.codeBits output).length + (e.length + rest.length) := by
    rw [← Slot.dataBits_length, hdata, List.length_append, List.length_append, e.bits_length]
  obtain ⟨fuel, hloop⟩ := hc.decodeLoop_cleared bd (s.slot bd) (fun w hw => hcover w (by simp [hw])) hdata
    (by rw [List.length_append, e.bits_length]; omega) hlen.le
  rw [decodeLoop_succ _ _ _ _ _ _ _ rfl, if_pos (by omega), hc.nextCodeword_of_dataBits hmem (by omega) hdrop] at hloop
  simp only [hc.sound.dec_of_enc he] at hloop
  rw [if_pos (show s.cap < ({ (s.slot bd).cleared with bytes := output } : Slot).len + 1 from hlen ▸ Nat.lt_succ_self _)] at hloop
  have hexec := exec_decode_of_loop hbd hba hbk hda hdk hparse hloop
  obtain ⟨t, ht, hframe, hother, hslot⟩ :=
    s.exists_fail hbd { (s.slot bd).cleared with bytes := output } (capacityExceeded bd)
  refine ⟨t, hexec.trans ht, hframe, hother, ?_⟩
  rw [hslot]
  exact ⟨rfl, rfl, rfl⟩

/-- A `DECODE` that ends with code 7 met a codeword for one more byte than the slot holds. -/
theorem exists_codeword_of_exec_decode (ht : exec (.decode bd ba bk) s = .next t) (hstatus : t.status = 7) :
    ∃ book output v rest, parseKey (s.slot bk) = .ok book ∧ book.Covers (output ++ [v]) ∧
      (s.slot ba).dataBits = book.codeBits (output ++ [v]) ++ rest ∧ output.length = s.cap := by
  obtain ⟨book, y, f, hparse, hkind, hloop⟩ := exec_decode_capacity ht hstatus
  obtain ⟨output, v, rest, hcover, hdata, hlen⟩ := (wellFormed_of_parseKey hparse).decodeLoop_capacity s.cap bd hkind _ 0
    (s.slot bd).cleared rfl (Nat.zero_le _) hloop
  exact ⟨book, output, v, rest, hparse, hcover, hdata, (Nat.zero_add _).symm.trans hlen⟩

end Capacity

end Sys2Proof.Machine

namespace Sys2Proof
open Machine

/-- Settles O53. -/
theorem invalidKeyRefused : Obligations.InvalidKeyRefused := by
  intro s bd ba bk f hbd hba hbk hda hdk hparse
  have hencode := exec_encode_of_keyError hbd hba hbk hda hdk hparse
  have hdecode := exec_decode_of_keyError hbd hba hbk hda hdk hparse
  obtain ⟨check, h1, h9, rfl⟩ := parseKey_error_check hparse
  have hinfo : (invalidKey check).info.toNat = check := Nat.mod_eq_of_lt (by omega)
  exact ⟨rfl, hinfo.symm ▸ h1, hinfo.symm ▸ h9, hencode, hdecode⟩

/-- Settles O54: the loop ends behind the whole input, and the destination is refreshed. -/
theorem encodeConcatenatesCodewords : Obligations.EncodeConcatenatesCodewords := by
  intro s bd ba bk book hbd hba hbk hda hdk hparse hcover hroom hcap
  have hc := (wellFormed_of_parseKey hparse).sound
  obtain ⟨y, hloop, hy⟩ := hc.encodeLoop_cleared bd (s.slot bd) [] hcover hroom
  rw [List.append_nil] at hloop
  obtain ⟨t, ht, hframe, hother, hslot⟩ := s.exists_done hbd y.refresh
  have hexec := exec_encode_of_loop_none hbd hba hbk hda hdk hparse hloop
  have hlen : y.bytes.length = ((book.codeBits (s.slot ba).bytes).length + 7) / 8 := hy.bitLen ▸ y.len_eq hy.cursor
  refine ⟨t, hexec.trans ht, hframe, hother, ?_⟩
  rw [hslot]
  exact ⟨hy.dataBits, hy.padZero, hlen, (y.refresh_describes (by omega)).1⟩

/-- Settles O55: the loop ends at the first byte without an entry. -/
theorem encodeUnknownSymbol : Obligations.EncodeUnknownSymbol := by
  intro s bd ba bk book before after v hbd hba hbk hda hdk hparse hinput hcover hnone hroom
  have hc := (wellFormed_of_parseKey hparse).sound
  obtain ⟨y, hloop, hy⟩ := hc.encodeLoop_cleared bd (s.slot bd) (v :: after) hcover hroom
  have hstop : encodeLoop s.cap book bd before.length (v :: after) y = (y, some (unknownSymbol before.length)) := by
    rw [encodeLoop]; simp only [hnone]
  rw [← hinput, hstop] at hloop
  obtain ⟨t, ht, hframe, hother, hslot⟩ := s.exists_fail hbd y (unknownSymbol before.length)
  refine ⟨t, (exec_encode_of_loop_some hbd hba hbk hda hdk hparse hloop).trans ht, hframe, hother, ?_⟩
  rw [hslot]
  exact ⟨hy.dataBits, hy.dirty, hy.freq, hy.total⟩

/-- Settles O56: an accepted key is a well-formed codebook, whose codewords the loop takes apart, for any bytes. -/
theorem decodeInvertsCodewords : Obligations.DecodeInvertsCodewords := by
  intro s bd ba bk book output tail hbd hba hbk hda hdk hparse hcover hdata htail hroom
  have hc := wellFormed_of_parseKey hparse
  have hloop := hc.decodeLoop_eq s.cap bd htail output (s.slot ba).bitLen 0 (s.slot bd).cleared hcover rfl rfl hdata
    (by omega) (by simpa [Slot.len] using hroom)
  refine ⟨_, exec_decode_of_loop hbd hba hbk hda hdk hparse hloop, rfl, fun a => ?_, otherSlotsKept_of_set rfl⟩
  exact s.readByte_setSlot_same bd _ a hbd

/-- Settles O57: behind the decoded bytes one more turn is due, which ends at the codeword it meets. -/
theorem decodeStopsAtBadCodeword : Obligations.DecodeStopsAtBadCodeword := by
  intro s bd ba bk book output rest p hbd hba hbk hda hdk hparse hcover hdata hp hrest hroom
  have hc := wellFormed_of_parseKey hparse
  have hlong := hc.long_width
  obtain ⟨hbs1, _⟩ := hc.short_width
  obtain ⟨fuel, hloop⟩ := hc.decodeLoop_cleared bd (s.slot bd) hcover hdata (by omega) hroom
  have hlen : (s.slot ba).bitLen = p + rest.length := by
    rw [← Slot.dataBits_length, hdata, List.length_append, hp]
  rw [← hp, decodeLoop_succ _ _ _ _ _ _ _ rfl, if_pos (by omega),
    nextCodeword_eq book.header (s.slot ba) p (by omega) (by omega)] at hloop
  refine ⟨fun hesc hbl hcut => ?_, fun hshort hnone => ?_, fun hesc hbl hfits hnone => ?_⟩
  · rw [if_pos ⟨hesc, hbl⟩, if_neg (by omega)] at hloop
    exact exec_decode_of_loop hbd hba hbk hda hdk hparse hloop
  · rw [if_neg (by tauto)] at hloop
    simp only [hnone] at hloop
    exact exec_decode_of_loop hbd hba hbk hda hdk hparse hloop
  · rw [if_pos ⟨hesc, hbl⟩, if_pos (by omega)] at hloop
    simp only [hnone] at hloop
    exact exec_decode_of_loop hbd hba hbk hda hdk hparse hloop

/-- Settles O58: per command what it keeps, and that only such an append raises code 7. -/
theorem capacityKeepsWhatWasAppended : Obligations.CapacityKeepsWhatWasAppended := by
  intro s bd ba bk
  refine ⟨fun _ => exec_build_full, fun _ _ _ _ _ => exec_encode_full, fun _ _ _ _ => exec_decode_full,
    fun t hstatus => ⟨fun ht => ⟨_, rfl, ?_⟩, fun ht => exists_codeword_of_exec_encode ht hstatus,
      fun ht => exists_codeword_of_exec_decode ht hstatus⟩⟩
  rw [← assign_key_length]
  exact lt_key_length_of_exec_build ht hstatus

end Sys2Proof
end
